-- ==== Sys2Proof/Word.lean ====
section
/-! DEFINITION. The word types of DRFO (10_state.md, 20_memory.md): what the spec treats as bits. Counts, indexes and addresses being computed are
natural numbers, because the spec's arithmetic is exact (00_scope.md R6, 20_memory.md R41). -/

namespace Sys2Proof

/-- One byte of system memory (20_memory.md R41). -/
abbrev Byte := BitVec 8

/-- One 16-bit working sample or kernel output sample (`WSAMPLE_BITS`, 00_scope.md R4). -/
abbrev Sample := BitVec 16

/-- One 32-bit register of the register port (10_state.md R12). -/
abbrev Word := BitVec 32

/-- The index of a plane: 0 luma, 1 and 2 chroma (`NPLANES_MAX = 3`, 00_scope.md R4). -/
abbrev Plane := Fin 3

/-- One value for each of the three planes. -/
structure PerPlane (α : Type) where
  p0 : α
  p1 : α
  p2 : α
  deriving DecidableEq, Repr

end Sys2Proof
end

