-- ==== Sys2Proof/Syntax.lean ====
section
/-! DEFINITION. The instruction set: one constructor per row of spec/opcode_table.json (host transactions and commands of 40_host_commands.md, the
thirteen sequencer operations of 30_encoding.md R64), and the registers of the register block (10_state.md R12). -/

namespace Sys2Proof

/-- The instructions. Operations carry no operands: they take them from `pc`, the registers and memory (30_encoding.md R67). -/
inductive Instr where
  /-- `RD`: register read at byte offset `off` (40_host_commands.md R80). -/
  | rd (off : BitVec 8)
  /-- `WR`: register write of `data` at byte offset `off` (40_host_commands.md R81). -/
  | wr (off : BitVec 8) (data : Word)
  /-- `CMD.NOP` (40_host_commands.md R83). -/
  | cmdNop
  /-- `CMD.START` (40_host_commands.md R84). -/
  | cmdStart
  /-- `CMD.ACK` (40_host_commands.md R85). -/
  | cmdAck
  /-- `PLANEACT` (43_frame_setup.md R121). -/
  | planeact
  /-- `ALLOC` (43_frame_setup.md R123). -/
  | alloc
  /-- `STAGE` (43_frame_setup.md R125). -/
  | stage
  /-- `FLATTEN` (43_frame_setup.md R127). -/
  | flatten
  /-- `SBSETUP` (44_superblock_loop.md R141). -/
  | sbsetup
  /-- `LEVEL` (41_level_mapper.md R102). -/
  | level
  /-- `SKIPDET` (42_skip_detector.md R112). -/
  | skipdet
  /-- `THRESH` (44_superblock_loop.md R143). -/
  | thresh
  /-- `KERNEL` (44_superblock_loop.md R146). -/
  | kernel
  /-- `WRITEBACK` (44_superblock_loop.md R148). -/
  | writeback
  /-- `NEXTPL` (44_superblock_loop.md R150). -/
  | nextpl
  /-- `NEXTSB` (44_superblock_loop.md R152). -/
  | nextsb
  /-- `TEARDOWN` (44_superblock_loop.md R156). -/
  | teardown
  deriving DecidableEq, Repr

/-- The registers of the register block (10_state.md R12); `reserved` stands for every offset the table does not list (30_encoding.md R68). -/
inductive Reg where
  | cmd
  | status
  | seqpos
  | ctrl
  | glevel
  | miRows
  | miCols
  | miStride
  | miBase
  | frameFmt
  | planeBase (p : Plane)
  | planeStride (p : Plane)
  | planeSs (p : Plane)
  | reserved
  deriving DecidableEq, Repr

/-- An encoded instruction in one of the formats of 30_encoding.md R60 (`MIE` is a memory entry, no instruction). -/
inductive CodeWord where
  /-- Format `BUS`: one transaction on the register port. -/
  | bus (w : BitVec 41)
  /-- Format `CMD`: the data word of a `BUS` write to offset 0x00. -/
  | cmd (w : Word)
  /-- Format `SEQ`: the value of `pc.OP`. -/
  | seq (w : BitVec 4)
  deriving DecidableEq, Repr

end Sys2Proof
end

