-- ==== Sys2Proof/WellFormed.lean ====
section
/-! DEFINITION. Which instructions exist: a register-port transaction has an offset that is a multiple of 4 (20_memory.md R40, 30_encoding.md R61);
every other instruction has no field that could be wrong. -/

namespace Sys2Proof

/-- `off[1:0] = 0b00` (30_encoding.md R61). -/
def offsetAligned (off : BitVec 8) : Bool := off.extractLsb' 0 2 == 0#2

/-- The instructions that exist on the machine (30_encoding.md R61). -/
def WellFormed : Instr → Bool
  | .rd off => offsetAligned off
  | .wr off _ => offsetAligned off
  | .cmdNop => true
  | .cmdStart => true
  | .cmdAck => true
  | .planeact => true
  | .alloc => true
  | .stage => true
  | .flatten => true
  | .sbsetup => true
  | .level => true
  | .skipdet => true
  | .thresh => true
  | .kernel => true
  | .writeback => true
  | .nextpl => true
  | .nextsb => true
  | .teardown => true

end Sys2Proof
end

