-- ==== Sys2Proof/Decode.lean ====
section
/-! DEFINITION. Decoding and encoding of the three instruction formats (30_encoding.md R60 to R65, R69) and the address map of the register block
(10_state.md R12). Decoding is total and rejects by name. -/

namespace Sys2Proof

/-- Why a code word is no instruction. -/
inductive DecodeError where
  /-- A transaction whose offset is not a multiple of 4: it does not exist on the port (30_encoding.md R61). -/
  | misalignedOffset
  /-- A command word other than 0, 1, 2 (30_encoding.md R63). The `WR` that carries it sets `ILLCMD` (40_host_commands.md R86). -/
  | reservedCommand
  /-- Operation code 0, `IDLE`: not an operation (30_encoding.md R64). -/
  | idleOperation
  /-- Operation codes 0xE and 0xF (30_encoding.md R65). -/
  | reservedOperation
  deriving DecidableEq, Repr

/-- The bit `we` of a `BUS` word, [40] (30_encoding.md R60). -/
def busWe (w : BitVec 41) : BitVec 1 := w.extractLsb' 40 1
/-- The field `off` of a `BUS` word, [39:32] (30_encoding.md R60). -/
def busOff (w : BitVec 41) : BitVec 8 := w.extractLsb' 32 8
/-- The field `data` of a `BUS` word, [31:0] (30_encoding.md R60). -/
def busData (w : BitVec 41) : Word := w.extractLsb' 0 32
/-- The `BUS` word `{we, off, data}` (30_encoding.md R61). -/
def busWord (we : BitVec 1) (off : BitVec 8) (data : Word) : BitVec 41 := we ++ off ++ data

/-- Format `BUS` (30_encoding.md R61). The data bits of a read are ignored. -/
def decodeBus (w : BitVec 41) : Except DecodeError Instr :=
  if offsetAligned (busOff w) then
    if busWe w = 1#1 then .ok (.wr (busOff w) (busData w)) else .ok (.rd (busOff w))
  else .error .misalignedOffset

/-- Format `CMD` (30_encoding.md R62, R63): the whole value selects the command. -/
def decodeCmd (w : Word) : Except DecodeError Instr :=
  if w = 0#32 then .ok .cmdNop
  else if w = 1#32 then .ok .cmdStart
  else if w = 2#32 then .ok .cmdAck
  else .error .reservedCommand

/-- Format `SEQ` (30_encoding.md R64, R65). -/
def decodeSeq (w : BitVec 4) : Except DecodeError Instr :=
  match w.toNat with
  | 1 => .ok .planeact
  | 2 => .ok .alloc
  | 3 => .ok .stage
  | 4 => .ok .flatten
  | 5 => .ok .sbsetup
  | 6 => .ok .level
  | 7 => .ok .skipdet
  | 8 => .ok .thresh
  | 9 => .ok .kernel
  | 10 => .ok .writeback
  | 11 => .ok .nextpl
  | 12 => .ok .nextsb
  | 13 => .ok .teardown
  | 0 => .error .idleOperation
  | _ => .error .reservedOperation

/-- Decoding of a code word, by its format. No mode bit changes it (30_encoding.md R69). -/
def decode : CodeWord → Except DecodeError Instr
  | .bus w => decodeBus w
  | .cmd w => decodeCmd w
  | .seq w => decodeSeq w

/-- The instruction a `BUS` transaction asks for: a `WR` to offset 0x00 whose data word is a command IS that command (40_host_commands.md R81,
30_encoding.md R62, "bus_word" of the opcode table); every other transaction is the `RD` or `WR` it decodes to. -/
def decodeTransaction (w : BitVec 41) : Except DecodeError Instr :=
  match decodeBus w with
  | .error e => .error e
  | .ok (.wr off data) =>
    if off = 0#8 then
      match decodeCmd data with
      | .ok c => .ok c
      | .error _ => .ok (.wr off data)
    else .ok (.wr off data)
  | .ok i => .ok i

/-- The operation codes of 30_encoding.md R64. -/
def opIdle : BitVec 4 := 0x0#4
def opPlaneact : BitVec 4 := 0x1#4
def opAlloc : BitVec 4 := 0x2#4
def opStage : BitVec 4 := 0x3#4
def opFlatten : BitVec 4 := 0x4#4
def opSbsetup : BitVec 4 := 0x5#4
def opLevel : BitVec 4 := 0x6#4
def opSkipdet : BitVec 4 := 0x7#4
def opThresh : BitVec 4 := 0x8#4
def opKernel : BitVec 4 := 0x9#4
def opWriteback : BitVec 4 := 0xA#4
def opNextpl : BitVec 4 := 0xB#4
def opNextsb : BitVec 4 := 0xC#4
def opTeardown : BitVec 4 := 0xD#4

/-- The code word of an instruction, in its own format (30_encoding.md R61, R62, R64). -/
def encode : Instr → CodeWord
  | .rd off => .bus (busWord 0#1 off 0#32)
  | .wr off data => .bus (busWord 1#1 off data)
  | .cmdNop => .cmd 0#32
  | .cmdStart => .cmd 1#32
  | .cmdAck => .cmd 2#32
  | .planeact => .seq opPlaneact
  | .alloc => .seq opAlloc
  | .stage => .seq opStage
  | .flatten => .seq opFlatten
  | .sbsetup => .seq opSbsetup
  | .level => .seq opLevel
  | .skipdet => .seq opSkipdet
  | .thresh => .seq opThresh
  | .kernel => .seq opKernel
  | .writeback => .seq opWriteback
  | .nextpl => .seq opNextpl
  | .nextsb => .seq opNextsb
  | .teardown => .seq opTeardown

/-- The register at a byte offset (10_state.md R12; the offsets it does not list are reserved, 30_encoding.md R68). -/
def regAt (off : BitVec 8) : Reg :=
  match off.toNat with
  | 0x00 => .cmd
  | 0x04 => .status
  | 0x08 => .seqpos
  | 0x0C => .ctrl
  | 0x10 => .glevel
  | 0x14 => .miRows
  | 0x18 => .miCols
  | 0x1C => .miStride
  | 0x20 => .miBase
  | 0x24 => .frameFmt
  | 0x30 => .planeBase 0
  | 0x34 => .planeStride 0
  | 0x38 => .planeSs 0
  | 0x40 => .planeBase 1
  | 0x44 => .planeStride 1
  | 0x48 => .planeSs 1
  | 0x50 => .planeBase 2
  | 0x54 => .planeStride 2
  | 0x58 => .planeSs 2
  | _ => .reserved

/-- The code word of an instruction whose bits are `w`, in the format that `nbits`, the row's width in whole bytes, tells: one byte for `SEQ`
(4 bits), four for `CMD` (32), six for `BUS` (41). A bit above the format's width that is not 0 makes no word. -/
def codeWordOf (nbits w : Nat) : Option CodeWord :=
  if nbits ≤ 8 then (if w < 2 ^ 4 then some (.seq (BitVec.ofNat 4 w)) else none)
  else if nbits ≤ 32 then (if w < 2 ^ 32 then some (.cmd (BitVec.ofNat 32 w)) else none)
  else (if w < 2 ^ 41 then some (.bus (BitVec.ofNat 41 w)) else none)

/-- The instruction the decoder reads from an instruction whose bits are `w`, numbered as spec/opcode_table.json numbers them. -/
def decodeTableWord (nbits w : Nat) : Option Instr :=
  match codeWordOf nbits w with
  | none => none
  | some c =>
    match decode c with
    | .ok i => some i
    | .error _ => none

end Sys2Proof
end

