-- ==== Sys2Proof/Config.lean ====
section
/-! DEFINITION. What an implementation of DRFO fixes and the spec leaves OPEN (00_scope.md R4). Every OPEN parameter is an opaque constant: no
proof sees its value. The five that are plain data stand in `Params`, which a state carries, so that a statement about every state is a statement
about every choice of them (notes/assumptions/2.md). -/

namespace Sys2Proof

/-- An interval of byte addresses, both ends included. -/
structure AddrRange where
  first : Nat
  last  : Nat
  deriving DecidableEq, Repr

/-- The OPEN parameters of 00_scope.md R4 that are plain data. -/
structure Params where
  /-- `MAX_LEVEL - 4`; the type is the constraint `4 <= MAX_LEVEL <= 256` of 00_scope.md R5. -/
  maxLevelOver4 : Fin 253
  /-- `WBUF_CAP`: capacity, in samples, of each working plane buffer. -/
  wbufCap : Nat
  /-- `SKIP_CAP`: capacity, in entries, of the skip-flag array. -/
  skipCap : Nat
  /-- `DIR_BITS`: width of one direction-table entry. -/
  dirBits : Nat
  /-- `ValidAddr`: the byte addresses the memory port accepts, as a union of intervals. -/
  validAddr : List AddrRange
  deriving DecidableEq, Repr

/-- OPEN: `MAX_LEVEL - 4` (00_scope.md R4, R5). -/
opaque Config.maxLevelOver4 : Fin 253
/-- OPEN: `WBUF_CAP` (00_scope.md R4). -/
opaque Config.wbufCap : Nat
/-- OPEN: `SKIP_CAP` (00_scope.md R4). -/
opaque Config.skipCap : Nat
/-- OPEN: `DIR_BITS` (00_scope.md R4). -/
opaque Config.dirBits : Nat
/-- OPEN: first and last address of each interval of `ValidAddr` (00_scope.md R4, 20_memory.md R41). -/
opaque Config.validAddr : List (Nat × Nat)

/-- The parameters a machine has at reset: the opaque constants. -/
def Config.params : Params where
  maxLevelOver4 := Config.maxLevelOver4
  wbufCap := Config.wbufCap
  skipCap := Config.skipCap
  dirBits := Config.dirBits
  validAddr := Config.validAddr.map fun r => ⟨r.1, r.2⟩

/-- The argument record of the FilterKernel (45_kernel_interface.md R171), read as R172 reads it: the staged samples of one plane, the skip flags
of the superblock, the direction table and the scalars, and nothing else. -/
structure KArgs where
  /-- `S[r][c]`, the staged sample at row `r`, column `c`; 0 outside the staged extent, so that no other scratch entry is seen (R172). -/
  src        : Nat → Nat → Sample
  stride     : Nat
  originRow  : Nat
  originCol  : Nat
  planeH     : Nat
  planeW     : Nat
  nhb        : Nat
  nvb        : Nat
  sbc        : Nat
  sbr        : Nat
  nhsb       : Nat
  nvsb       : Nat
  ssX        : Nat
  ssY        : Nat
  /-- The direction table by row `by` and column `bx`; 0 outside 8 by 8. -/
  dir        : Nat → Nat → Nat
  pli        : Plane
  /-- `K[by][bx]`, the skip flag of unit (`by`, `bx`) of the superblock; false outside `nvb` by `nhb`. -/
  skip       : Nat → Nat → Bool
  miCols     : Nat
  threshold  : Nat
  coeffShift : Nat

/-- What the FilterKernel returns (45_kernel_interface.md R171, R173): the output samples, of which the `bh*nvb` by `bw*nhb` rectangle is used, and
the new direction table, of which the 8 by 8 entries are used. -/
structure KResult where
  out : Nat → Nat → Sample
  dir : Nat → Nat → Nat
  deriving Inhabited

/-- OPEN: the FilterKernel, a total deterministic function (00_scope.md R4, 45_kernel_interface.md R171, R174, R178). -/
opaque Config.filterKernel : KArgs → KResult

end Sys2Proof
end

