-- ==== Sys2Proof/Machine/State.lean ====
section
/-! DEFINITION. The state of DRFO (10_state.md R10 to R20, R30) as plain data, beside it the caller's system memory (20_memory.md R41), the
parameters of 00_scope.md R4 and the host's pending events (00_scope.md R8), the reasons a step can stop, and the state after reset. -/

namespace Sys2Proof.Machine

/-- `STATUS.STATE` (10_state.md R12, R25). -/
inductive CallState where
  | idle
  | busy
  | done
  | fail
  deriving DecidableEq, Repr

/-- The error codes that are ever written (60_exceptions.md R191; codes 3 to 15 never are). -/
inductive ErrCode where
  /-- Code 0, `NONE`. -/
  | noError
  /-- Code 1, `ALLOC`. -/
  | alloc
  /-- Code 2, `BUS`. -/
  | bus
  deriving DecidableEq, Repr

/-- The configuration registers of one plane (10_state.md R12). -/
structure PlaneCfg where
  base   : BitVec 32
  stride : BitVec 32
  ssX    : BitVec 1
  ssY    : BitVec 1
  deriving DecidableEq, Repr

/-- The configuration group, offsets 0x10 to 0x58 (10_state.md R12, R13). -/
structure Cfg where
  gl       : BitVec 8
  miRows   : BitVec 16
  miCols   : BitVec 16
  miStride : BitVec 16
  miBase   : BitVec 32
  bitDepth : BitVec 4
  hbd      : BitVec 1
  planes   : PerPlane PlaneCfg
  deriving DecidableEq, Repr

/-- The sequencer position, this machine's program counter (10_state.md R14). -/
structure Pos where
  op  : BitVec 4
  sbr : BitVec 13
  sbc : BitVec 13
  pli : Plane
  deriving DecidableEq, Repr

/-- The working registers (10_state.md R15). -/
structure Work where
  nplanes    : BitVec 2
  nvsb       : BitVec 14
  nhsb       : BitVec 14
  coeffShift : BitVec 3
  bw         : PerPlane (BitVec 4)
  bh         : PerPlane (BitVec 4)
  wstride    : BitVec 19
  nhb        : BitVec 4
  nvb        : BitVec 4
  level      : BitVec 8
  allSkip    : Bool
  threshold  : BitVec 16
  errPend    : ErrCode
  failop     : BitVec 4
  deriving DecidableEq, Repr

/-- System memory: the bytes that differ from what an unlisted address reads as, by rising address (20_memory.md R41, notes/assumptions/1.md). -/
abbrev Memory := List Host.Cell

/-- A scratch memory: the entries that hold a value, by rising index; an index not listed holds none (10_state.md R17, R18, R20). -/
abbrev Scratch (w : Nat) := List (Nat × BitVec w)

/-- Something the outside world does at one step (00_scope.md R8, 70_reset_and_hazards.md R220). -/
inductive Event where
  /-- A transaction on the register port (30_encoding.md R61). -/
  | bus (w : BitVec 41)
  /-- The host does nothing: the sequencer has its turn (70_reset_and_hazards.md R240). -/
  | pass
  /-- The host writes a byte of system memory by means of its own (00_scope.md R8, 20_memory.md R40). -/
  | poke (a : BitVec 32) (b : Byte)
  /-- The host reads a byte of system memory by means of its own (00_scope.md R8, 20_memory.md R40). -/
  | peek (a : BitVec 32)
  /-- Hardware reset; if it falls inside a `WRITEBACK`, `written` of its samples have been written (70_reset_and_hazards.md R221). -/
  | reset (written : Nat)
  deriving DecidableEq, Repr

/-- The state. -/
structure State where
  /-- The OPEN parameters of 00_scope.md R4; no step changes them. The model's own field (notes/assumptions/2.md). -/
  params     : Params
  /-- The configuration registers (R12). -/
  cfg        : Cfg
  /-- `CTRL.IRQ_EN` (R12). -/
  irqEn      : Bool
  /-- `STATUS.STATE` (R25). -/
  callState  : CallState
  /-- `STATUS.ILLCMD` (R27). -/
  illcmd     : Bool
  /-- `STATUS.ERR` (R26). -/
  err        : ErrCode
  /-- The sequencer position (R14). -/
  pc         : Pos
  /-- The working registers (R15). -/
  work       : Work
  /-- `WBUF[0..2]` (R17). -/
  wbuf       : PerPlane (Scratch 16)
  /-- `BSKIP` (R18). -/
  bskip      : Scratch 1
  /-- `DIR[by][bx]` at index `8 * by + bx` (R19); an entry is below `2 ^ DIR_BITS`. -/
  dir        : Vector Nat 64
  /-- `DST[r][c]` at index `64 * r + c` (R20). -/
  dst        : Scratch 16
  /-- `bskip_alloc` (R20). -/
  bskipAlloc : Bool
  /-- `wbuf_alloc[0..2]` (R20). -/
  wbufAlloc  : PerPlane Bool
  /-- The caller's system memory (20_memory.md R41). -/
  mem        : Memory
  /-- What the host does next, oldest first. The model's own field (notes/assumptions/4.md). -/
  inbox      : List Event
  /-- The value the host's last read returned, of a register or, zero-extended, of a byte of memory. The model's own field (notes/assumptions/5.md). -/
  rdata      : Word
  deriving DecidableEq, Repr

/-- Why the machine stops with a fault. The exceptions of 60_exceptions.md are NOT here: they are next states. Each of these is raised only in
states that no run from reset reaches, and each is safe: the model stops where nothing is known of the hardware. -/
inductive Fault where
  /-- Raised by `KERNEL` and `WRITEBACK`, and by a reset inside a `WRITEBACK`: a scratch entry that nothing has written would be read
  (93_implementation_defined.md U13: "fault"). Safe. -/
  | unwrittenScratch
  /-- Raised by `STAGE`, `FLATTEN` and `KERNEL`: an index at or beyond the capacity of the scratch memory would be written (10_state.md R17, R18,
  R20). Safe. -/
  | scratchBounds
  /-- Raised by `SBSETUP` and `NEXTSB`: a result does not fit its register (00_scope.md R6 shows that each fits where a call reaches it). Safe. -/
  | registerOverflow
  deriving DecidableEq, Repr

/-- Why a step has no meaning. -/
inductive Refusal where
  /-- Raised by no instruction: every row of the opcode table has its meaning. The name is for an arm of `exec` that had none. Safe. -/
  | notModelled (mnemonic : String)
  /-- Raised by `RD`, `WR` and the fetch of a transaction when the offset is not a multiple of 4 (20_memory.md R40: "a model refuses it"), and by the
  step in every state whose `pc.OP` is 0xE or 0xF, whatever is to happen next (30_encoding.md R65, 93_implementation_defined.md U10: "a state holding
  one has no step"), and by the sequencer's turn while `BUSY` at `IDLE`, which is not an operation (30_encoding.md R64). Safe. -/
  | undecodable (e : DecodeError)
  /-- Raised by `SKIPDET`: the superblock has no unit inside the frame (42_skip_detector.md R111, 93_implementation_defined.md U4: "refuse"). Safe. -/
  | emptySkipRegion
  /-- Raised by a host memory access while `BUSY` (20_memory.md R40, R54, 93_implementation_defined.md U17: "refuse the host program"). Unsafe where a
  host breaks its duty: what the hardware then does is left out (notes/assumptions/13.md). -/
  | hostMemoryWhileBusy
  deriving DecidableEq, Repr

/-- The configuration registers after reset: all 0 (R30). -/
def Cfg.reset : Cfg where
  gl := 0#8
  miRows := 0#16
  miCols := 0#16
  miStride := 0#16
  miBase := 0#32
  bitDepth := 0#4
  hbd := 0#1
  planes := ⟨⟨0#32, 0#32, 0#1, 0#1⟩, ⟨0#32, 0#32, 0#1, 0#1⟩, ⟨0#32, 0#32, 0#1, 0#1⟩⟩

/-- The working registers after reset: all 0 (R15, R30). -/
def Work.reset : Work where
  nplanes := 0#2
  nvsb := 0#14
  nhsb := 0#14
  coeffShift := 0#3
  bw := ⟨0#4, 0#4, 0#4⟩
  bh := ⟨0#4, 0#4, 0#4⟩
  wstride := 0#19
  nhb := 0#4
  nvb := 0#4
  level := 0#8
  allSkip := false
  threshold := 0#16
  errPend := .noError
  failop := 0#4

/-- The machine right after hardware reset (10_state.md R30, 70_reset_and_hazards.md R220). `dir` is 0 by choice, the other scratch memories hold
no value, memory lists nothing, no event is pending (notes/assumptions/1.md, 4.md to 7.md). -/
def State.reset : State where
  params := Config.params
  cfg := Cfg.reset
  irqEn := false
  callState := .idle
  illcmd := false
  err := .noError
  pc := ⟨0#4, 0#13, 0#13, 0⟩
  work := Work.reset
  wbuf := ⟨[], [], []⟩
  bskip := []
  dir := Vector.replicate 64 0
  dst := []
  bskipAlloc := false
  wbufAlloc := ⟨false, false, false⟩
  mem := []
  inbox := []
  rdata := 0#32

end Sys2Proof.Machine
end

