-- ==== Sys2Proof/Machine/Ops.lean ====
section
/-! DEFINITION. The named operations over memory, scratch and registers: the memory port (20_memory.md R41 to R43), scratch entries, per-plane
registers, setting the sequencer position (10_state.md R14), raising a fault (60_exceptions.md R195) and returning from one (R199). -/

namespace Sys2Proof

/-- The value for plane `p`. -/
def PerPlane.get {α : Type} (x : PerPlane α) (p : Plane) : α :=
  match p with
  | 0 => x.p0
  | 1 => x.p1
  | 2 => x.p2

/-- The same values but for plane `p`, which gets `v`. -/
def PerPlane.set {α : Type} (x : PerPlane α) (p : Plane) (v : α) : PerPlane α :=
  match p with
  | 0 => { x with p0 := v }
  | 1 => { x with p1 := v }
  | 2 => { x with p2 := v }

/-- The value `f p` for each plane `p`. -/
def PerPlane.ofFn {α : Type} (f : Plane → α) : PerPlane α := ⟨f 0, f 1, f 2⟩

end Sys2Proof

namespace Sys2Proof.Machine

/-! Lists of (key, value) pairs by rising key. -/

/-- The value listed for key `a`, if one is. -/
def assocGet {α : Type} : List (Nat × α) → Nat → Option α
  | [], _ => none
  | (k, v) :: rest, a => if k = a then some v else assocGet rest a

/-- The list with `v` at key `a`, its order kept. -/
def assocPut {α : Type} : List (Nat × α) → Nat → α → List (Nat × α)
  | [], a, v => [(a, v)]
  | (k, x) :: rest, a, v =>
    if a < k then (a, v) :: (k, x) :: rest
    else if a = k then (a, v) :: rest
    else (k, x) :: assocPut rest a v

/-- The list without key `a`. -/
def assocDrop {α : Type} (l : List (Nat × α)) (a : Nat) : List (Nat × α) :=
  l.filter fun e => !decide (e.1 = a)

/-- Keys strictly rise. -/
abbrev rising {α : Type} (l : List (Nat × α)) : Prop := l.Pairwise fun x y => x.1 < y.1

/-! System memory (20_memory.md R41). -/

/-- What a byte that nothing has written reads as (notes/assumptions/1.md): DESIGN CHOICE, unsafe. -/
def Memory.unlisted (_a : Nat) : Byte := 0#8

/-- The byte at address `a`. -/
def Memory.read (m : Memory) (a : Nat) : Byte :=
  match assocGet m a with
  | some b => b
  | none => Memory.unlisted a

/-- Memory with byte `b` at address `a`, in canonical form. -/
def Memory.write (m : Memory) (a : Nat) (b : Byte) : Memory :=
  if b = Memory.unlisted a then assocDrop m a else assocPut m a b

/-- The canonical form: addresses of the 32-bit space, strictly rising, none listed with the value an unlisted address reads as. -/
abbrev Memory.wf (m : Memory) : Prop :=
  rising m ∧ ∀ e ∈ m, e.1 < 2 ^ 32 ∧ e.2 ≠ Memory.unlisted e.1

/-- An acceptable address: below `2^32` and in `ValidAddr`; addresses are exact integers (20_memory.md R41). -/
def acceptable (p : Params) (a : Nat) : Bool :=
  decide (a < 2 ^ 32) && p.validAddr.any fun r => decide (r.first ≤ a) && decide (a ≤ r.last)

/-- `MemRead(a, 1)` (20_memory.md R42); `none` is `raise Fault(BUS)`. -/
def memRead1 (p : Params) (m : Memory) (a : Nat) : Option Byte :=
  if acceptable p a then some (m.read a) else none

/-- `MemRead(a, 2)`, little-endian (20_memory.md R42, R44); `none` is `raise Fault(BUS)`. -/
def memRead2 (p : Params) (m : Memory) (a : Nat) : Option (BitVec 16) :=
  if acceptable p a && acceptable p (a + 1) then some (m.read (a + 1) ++ m.read a) else none

/-- `MemWrite(a, 1, v)` (20_memory.md R43); `none` is `raise Fault(BUS)`. -/
def memWrite1 (p : Params) (m : Memory) (a : Nat) (v : Byte) : Option Memory :=
  if acceptable p a then some (m.write a v) else none

/-- `MemWrite(a, 2, v)`, both bytes checked before either is written (20_memory.md R43); `none` is `raise Fault(BUS)`. -/
def memWrite2 (p : Params) (m : Memory) (a : Nat) (v : BitVec 16) : Option Memory :=
  if acceptable p a && acceptable p (a + 1) then
    some ((m.write a (v.extractLsb' 0 8)).write (a + 1) (v.extractLsb' 8 8))
  else none

/-! Scratch memories (10_state.md R17, R18, R20). -/

/-- The value entry `i` holds, if it holds one. -/
def Scratch.get {w : Nat} (m : Scratch w) (i : Nat) : Option (BitVec w) := assocGet m i

/-- The scratch memory with `v` in entry `i`. -/
def Scratch.put {w : Nat} (m : Scratch w) (i : Nat) (v : BitVec w) : Scratch w := assocPut m i v

/-- Whether entry `i` holds a value. -/
def Scratch.holds {w : Nat} (m : Scratch w) (i : Nat) : Bool := (m.get i).isSome

/-! The sequencer position, raising a fault and returning from one. -/

/-- `pc <- (op, sbr, sbc, pli)` (00_scope.md R6). -/
def State.goTo (s : State) (op : BitVec 4) (sbr sbc : BitVec 13) (pli : Plane) : State :=
  { s with pc := ⟨op, sbr, sbc, pli⟩ }

/-- `pc.OP <- op`, the position parts unchanged. -/
def State.goOn (s : State) (op : BitVec 4) : State := { s with pc := { s.pc with op := op } }

/-- `raise Fault(code)` inside operation `op` (60_exceptions.md R195): the one way a fault is taken. -/
def raiseFault (code : ErrCode) (op : BitVec 4) (s : State) : State :=
  { s with
    work := { s.work with errPend := code, failop := op }
    pc := { s.pc with op := opTeardown } }

/-- Set `STATUS.ILLCMD` and change nothing else (40_host_commands.md R86). -/
def setIllcmd (s : State) : State := { s with illcmd := true }

/-- `CMD.ACK`, the return from a failure and the acknowledgement of a completed call (40_host_commands.md R85, 60_exceptions.md R199). -/
def acknowledge (s : State) : State :=
  match s.callState with
  | .done => { s with callState := .idle, illcmd := false }
  | .fail => { s with callState := .idle, illcmd := false }
  | .idle => { s with illcmd := false }
  | .busy => setIllcmd s

/-- `CMD.START` (40_host_commands.md R84). -/
def startCall (s : State) : State :=
  match s.callState with
  | .idle =>
    { s with
      callState := .busy
      err := .noError
      work := { s.work with errPend := .noError, failop := 0#4 }
      pc := ⟨opPlaneact, 0#13, 0#13, 0⟩ }
  | .busy => setIllcmd s
  | .done => setIllcmd s
  | .fail => setIllcmd s

/-- Hardware reset (10_state.md R30, 70_reset_and_hazards.md R220): every register at its reset value, the parameters, system memory and the
host's pending events as they are; `mem` is what system memory holds at that moment. -/
def hardReset (mem : Memory) (s : State) : State :=
  { State.reset with params := s.params, mem := mem, inbox := s.inbox }

end Sys2Proof.Machine
end

