-- ==== Sys2Proof/Machine/Operands.lean ====
section
/-! DEFINITION. The operands of the sequencer operations (30_encoding.md R67): mode-info entries and samples in memory (20_memory.md R46 to R49), the
LevelMapper (41_level_mapper.md R101), the SkipDetector (42_skip_detector.md R111), the values PLANEACT derives (43_frame_setup.md R121, R129), the
threshold (44_superblock_loop.md R143), the argument record of the FilterKernel (R146), and the row-major loops over them. -/

namespace Sys2Proof.Machine

/-! Notation of 00_scope.md R6 and the fixed parameters of R4. -/

/-- `MAX_MIB_SIZE`: mode-info units per superblock side (00_scope.md R4). -/
def maxMibSize : Nat := 8

/-- `ceil_div(a, b)` (00_scope.md R6). -/
def ceilDiv (a b : Nat) : Nat := (a + b - 1) / b

/-- `clamp(x, lo, hi)` (00_scope.md R6). -/
def clamp (x lo hi : Nat) : Nat := if x < lo then lo else if x > hi then hi else x

/-- The positions (row, column) of an `h` by `w` rectangle in row-major order. -/
def rowMajor (h w : Nat) : List (Nat × Nat) :=
  (List.range h).flatMap fun r => (List.range w).map fun c => (r, c)

/-- `MAX_LEVEL` (00_scope.md R4, R5). -/
def maxLevel (p : Params) : Nat := p.maxLevelOver4.val + 4

/-! The mode-info grid (20_memory.md R46, 30_encoding.md R66). -/

/-- `MiAddr(r, c)`. -/
def miAddr (c : Cfg) (row col : Nat) : Nat := c.miBase.toNat + row * c.miStride.toNat + col

/-- The mode-info entry at grid row `row`, column `col`; `none` is `raise Fault(BUS)`. -/
def miRead (p : Params) (c : Cfg) (m : Memory) (row col : Nat) : Option Byte := memRead1 p m (miAddr c row col)

/-- The field `skip` of an entry. -/
def entrySkip (e : Byte) : BitVec 1 := e.extractLsb' 0 1

/-- The field `gain_index` of an entry. -/
def entryGain (e : Byte) : BitVec 2 := e.extractLsb' 1 2

/-- `MI(r, c).skip`. -/
def miSkip (p : Params) (c : Cfg) (m : Memory) (row col : Nat) : Option (BitVec 1) :=
  (miRead p c m row col).map entrySkip

/-! Samples (20_memory.md R47 to R49). -/

/-- `sbytes`: bytes of a sample in memory. -/
def sbytes (c : Cfg) : Nat := 1 + c.hbd.toNat

/-- `SampleAddr(p, r, c)`. -/
def sampleAddr (c : Cfg) (p : Plane) (row col : Nat) : Nat :=
  (c.planes.get p).base.toNat + (row * (c.planes.get p).stride.toNat + col) * sbytes c

/-- `ReadSample(p, r, c)` (20_memory.md R48); `none` is `raise Fault(BUS)`. -/
def readSample (prm : Params) (c : Cfg) (m : Memory) (p : Plane) (row col : Nat) : Option Sample :=
  if c.hbd = 0#1 then (memRead1 prm m (sampleAddr c p row col)).map fun b => b.setWidth 16
  else memRead2 prm m (sampleAddr c p row col)

/-- `WriteSample(p, r, c, v)` (20_memory.md R49); `none` is `raise Fault(BUS)`. -/
def writeSample (prm : Params) (c : Cfg) (m : Memory) (p : Plane) (row col : Nat) (v : Sample) : Option Memory :=
  if c.hbd = 0#1 then memWrite1 prm m (sampleAddr c p row col) (v.extractLsb' 0 8)
  else memWrite2 prm m (sampleAddr c p row col) v

/-! The LevelMapper (41_level_mapper.md R101). -/

/-- `GAINS[gi]`. -/
def gain (gi : BitVec 2) : Nat :=
  match gi.toNat with
  | 0 => 0
  | 1 => 11
  | 2 => 16
  | _ => 22

/-- `LevelMapper(gl, gi)` for a given `MAX_LEVEL`. A gain index above 3 cannot be expressed (R105). -/
def levelMapper (maxLvl gl : Nat) (gi : BitVec 2) : Nat :=
  if gl = 0 then 0 else clamp ((gl * gain gi + 8) >>> 4) gi.toNat (maxLvl - 1)

/-! What PLANEACT derives (43_frame_setup.md R121, R129). -/

/-- The number of active planes (43_frame_setup.md R121, R122, 90_conflicts.md C1). -/
def activePlanes (c : Cfg) : BitVec 2 :=
  let q := c.planes.p1
  let r := c.planes.p2
  if q.ssX = q.ssY ∧ r.ssX = r.ssY ∧ q.ssX = r.ssX ∧ q.ssY = r.ssY then 3#2 else 1#2

/-- Samples a mode-info unit spans in a direction with subsampling factor `ss`. -/
def unitSpan (ss : BitVec 1) : BitVec 4 := BitVec.ofNat 4 (8 >>> ss.toNat)

/-- `nvsb` or `nhsb`: superblocks covering `n` mode-info units. -/
def superblocks (n : BitVec 16) : BitVec 14 := BitVec.ofNat 14 (ceilDiv n.toNat maxMibSize)

/-- `coeff_shift = max(bit_depth - 8, 0)`. -/
def coeffShiftOf (depth : BitVec 4) : BitVec 3 := BitVec.ofNat 3 (depth.toNat - 8)

/-- `wstride = 8 * mi_cols`. -/
def workStride (c : Cfg) : BitVec 19 := BitVec.ofNat 19 (8 * c.miCols.toNat)

/-! What ALLOC compares (43_frame_setup.md R123). -/

/-- `need_skip`: entries of the skip-flag array. -/
def needSkip (c : Cfg) : Nat := c.miRows.toNat * c.miCols.toNat

/-- `need_wbuf`: samples of each working plane buffer. -/
def needWbuf (c : Cfg) : Nat := c.miRows.toNat * c.miCols.toNat * 64

/-- The request of a call exceeds a capacity. -/
def overCapacity (p : Params) (c : Cfg) : Bool := decide (needSkip c > p.skipCap) || decide (needWbuf c > p.wbufCap)

/-- The plane after `pli` among the first `n`, if there is one. -/
def nextPlane (pli : Plane) (n : BitVec 2) : Option Plane :=
  if h : pli.val + 1 < n.toNat then some ⟨pli.val + 1, Nat.lt_of_lt_of_le h (Nat.le_of_lt_succ n.isLt)⟩ else none

/-! Loops. -/

/-- Every index `r * stride + c` of an `h` by `w` rectangle lies below the capacity `cap`. -/
def fitsScratch (h w stride cap : Nat) : Bool :=
  decide (h = 0) || decide (w = 0) || decide ((h - 1) * stride + (w - 1) < cap)

/-- Copy `read r c` into entry `index r c` for each position in order, up to the first that raises a fault; the flag says whether none did. -/
def gather {w : Nat} (read : Nat → Nat → Option (BitVec w)) (index : Nat → Nat → Nat) :
    List (Nat × Nat) → Scratch w → Scratch w × Bool
  | [], m => (m, true)
  | (r, c) :: rest, m =>
    match read r c with
    | none => (m, false)
    | some v => gather read index rest (m.put (index r c) v)

/-- Write `value r c` with `write` for each position in order, up to the first that raises a fault; the flag says whether none did. -/
def scatter (write : Memory → Nat → Nat → Option Memory) : List (Nat × Nat) → Memory → Memory × Bool
  | [], m => (m, true)
  | (r, c) :: rest, m =>
    match write m r c with
    | none => (m, false)
    | some m' => scatter write rest m'

/-- The conjunction of the skip flags at the positions, every one of them read; `none` is `raise Fault(BUS)` (42_skip_detector.md R111). -/
def skipScan (read : Nat → Nat → Option (BitVec 1)) : List (Nat × Nat) → Option Bool
  | [] => some true
  | (r, c) :: rest =>
    match read r c, skipScan read rest with
    | some k, some b => some (decide (k = 1#1) && b)
    | _, _ => none

/-- `SkipDetector(origin_row, origin_col)` (42_skip_detector.md R111); `none` is `raise Fault(BUS)`. -/
def skipDetector (p : Params) (c : Cfg) (m : Memory) (row col : Nat) : Option Bool :=
  skipScan (fun r k => miSkip p c m (row + r) (col + k))
    (rowMajor (min (c.miRows.toNat - row) maxMibSize) (min (c.miCols.toNat - col) maxMibSize))

/-! The superblock and its planes (44_superblock_loop.md). -/

/-- First mode-info row of the superblock. -/
def sbRow (s : State) : Nat := maxMibSize * s.pc.sbr.toNat

/-- First mode-info column of the superblock. -/
def sbCol (s : State) : Nat := maxMibSize * s.pc.sbc.toNat

/-- `bh[p]` as a number. -/
def unitH (s : State) (p : Plane) : Nat := (s.work.bh.get p).toNat

/-- `bw[p]` as a number. -/
def unitW (s : State) (p : Plane) : Nat := (s.work.bw.get p).toNat

/-- `plane_h = bh[p] * mi_rows`: rows of the staged extent (10_state.md R17). -/
def planeH (s : State) (p : Plane) : Nat := unitH s p * s.cfg.miRows.toNat

/-- `plane_w = bw[p] * mi_cols`: columns of the staged extent (10_state.md R17). -/
def planeW (s : State) (p : Plane) : Nat := unitW s p * s.cfg.miCols.toNat

/-- Rows of the superblock's rectangle in plane `p`, `bh[p] * nvb`. -/
def rectH (s : State) (p : Plane) : Nat := unitH s p * s.work.nvb.toNat

/-- Columns of the superblock's rectangle in plane `p`, `bw[p] * nhb`. -/
def rectW (s : State) (p : Plane) : Nat := unitW s p * s.work.nhb.toNat

/-- First row of the rectangle in plane `p`, `bh[p] * MAX_MIB_SIZE * sbr`. -/
def rectRow (s : State) (p : Plane) : Nat := unitH s p * maxMibSize * s.pc.sbr.toNat

/-- First column of the rectangle in plane `p`, `bw[p] * MAX_MIB_SIZE * sbc`. -/
def rectCol (s : State) (p : Plane) : Nat := unitW s p * maxMibSize * s.pc.sbc.toNat

/-- Index of sample (`r`, `c`) in a working plane buffer (10_state.md R17). -/
def wbufIndex (s : State) (r c : Nat) : Nat := r * s.work.wstride.toNat + c

/-- Index of grid entry (`r`, `c`) in the skip-flag array (10_state.md R18). -/
def bskipIndex (s : State) (r c : Nat) : Nat := r * s.cfg.miCols.toNat + c

/-- Index of `DST[r][c]` (10_state.md R20). -/
def dstIndex (r c : Nat) : Nat := 64 * r + c

/-- The threshold before it is stored (44_superblock_loop.md R143): the shift by 3 acts on the unshifted level, the shift by `coeff_shift` last. -/
def thresholdOf (pli : Plane) (level coeffShift : Nat) : Nat :=
  if pli = 0 then level <<< coeffShift else ((level * 5 + 4) >>> 3) <<< coeffShift

/-- Every staged sample of plane `p` holds a value. -/
def stagedReady (s : State) (p : Plane) : Bool :=
  (rowMajor (planeH s p) (planeW s p)).all fun q => (s.wbuf.get p).holds (wbufIndex s q.1 q.2)

/-- Every skip flag of the superblock holds a value. -/
def skipReady (s : State) : Bool :=
  (rowMajor s.work.nvb.toNat s.work.nhb.toNat).all fun q => s.bskip.holds (bskipIndex s (sbRow s + q.1) (sbCol s + q.2))

/-- Every entry of `DST` that a `WRITEBACK` of plane `p` reads holds a value. -/
def dstReady (s : State) (p : Plane) : Bool :=
  (rowMajor (rectH s p) (rectW s p)).all fun q => s.dst.holds (dstIndex q.1 q.2)

/-- The argument record `KERNEL` builds for plane `p` (44_superblock_loop.md R146, 45_kernel_interface.md R171, R172). -/
def kernelArgs (s : State) (p : Plane) : KArgs where
  src r c :=
    if r < planeH s p ∧ c < planeW s p then ((s.wbuf.get p).get (wbufIndex s r c)).getD 0#16 else 0#16
  stride := s.work.wstride.toNat
  originRow := rectRow s p
  originCol := rectCol s p
  planeH := planeH s p
  planeW := planeW s p
  nhb := s.work.nhb.toNat
  nvb := s.work.nvb.toNat
  sbc := s.pc.sbc.toNat
  sbr := s.pc.sbr.toNat
  nhsb := s.work.nhsb.toNat
  nvsb := s.work.nvsb.toNat
  ssX := (s.cfg.planes.get p).ssX.toNat
  ssY := (s.cfg.planes.get p).ssY.toNat
  dir r c := if h : r < 8 ∧ c < 8 then s.dir[8 * r + c] else 0
  pli := p
  skip r c :=
    if r < s.work.nvb.toNat ∧ c < s.work.nhb.toNat then
      decide (s.bskip.get (bskipIndex s (sbRow s + r) (sbCol s + c)) = some 1#1)
    else false
  miCols := s.cfg.miCols.toNat
  threshold := s.work.threshold.toNat
  coeffShift := s.work.coeffShift.toNat

/-- `DST` after the kernel's output has been written over the rectangle of plane `p` (44_superblock_loop.md R146). -/
def storeOut (s : State) (p : Plane) (out : Nat → Nat → Sample) : Scratch 16 :=
  (rowMajor (rectH s p) (rectW s p)).foldl (fun m q => m.put (dstIndex q.1 q.2) (out q.1 q.2)) s.dst

/-- The direction table the kernel returned, each entry `DIR_BITS` wide (10_state.md R19, 44_superblock_loop.md R146). -/
def storeDir (prm : Params) (dir : Nat → Nat → Nat) : Vector Nat 64 :=
  Vector.ofFn fun i => dir (i.val / 8) (i.val % 8) % 2 ^ prm.dirBits

/-- One write of a `WRITEBACK` of plane `p`: `DST[r][c]` into the frame (44_superblock_loop.md R148). -/
def writeDst (s : State) (p : Plane) (m : Memory) (r c : Nat) : Option Memory :=
  writeSample s.params s.cfg m p (rectRow s p + r) (rectCol s p + c) ((s.dst.get (dstIndex r c)).getD 0#16)

/-- The positions a `WRITEBACK` writes, in its order. -/
def rectPositions (s : State) : List (Nat × Nat) := rowMajor (rectH s s.pc.pli) (rectW s s.pc.pli)

/-- System memory after a `WRITEBACK` has come through the positions `l`, and whether each write was accepted (44_superblock_loop.md R148). -/
def writeBack (s : State) (l : List (Nat × Nat)) : Memory × Bool := scatter (writeDst s s.pc.pli) l s.mem

end Sys2Proof.Machine
end

