-- ==== Sys2Proof/Machine/FrameSetup.lean ====
section
/-! DEFINITION. The frame set-up operations: PLANEACT, ALLOC, STAGE, FLATTEN (43_frame_setup.md). -/

namespace Sys2Proof.Machine

/-- `PLANEACT` (43_frame_setup.md R121). -/
def execPlaneact (s : State) : Host.Outcome State Fault Refusal :=
  .next
    ({ s with
        work :=
          { s.work with
            nplanes := activePlanes s.cfg
            nvsb := superblocks s.cfg.miRows
            nhsb := superblocks s.cfg.miCols
            coeffShift := coeffShiftOf s.cfg.bitDepth
            bw := PerPlane.ofFn fun p => unitSpan (s.cfg.planes.get p).ssX
            bh := PerPlane.ofFn fun p => unitSpan (s.cfg.planes.get p).ssY
            wstride := workStride s.cfg } }.goTo opAlloc 0#13 0#13 0)

/-- `ALLOC` (43_frame_setup.md R123). -/
def execAlloc (s : State) : Host.Outcome State Fault Refusal :=
  .next
    (if overCapacity s.params s.cfg then raiseFault .alloc opAlloc s
     else
      { s with
        bskipAlloc := true
        wbufAlloc := PerPlane.ofFn fun p => decide (p.val < s.work.nplanes.toNat) || s.wbufAlloc.get p }.goTo
          opStage 0#13 0#13 0)

/-- Where `STAGE` goes when every sample was read (43_frame_setup.md R125). -/
def afterStage (s : State) : State :=
  match nextPlane s.pc.pli s.work.nplanes with
  | some q => s.goTo opStage 0#13 0#13 q
  | none => s.goTo opFlatten 0#13 0#13 s.pc.pli

/-- The working buffer of plane `p` after staging it, and whether every sample was read (43_frame_setup.md R125). -/
def stagePlane (s : State) (p : Plane) : Scratch 16 × Bool :=
  gather (fun r c => readSample s.params s.cfg s.mem p r c) (wbufIndex s) (rowMajor (planeH s p) (planeW s p)) (s.wbuf.get p)

/-- `STAGE` (43_frame_setup.md R125). -/
def execStage (s : State) : Host.Outcome State Fault Refusal :=
  if fitsScratch (planeH s s.pc.pli) (planeW s s.pc.pli) s.work.wstride.toNat s.params.wbufCap then
    .next
      (let staged := { s with wbuf := s.wbuf.set s.pc.pli (stagePlane s s.pc.pli).1 }
       if (stagePlane s s.pc.pli).2 then afterStage staged else raiseFault .bus opStage staged)
  else .fault .scratchBounds

/-- The skip-flag array after flattening the grid, and whether every entry was read (43_frame_setup.md R127). -/
def flattenGrid (s : State) : Scratch 1 × Bool :=
  gather (fun r c => miSkip s.params s.cfg s.mem r c) (bskipIndex s) (rowMajor s.cfg.miRows.toNat s.cfg.miCols.toNat) s.bskip

/-- Where `FLATTEN` goes when every entry was read (43_frame_setup.md R127, R128). -/
def afterFlatten (s : State) : State :=
  if s.work.nvsb = 0#14 ∨ s.work.nhsb = 0#14 then s.goTo opTeardown 0#13 0#13 s.pc.pli
  else s.goTo opSbsetup 0#13 0#13 0

/-- `FLATTEN` (43_frame_setup.md R127). -/
def execFlatten (s : State) : Host.Outcome State Fault Refusal :=
  if fitsScratch s.cfg.miRows.toNat s.cfg.miCols.toNat s.cfg.miCols.toNat s.params.skipCap then
    .next
      (let flat := { s with bskip := (flattenGrid s).1 }
       if (flattenGrid s).2 then afterFlatten flat else raiseFault .bus opFlatten flat)
  else .fault .scratchBounds

end Sys2Proof.Machine
end

