-- ==== Sys2Proof/Machine/Flags.lean ====
section
/-! DEFINITION. Flags and the register views computed from the state: `STATUS`, `SEQPOS` (10_state.md R12, R28, 40_host_commands.md R80), `irq`
(10_state.md R29), the read value of every register, and the fields a write to a configuration register keeps (10_state.md R12, 40_host_commands.md
R81). -/

namespace Sys2Proof.Machine

/-- The value of `STATUS.STATE` (10_state.md R12). -/
def CallState.code : CallState → BitVec 2
  | .idle => 0#2
  | .busy => 1#2
  | .done => 2#2
  | .fail => 3#2

/-- The value of `STATUS.ERR` (60_exceptions.md R191). -/
def ErrCode.code : ErrCode → BitVec 4
  | .noError => 0#4
  | .alloc => 1#4
  | .bus => 2#4

/-- `STATUS.OP`: `pc.OP` while `BUSY`, `failop` in `FAIL`, 0 otherwise (40_host_commands.md R80). -/
def statusOp (s : State) : BitVec 4 :=
  match s.callState with
  | .busy => s.pc.op
  | .fail => s.work.failop
  | .idle => 0#4
  | .done => 0#4

/-- The `STATUS` register: `NPLANES` [13:12], `OP` [11:8], `ERR` [7:4], `ILLCMD` [2], `STATE` [1:0] (10_state.md R12). -/
def statusWord (s : State) : Word :=
  0#18 ++ s.work.nplanes ++ statusOp s ++ s.err.code ++ 0#1 ++ BitVec.ofBool s.illcmd ++ s.callState.code

/-- The `SEQPOS` register: `PLI` [31:30], `SBR` [28:16], `SBC` [12:0] (10_state.md R12). -/
def seqposWord (s : State) : Word :=
  BitVec.ofNat 2 s.pc.pli.val ++ 0#1 ++ s.pc.sbr ++ 0#3 ++ s.pc.sbc

/-- The interrupt output, a level (10_state.md R29, 60_exceptions.md R201). -/
def State.irq (s : State) : Bool :=
  match s.callState with
  | .done => s.irqEn
  | .fail => s.irqEn
  | .idle => false
  | .busy => false

/-- The value a read of a register returns (40_host_commands.md R80, 10_state.md R12): bits no field covers read 0. -/
def readReg (s : State) : Reg → Word
  | .cmd => 0#32
  | .status => statusWord s
  | .seqpos => seqposWord s
  | .ctrl => 0#31 ++ BitVec.ofBool s.irqEn
  | .glevel => s.cfg.gl.setWidth 32
  | .miRows => s.cfg.miRows.setWidth 32
  | .miCols => s.cfg.miCols.setWidth 32
  | .miStride => s.cfg.miStride.setWidth 32
  | .miBase => s.cfg.miBase
  | .frameFmt => 0#23 ++ s.cfg.hbd ++ 0#4 ++ s.cfg.bitDepth
  | .planeBase p => (s.cfg.planes.get p).base
  | .planeStride p => (s.cfg.planes.get p).stride
  | .planeSs p => 0#30 ++ (s.cfg.planes.get p).ssY ++ (s.cfg.planes.get p).ssX
  | .reserved => 0#32

/-- The configuration after `data` is written to a register: each listed field takes its bits, and a register outside the configuration group
changes nothing (10_state.md R12, 40_host_commands.md R81). -/
def Cfg.writeReg (c : Cfg) (r : Reg) (data : Word) : Cfg :=
  match r with
  | .cmd => c
  | .status => c
  | .seqpos => c
  | .ctrl => c
  | .glevel => { c with gl := data.extractLsb' 0 8 }
  | .miRows => { c with miRows := data.extractLsb' 0 16 }
  | .miCols => { c with miCols := data.extractLsb' 0 16 }
  | .miStride => { c with miStride := data.extractLsb' 0 16 }
  | .miBase => { c with miBase := data }
  | .frameFmt => { c with bitDepth := data.extractLsb' 0 4, hbd := data.extractLsb' 8 1 }
  | .planeBase p => { c with planes := c.planes.set p { c.planes.get p with base := data } }
  | .planeStride p => { c with planes := c.planes.set p { c.planes.get p with stride := data } }
  | .planeSs p =>
    { c with planes := c.planes.set p { c.planes.get p with ssX := data.extractLsb' 0 1, ssY := data.extractLsb' 1 1 } }
  | .reserved => c

/-- A write of `data` to a configuration register: dropped while `BUSY` (40_host_commands.md R81, R82). -/
def writeConfig (r : Reg) (data : Word) (s : State) : State :=
  if s.callState = .busy then s else { s with cfg := s.cfg.writeReg r data }

end Sys2Proof.Machine
end

