-- ==== Sys2Proof/Machine/HostPort.lean ====
section
/-! DEFINITION. The host transactions and commands: RD, WR, CMD.NOP, CMD.START, CMD.ACK (40_host_commands.md R80 to R86). -/

namespace Sys2Proof.Machine

/-- A data word written to `CMD` runs as a command; every word but 0, 1, 2 is reserved and sets `ILLCMD` (40_host_commands.md R81, R83 to R86). -/
def runCommand (data : Word) (s : State) : State :=
  if data = 0#32 then s
  else if data = 1#32 then startCall s
  else if data = 2#32 then acknowledge s
  else setIllcmd s

/-- What a write of `data` to register `r` does (40_host_commands.md R81). -/
def writePort (r : Reg) (data : Word) (s : State) : State :=
  match r with
  | .cmd => runCommand data s
  | .ctrl => { s with irqEn := data.getLsbD 0 }
  | .status => s
  | .seqpos => s
  | .reserved => s
  | .glevel => writeConfig .glevel data s
  | .miRows => writeConfig .miRows data s
  | .miCols => writeConfig .miCols data s
  | .miStride => writeConfig .miStride data s
  | .miBase => writeConfig .miBase data s
  | .frameFmt => writeConfig .frameFmt data s
  | .planeBase p => writeConfig (.planeBase p) data s
  | .planeStride p => writeConfig (.planeStride p) data s
  | .planeSs p => writeConfig (.planeSs p) data s

/-- `RD` (40_host_commands.md R80). The value read stands in `rdata`; nothing else changes. -/
def execRd (off : BitVec 8) (s : State) : Host.Outcome State Fault Refusal :=
  if offsetAligned off then .next { s with rdata := readReg s (regAt off) } else .refused (.undecodable .misalignedOffset)

/-- `WR` (40_host_commands.md R81). -/
def execWr (off : BitVec 8) (data : Word) (s : State) : Host.Outcome State Fault Refusal :=
  if offsetAligned off then .next (writePort (regAt off) data s) else .refused (.undecodable .misalignedOffset)

/-- `CMD.NOP` (40_host_commands.md R83). -/
def execCmdNop (s : State) : Host.Outcome State Fault Refusal := .next s

/-- `CMD.START` (40_host_commands.md R84). -/
def execCmdStart (s : State) : Host.Outcome State Fault Refusal := .next (startCall s)

/-- `CMD.ACK` (40_host_commands.md R85). -/
def execCmdAck (s : State) : Host.Outcome State Fault Refusal := .next (acknowledge s)

end Sys2Proof.Machine
end

