-- ==== Sys2Proof/Machine/PlaneLoop.lean ====
section
/-! DEFINITION. The plane loop of one superblock: THRESH, KERNEL, WRITEBACK, NEXTPL (44_superblock_loop.md R143 to R150). -/

namespace Sys2Proof.Machine

/-- `THRESH` (44_superblock_loop.md R143). -/
def execThresh (s : State) : Host.Outcome State Fault Refusal :=
  .next
    (let t := thresholdOf s.pc.pli s.work.level.toNat s.work.coeffShift.toNat
     { s with work := { s.work with threshold := BitVec.ofNat 16 t } }.goOn (if t = 0 then opNextpl else opKernel))

/-- `KERNEL` for a given FilterKernel `k` (44_superblock_loop.md R146, 45_kernel_interface.md R171). -/
def kernelWith (k : KArgs → KResult) (s : State) : Host.Outcome State Fault Refusal :=
  if rectH s s.pc.pli ≤ 64 ∧ rectW s s.pc.pli ≤ 64 then
    if stagedReady s s.pc.pli && skipReady s then
      .next
        ({ s with
            dst := storeOut s s.pc.pli (k (kernelArgs s s.pc.pli)).out
            dir := storeDir s.params (k (kernelArgs s s.pc.pli)).dir }.goOn opWriteback)
    else .fault .unwrittenScratch
  else .fault .scratchBounds

/-- `KERNEL` (44_superblock_loop.md R146) with the machine's FilterKernel. -/
def execKernel (s : State) : Host.Outcome State Fault Refusal := kernelWith Config.filterKernel s

/-- `WRITEBACK` (44_superblock_loop.md R148). -/
def execWriteback (s : State) : Host.Outcome State Fault Refusal :=
  if dstReady s s.pc.pli then
    .next
      (let written := { s with mem := (writeBack s (rectPositions s)).1 }
       if (writeBack s (rectPositions s)).2 then written.goOn opNextpl else raiseFault .bus opWriteback written)
  else .fault .unwrittenScratch

/-- `NEXTPL` (44_superblock_loop.md R150). -/
def execNextpl (s : State) : Host.Outcome State Fault Refusal :=
  .next
    (match nextPlane s.pc.pli s.work.nplanes with
     | some q => s.goTo opThresh s.pc.sbr s.pc.sbc q
     | none => s.goOn opNextsb)

end Sys2Proof.Machine
end

