-- ==== Sys2Proof/Machine/Superblock.lean ====
section
/-! DEFINITION. The superblock loop: SBSETUP, NEXTSB, TEARDOWN (44_superblock_loop.md), LEVEL (41_level_mapper.md), SKIPDET (42_skip_detector.md). -/

namespace Sys2Proof.Machine

/-- `SBSETUP` (44_superblock_loop.md R141). The spec subtracts without wrap; outside the frame the result would be negative. -/
def execSbsetup (s : State) : Host.Outcome State Fault Refusal :=
  if sbCol s ≤ s.cfg.miCols.toNat ∧ sbRow s ≤ s.cfg.miRows.toNat then
    .next
      ({ s with
          work :=
            { s.work with
              nhb := BitVec.ofNat 4 (min maxMibSize (s.cfg.miCols.toNat - sbCol s))
              nvb := BitVec.ofNat 4 (min maxMibSize (s.cfg.miRows.toNat - sbRow s)) } }.goOn opLevel)
  else .fault .registerOverflow

/-- `LEVEL` (41_level_mapper.md R102). -/
def execLevel (s : State) : Host.Outcome State Fault Refusal :=
  .next
    (match miRead s.params s.cfg s.mem (sbRow s) (sbCol s) with
     | none => raiseFault .bus opLevel s
     | some e =>
       let lvl := levelMapper (maxLevel s.params) s.cfg.gl.toNat (entryGain e)
       { s with work := { s.work with level := BitVec.ofNat 8 lvl } }.goOn (if lvl = 0 then opNextsb else opSkipdet))

/-- `SKIPDET` (42_skip_detector.md R112). An empty region is not a defined input (R111). -/
def execSkipdet (s : State) : Host.Outcome State Fault Refusal :=
  if sbRow s < s.cfg.miRows.toNat ∧ sbCol s < s.cfg.miCols.toNat then
    .next
      (match skipDetector s.params s.cfg s.mem (sbRow s) (sbCol s) with
       | none => raiseFault .bus opSkipdet s
       | some true => { s with work := { s.work with allSkip := true } }.goOn opNextsb
       | some false =>
         { s with work := { s.work with allSkip := false }, dir := Vector.replicate 64 0 }.goTo
           opThresh s.pc.sbr s.pc.sbc 0)
  else .refused .emptySkipRegion

/-- `NEXTSB` (44_superblock_loop.md R152). -/
def execNextsb (s : State) : Host.Outcome State Fault Refusal :=
  if s.pc.sbc.toNat + 1 < s.work.nhsb.toNat then
    if s.pc.sbc.toNat + 1 < 2 ^ 13 then .next (s.goTo opSbsetup s.pc.sbr (s.pc.sbc + 1#13) 0)
    else .fault .registerOverflow
  else if s.pc.sbr.toNat + 1 < s.work.nvsb.toNat then
    if s.pc.sbr.toNat + 1 < 2 ^ 13 then .next (s.goTo opSbsetup (s.pc.sbr + 1#13) 0#13 0)
    else .fault .registerOverflow
  else .next (s.goOn opTeardown)

/-- `TEARDOWN` (44_superblock_loop.md R156). -/
def execTeardown (s : State) : Host.Outcome State Fault Refusal :=
  .next
    ({ s with
        wbufAlloc := ⟨false, false, false⟩
        bskipAlloc := false
        err := s.work.errPend
        callState := if s.work.errPend = ErrCode.noError then .done else .fail }.goOn opIdle)

end Sys2Proof.Machine
end

