-- ==== Sys2Proof/Machine/Dispatch.lean ====
section
/-! DEFINITION. The dispatch: one arm per constructor of Instr, each one direct call of its meaning. -/

namespace Sys2Proof.Machine

def exec (i : Instr) (s : State) : Host.Outcome State Fault Refusal :=
  match i with
  | .rd off => Sys2Proof.Machine.execRd off s
  | .wr off data => Sys2Proof.Machine.execWr off data s
  | .cmdNop => Sys2Proof.Machine.execCmdNop s
  | .cmdStart => Sys2Proof.Machine.execCmdStart s
  | .cmdAck => Sys2Proof.Machine.execCmdAck s
  | .planeact => Sys2Proof.Machine.execPlaneact s
  | .alloc => Sys2Proof.Machine.execAlloc s
  | .stage => Sys2Proof.Machine.execStage s
  | .flatten => Sys2Proof.Machine.execFlatten s
  | .sbsetup => Sys2Proof.Machine.execSbsetup s
  | .level => Sys2Proof.Machine.execLevel s
  | .skipdet => Sys2Proof.Machine.execSkipdet s
  | .thresh => Sys2Proof.Machine.execThresh s
  | .kernel => Sys2Proof.Machine.execKernel s
  | .writeback => Sys2Proof.Machine.execWriteback s
  | .nextpl => Sys2Proof.Machine.execNextpl s
  | .nextsb => Sys2Proof.Machine.execNextsb s
  | .teardown => Sys2Proof.Machine.execTeardown s

end Sys2Proof.Machine
end

