-- ==== Sys2Proof/Machine/Turns.lean ====
section
/-! DEFINITION. What the step needs around `exec`: the states that have no step (30_encoding.md R65), the host's own accesses to memory (00_scope.md R8,
20_memory.md R40, R54), hardware reset (70_reset_and_hazards.md R220, R221), and where a code word is placed for the next step to run it. -/

namespace Sys2Proof.Machine

/-- `pc.OP` is one of the reserved codes 0xE and 0xF: the state has no step (30_encoding.md R65, 93_implementation_defined.md U10). -/
def reservedPosition (s : State) : Bool := decide (13 < s.pc.op.toNat)

/-- The host writes byte `b` at address `a` of system memory (20_memory.md R40): it has no such move while `BUSY` (R54,
93_implementation_defined.md U17). -/
def hostPoke (a : BitVec 32) (b : Byte) (s : State) : Host.Outcome State Fault Refusal :=
  if s.callState = .busy then .refused .hostMemoryWhileBusy else .next { s with mem := s.mem.write a.toNat b }

/-- The host reads the byte at address `a` of system memory (00_scope.md R8, 20_memory.md R40), outside `BUSY` as it writes. A read changes nothing but
what the host has read (20_memory.md R50). -/
def hostPeek (a : BitVec 32) (s : State) : Host.Outcome State Fault Refusal :=
  if s.callState = .busy then .refused .hostMemoryWhileBusy else .next { s with rdata := (s.mem.read a.toNat).setWidth 32 }

/-- Hardware reset while the machine is at `s` (70_reset_and_hazards.md R220, R221): a reset inside a `WRITEBACK` leaves its first `written` samples in
memory; inside any other operation memory is as it was. -/
def resetAt (written : Nat) (s : State) : Host.Outcome State Fault Refusal :=
  if s.callState = .busy ∧ s.pc.op = opWriteback then
    if dstReady s s.pc.pli then .next (hardReset (writeBack s ((rectPositions s).take written)).1 s)
    else .fault .unwrittenScratch
  else .next (hardReset s.mem s)

/-- `s` with a code word placed where the next step takes its instruction from (notes/assumptions/15.md). -/
def placeWord (c : Option CodeWord) (s : State) : State :=
  match c with
  | none => s
  | some (.seq op) => { s with inbox := .pass :: s.inbox, callState := .busy, pc := { s.pc with op := op } }
  | some (.cmd w) => { s with inbox := .bus (busWord 1#1 0#8 w) :: s.inbox }
  | some (.bus w) => { s with inbox := .bus w :: s.inbox }

end Sys2Proof.Machine
end

