-- ==== Sys2Proof/Machine/Step.lean ====
section
/-! DEFINITION. One step of the machine (00_scope.md R7, R8): the host's next event, or the sequencer's turn. -/

namespace Sys2Proof.Machine

/-- Run what a decoder answered. -/
def runDecoded (d : Except DecodeError Instr) (s : State) : Host.Outcome State Fault Refusal :=
  match d with
  | .ok i => exec i s
  | .error e => .refused (.undecodable e)

/-- The sequencer's turn (10_state.md R14): it performs the operation `pc.OP` names if and only if `STATUS.STATE = BUSY`. -/
def sequencerTurn (s : State) : Host.Outcome State Fault Refusal :=
  if s.callState = .busy then runDecoded (decodeSeq s.pc.op) s else .next s

/-- What one event of the outside world does; the event itself has been taken off the inbox. -/
def runEvent (e : Event) (s : State) : Host.Outcome State Fault Refusal :=
  match e with
  | .bus w => runDecoded (decodeTransaction w) s
  | .pass => sequencerTurn s
  | .poke a b => hostPoke a b s
  | .peek a => hostPeek a s
  | .reset written => resetAt written s

/-- One step: the oldest pending event, or, when the host does nothing, the sequencer's turn; none from a reserved position. -/
def step (s : State) : Host.Outcome State Fault Refusal :=
  if reservedPosition s then .refused (.undecodable .reservedOperation)
  else
    match s.inbox with
    | [] => sequencerTurn s
    | e :: rest => runEvent e { s with inbox := rest }

/-- `s` with the instruction whose bits are `w` placed so that the next step runs it (notes/assumptions/15.md): an operation code where the
sequencer's position names the next operation, with `STATE = BUSY` and the host passing; a transaction, or a command as the data word of a write to
`CMD`, as the host's next event. -/
def State.withFetchWord (s : State) (nbits w : Nat) : State :=
  placeWord (codeWordOf nbits w) s

end Sys2Proof.Machine
end

