-- ==== Sys2Proof/Safety.lean ====
section
/-! DEFINITION. The terms claims are stated in: the bits a configuration write reaches, the unlisted offsets, the regions of a call and the host's duties about them
(20_memory.md R51, 70_reset_and_hazards.md R222, 93_implementation_defined.md U1, U3), the invariant of a machine that runs from reset, the
bound of 44_superblock_loop.md R161, and the property KSkipIdentity of a FilterKernel (45_kernel_interface.md R175). -/

namespace Sys2Proof

/-- The bits that the fields of the configuration register at a byte offset cover; none where no configuration register is (10_state.md R12). -/
def configMask (off : BitVec 8) : Option Word :=
  match off.toNat with
  | 0x10 => some 0x000000FF#32
  | 0x14 => some 0x0000FFFF#32
  | 0x18 => some 0x0000FFFF#32
  | 0x1C => some 0x0000FFFF#32
  | 0x20 => some 0xFFFFFFFF#32
  | 0x24 => some 0x0000010F#32
  | 0x30 => some 0xFFFFFFFF#32
  | 0x34 => some 0xFFFFFFFF#32
  | 0x38 => some 0x00000003#32
  | 0x40 => some 0xFFFFFFFF#32
  | 0x44 => some 0xFFFFFFFF#32
  | 0x48 => some 0x00000003#32
  | 0x50 => some 0xFFFFFFFF#32
  | 0x54 => some 0xFFFFFFFF#32
  | 0x58 => some 0x00000003#32
  | _ => none

/-- The offsets at which no register is (30_encoding.md R68). -/
def OffsetUnlisted (off : BitVec 8) : Prop := off.toNat ∈ [0x28, 0x2C, 0x3C, 0x4C, 0x5C] ∨ 0x60 ≤ off.toNat

end Sys2Proof

namespace Sys2Proof.Machine

/-! Samples in memory, by what a claim says of them. -/

/-- The sample memory holds at a position of plane `p`, widened to 16 bits (20_memory.md R48), whether or not its address is acceptable. -/
def sampleIn (c : Cfg) (m : Memory) (p : Plane) (row col : Nat) : Sample :=
  if c.hbd = 0#1 then (m.read (sampleAddr c p row col)).setWidth 16
  else m.read (sampleAddr c p row col + 1) ++ m.read (sampleAddr c p row col)

/-- Every byte of the sample is acceptable (20_memory.md R41 to R43). -/
def SampleAcceptable (prm : Params) (c : Cfg) (p : Plane) (row col : Nat) : Prop :=
  ∀ b, b < sbytes c → acceptable prm (sampleAddr c p row col + b) = true

/-- `a` is the address of a byte of the sample (20_memory.md R47). -/
def IsSampleByte (c : Cfg) (p : Plane) (row col a : Nat) : Prop :=
  ∃ b, b < sbytes c ∧ a = sampleAddr c p row col + b

/-- Memory holds the value `v` at the sample, narrowed to the container (20_memory.md R49). -/
def HoldsSample (c : Cfg) (m : Memory) (p : Plane) (row col : Nat) (v : Sample) : Prop :=
  if c.hbd = 0#1 then m.read (sampleAddr c p row col) = v.extractLsb' 0 8
  else
    m.read (sampleAddr c p row col) = v.extractLsb' 0 8 ∧ m.read (sampleAddr c p row col + 1) = v.extractLsb' 8 8

/-! The regions of a call (20_memory.md R51) and the host's duties (70_reset_and_hazards.md R222). -/

/-- Rows of plane `p` a configuration asks for, `H[p]`. -/
def cfgPlaneH (c : Cfg) (p : Plane) : Nat := (unitSpan (c.planes.get p).ssY).toNat * c.miRows.toNat

/-- Columns of plane `p` a configuration asks for, `W[p]`. -/
def cfgPlaneW (c : Cfg) (p : Plane) : Nat := (unitSpan (c.planes.get p).ssX).toNat * c.miCols.toNat

/-- Plane `p` takes part in a call with this configuration (43_frame_setup.md R122). -/
def PlaneActive (c : Cfg) (p : Plane) : Prop := p.val < (activePlanes c).toNat

/-- `a` is a byte of the mode-info grid. -/
def GridByte (c : Cfg) (a : Nat) : Prop :=
  ∃ r k, r < c.miRows.toNat ∧ k < c.miCols.toNat ∧ a = miAddr c r k

/-- `a` is a byte of plane `p`. -/
def PlaneByte (c : Cfg) (p : Plane) (a : Nat) : Prop :=
  ∃ r k, r < cfgPlaneH c p ∧ k < cfgPlaneW c p ∧ IsSampleByte c p r k a

/-- Every byte the call may touch is acceptable (R222 item 5). -/
def RegionsAcceptable (prm : Params) (c : Cfg) : Prop :=
  (∀ a, GridByte c a → acceptable prm a = true) ∧
    ∀ p a, PlaneActive c p → PlaneByte c p a → acceptable prm a = true

/-- Rows do not overlap: `mi_stride >= mi_cols` and `stride[p] >= bw[p] * mi_cols` (R222 item 5, U1). -/
def RowsApart (c : Cfg) : Prop :=
  c.miCols.toNat ≤ c.miStride.toNat ∧
    ∀ p, PlaneActive c p → cfgPlaneW c p ≤ (c.planes.get p).stride.toNat

/-- The regions share no byte (R222 item 5, U3). -/
def RegionsApart (c : Cfg) : Prop :=
  ∀ p a, PlaneActive c p → PlaneByte c p a →
    ¬ GridByte c a ∧ ∀ q, PlaneActive c q → q ≠ p → ¬ PlaneByte c q a

/-- `a` is a byte of plane `p` inside the rectangle of superblock (`sbr`, `sbc`) (44_superblock_loop.md R142). -/
def SuperblockByte (c : Cfg) (p : Plane) (sbr sbc a : Nat) : Prop :=
  ∃ r k, r < cfgPlaneH c p ∧ k < cfgPlaneW c p ∧ r / (8 * (unitSpan (c.planes.get p).ssY).toNat) = sbr ∧
    k / (8 * (unitSpan (c.planes.get p).ssX).toNat) = sbc ∧ IsSampleByte c p r k a

/-- With the grid that memory holds, superblock (`sbr`, `sbc`) gets level 0, or every unit of it in the frame is skip-coded (42_skip_detector.md R115). -/
def SuperblockSkipped (prm : Params) (c : Cfg) (m : Memory) (sbr sbc : Nat) : Prop :=
  levelMapper (maxLevel prm) c.gl.toNat (entryGain (m.read (miAddr c (8 * sbr) (8 * sbc)))) = 0 ∨
    ∀ r k, 8 * sbr ≤ r → r < min (8 * sbr + 8) c.miRows.toNat → 8 * sbc ≤ k → k < min (8 * sbc + 8) c.miCols.toNat →
      entrySkip (m.read (miAddr c r k)) = 1#1

/-! The invariant of a machine that runs from reset. -/

/-- The scratch memories and system memory are in canonical form. -/
abbrev Canonical (s : State) : Prop :=
  s.mem.wf ∧ rising s.wbuf.p0 ∧ rising s.wbuf.p1 ∧ rising s.wbuf.p2 ∧ rising s.bskip ∧ rising s.dst

/-- The registers `PLANEACT` writes hold what it derives from the configuration (43_frame_setup.md R121). -/
structure Latched (s : State) : Prop where
  nplanes    : s.work.nplanes = activePlanes s.cfg
  nvsb       : s.work.nvsb = superblocks s.cfg.miRows
  nhsb       : s.work.nhsb = superblocks s.cfg.miCols
  coeffShift : s.work.coeffShift = coeffShiftOf s.cfg.bitDepth
  bw         : ∀ p, s.work.bw.get p = unitSpan (s.cfg.planes.get p).ssX
  bh         : ∀ p, s.work.bh.get p = unitSpan (s.cfg.planes.get p).ssY
  wstride    : s.work.wstride = workStride s.cfg

/-- The sequencer is at one of the operations with codes `lo` to `hi`. -/
def AtOps (s : State) (lo hi : Nat) : Prop :=
  s.callState = .busy ∧ lo ≤ s.pc.op.toNat ∧ s.pc.op.toNat ≤ hi

/-- What holds between any two steps of a machine that runs from reset. -/
structure CallInv (s : State) : Prop where
  /-- Outside a call the sequencer is stopped and owns no scratch (10_state.md R14, R20, 43_frame_setup.md R124). -/
  stopped : s.callState ≠ .busy →
    s.pc.op = opIdle ∧ s.bskipAlloc = false ∧ ∀ p, s.wbufAlloc.get p = false
  /-- `DONE` is without an error code, `FAIL` with one (44_superblock_loop.md R156). -/
  ended : (s.callState = .done → s.err = .noError) ∧ (s.callState = .fail → s.err ≠ .noError)
  /-- During a call `pc.OP` is one of the thirteen operations (30_encoding.md R65) and `STATUS.ERR` is 0 (40_host_commands.md R84). -/
  running : s.callState = .busy → AtOps s 1 13 ∧ s.err = .noError
  /-- A fault leads straight to `TEARDOWN` (60_exceptions.md R195, R197). -/
  pending : AtOps s 1 12 → s.work.errPend = .noError
  /-- From `ALLOC` on, the registers `PLANEACT` writes follow the configuration (10_state.md R13). -/
  latched : AtOps s 2 13 → Latched s
  /-- A call begins at (`PLANEACT`, 0, 0, 0) and owns no scratch before `ALLOC` (40_host_commands.md R84, 43_frame_setup.md R124). -/
  start : AtOps s 1 2 → s.pc.sbr = 0#13 ∧ s.pc.sbc = 0#13 ∧ s.pc.pli = 0 ∧ s.bskipAlloc = false ∧ ∀ p, s.wbufAlloc.get p = false
  /-- After `ALLOC` the capacities suffice and the call owns the skip-flag array and the buffers of its planes (43_frame_setup.md R123). -/
  owned : AtOps s 3 12 →
    overCapacity s.params s.cfg = false ∧ s.bskipAlloc = true ∧
      ∀ p, s.wbufAlloc.get p = decide (p.val < s.work.nplanes.toNat)
  /-- `0 <= pli < nplanes` (10_state.md R14). -/
  plane : AtOps s 3 12 → s.pc.pli.val < s.work.nplanes.toNat
  /-- The planes already staged hold every sample (20_memory.md R56). -/
  staged : AtOps s 3 12 →
    ∀ p, p.val < s.work.nplanes.toNat → (s.pc.op = opStage → p.val < s.pc.pli.val) → stagedReady s p = true
  /-- After `FLATTEN` every skip flag of the frame is held (42_skip_detector.md R114). -/
  flattened : AtOps s 5 12 →
    ∀ r c, r < s.cfg.miRows.toNat → c < s.cfg.miCols.toNat → s.bskip.holds (bskipIndex s r c) = true
  /-- Inside the superblock loop `sbr < nvsb` and `sbc < nhsb` (10_state.md R14, 44_superblock_loop.md R152). -/
  inLoop : AtOps s 5 12 → s.pc.sbr.toNat < s.work.nvsb.toNat ∧ s.pc.sbc.toNat < s.work.nhsb.toNat
  /-- After `SBSETUP` `nhb` and `nvb` are the superblock's extent (44_superblock_loop.md R141). -/
  extent : AtOps s 6 12 →
    s.work.nhb.toNat = min 8 (s.cfg.miCols.toNat - 8 * s.pc.sbc.toNat) ∧
      s.work.nvb.toNat = min 8 (s.cfg.miRows.toNat - 8 * s.pc.sbr.toNat)
  /-- Past `LEVEL` the level is not 0 and below `MAX_LEVEL` (41_level_mapper.md R100, R102). -/
  level : AtOps s 7 11 → 1 ≤ s.work.level.toNat ∧ s.work.level.toNat < maxLevel s.params
  /-- At `KERNEL` and `WRITEBACK` the threshold is not 0 (44_superblock_loop.md R143). -/
  threshold : AtOps s 9 10 → 1 ≤ s.work.threshold.toNat
  /-- At `WRITEBACK` the kernel's output stands in `DST` (10_state.md R20). -/
  output : AtOps s 10 10 → dstReady s s.pc.pli = true
  /-- A direction-table entry has `DIR_BITS` bits (10_state.md R19). -/
  dirBits : ∀ i : Fin 64, s.dir[i] < 2 ^ s.params.dirBits

/-! The bound of 44_superblock_loop.md R161. -/

/-- Operations of one superblock, at most: `4 + 4 * nplanes`. -/
def superblockSteps (c : Cfg) : Nat := 4 + 4 * (activePlanes c).toNat

/-- Superblocks of the frame: `nvsb * nhsb`. -/
def superblockCount (c : Cfg) : Nat := (superblocks c.miRows).toNat * (superblocks c.miCols).toNat

/-- The bound of R161 on the steps of a call. -/
def callBound (c : Cfg) : Nat :=
  3 + (activePlanes c).toNat + superblockCount c * superblockSteps c + 1

/-- Steps for the superblocks after the current one, and `TEARDOWN`. -/
def stepsAfterSuperblock (s : State) : Nat :=
  (superblockCount s.cfg - (s.pc.sbr.toNat * (superblocks s.cfg.miCols).toNat + s.pc.sbc.toNat + 1)) * superblockSteps s.cfg + 1

/-- At most how many more steps the sequencer takes in the current call; at `PLANEACT` the bound of R161. -/
def stepsLeft (s : State) : Nat :=
  let planes := (activePlanes s.cfg).toNat
  let loop := superblockCount s.cfg * superblockSteps s.cfg + 1
  let planesLeft := planes - s.pc.pli.val
  match s.pc.op.toNat with
  | 1 => 3 + planes + loop
  | 2 => 2 + planes + loop
  | 3 => planesLeft + 1 + loop
  | 4 => 1 + loop
  | 5 => superblockSteps s.cfg + stepsAfterSuperblock s
  | 6 => superblockSteps s.cfg - 1 + stepsAfterSuperblock s
  | 7 => superblockSteps s.cfg - 2 + stepsAfterSuperblock s
  | 8 => 4 * planesLeft + 1 + stepsAfterSuperblock s
  | 9 => 4 * planesLeft + stepsAfterSuperblock s
  | 10 => 4 * planesLeft - 1 + stepsAfterSuperblock s
  | 11 => 4 * planesLeft - 2 + stepsAfterSuperblock s
  | 12 => 1 + stepsAfterSuperblock s
  | 13 => 1
  | _ => 0

/-- The sequencer has its turn: no event is pending, or the host passes. -/
def SequencerHasTurn (s : State) : Prop := s.inbox = [] ∨ ∃ rest, s.inbox = .pass :: rest

/-- The sequencer has its turn, as a value. -/
def hasTurn (s : State) : Bool :=
  match s.inbox with
  | [] => true
  | .pass :: _ => true
  | .bus _ :: _ => false
  | .poke _ _ :: _ => false
  | .peek _ :: _ => false
  | .reset _ :: _ => false

/-- How many operations the sequencer performs in the first `n` steps from `s`, up to the end of the call that `s` is in (44_superblock_loop.md R161). -/
def callTurns : Nat → State → Nat
  | 0, _ => 0
  | n + 1, s =>
    if s.callState = .busy then
      (if hasTurn s then 1 else 0) +
        (match step s with
         | .next t => callTurns n t
         | .fault _ => 0
         | .refused _ => 0)
    else 0

/-- The pending events are such as a host may bring about in a call: transactions the port can express, or nothing (70_reset_and_hazards.md R232). -/
def CallEvents (l : List Event) : Prop :=
  ∀ e ∈ l, e = .pass ∨ ∃ w i, e = .bus w ∧ decodeTransaction w = .ok i

/-! The FilterKernel (45_kernel_interface.md). -/

/-- `KSkipIdentity` (45_kernel_interface.md R175), a property a claim may assume of a FilterKernel: the samples of skip-coded units come back as they
were staged. `bh`, `bw` are the plane's unit size, `8 >> ss_y` and `8 >> ss_x` (R171). -/
def KSkipIdentity (k : KArgs → KResult) : Prop :=
  ∀ (a : KArgs) (uy ux : Nat), uy < a.nvb → ux < a.nhb → a.skip uy ux = true →
    ∀ r c, (8 >>> a.ssY) * uy ≤ r → r < (8 >>> a.ssY) * uy + (8 >>> a.ssY) →
      (8 >>> a.ssX) * ux ≤ c → c < (8 >>> a.ssX) * ux + (8 >>> a.ssX) →
      (k a).out r c = a.src (a.originRow + r) (a.originCol + c)

end Sys2Proof.Machine
end

