-- ==== Sys2Proof/Certificates/Slice0/Obligations.lean ====
section
/-! DEFINITION. The statements for the provers, each from the spec's numbered rules. Rule numbers in the docstrings are those of spec/. -/

open Sys2Proof Sys2Proof.Machine

/-! Encoding. -/

/-- R62, R64, R65, R61: the words the spec writes out for the three commands, all thirteen operation codes, the codes that are none, and a transaction of each
direction decode as the spec says. Sanity. -/
def Obligations.SpecWordsDecode : Prop :=
  decodeTransaction 0x10000000000#41 = .ok .cmdNop ∧
  decodeTransaction 0x10000000001#41 = .ok .cmdStart ∧
  decodeTransaction 0x10000000002#41 = .ok .cmdAck ∧
  decodeCmd 0x00000000#32 = .ok .cmdNop ∧
  decodeCmd 0x00000001#32 = .ok .cmdStart ∧
  decodeCmd 0x00000002#32 = .ok .cmdAck ∧
  decodeSeq 0x0#4 = .error .idleOperation ∧
  decodeSeq 0x1#4 = .ok .planeact ∧
  decodeSeq 0x2#4 = .ok .alloc ∧
  decodeSeq 0x3#4 = .ok .stage ∧
  decodeSeq 0x4#4 = .ok .flatten ∧
  decodeSeq 0x5#4 = .ok .sbsetup ∧
  decodeSeq 0x6#4 = .ok .level ∧
  decodeSeq 0x7#4 = .ok .skipdet ∧
  decodeSeq 0x8#4 = .ok .thresh ∧
  decodeSeq 0x9#4 = .ok .kernel ∧
  decodeSeq 0xA#4 = .ok .writeback ∧
  decodeSeq 0xB#4 = .ok .nextpl ∧
  decodeSeq 0xC#4 = .ok .nextsb ∧
  decodeSeq 0xD#4 = .ok .teardown ∧
  decodeSeq 0xE#4 = .error .reservedOperation ∧
  decodeSeq 0xF#4 = .error .reservedOperation ∧
  decodeTransaction 0x12000001000#41 = .ok (.wr 0x20#8 0x00001000#32) ∧
  decodeTransaction 0x00400000000#41 = .ok (.rd 0x04#8)

/-- R60 to R62, R64: decoding the encoding of a well-formed instruction gives the instruction, with every operand at every value. -/
def Obligations.DecodeOfEncode : Prop :=
  ∀ i : Instr, WellFormed i = true → decode (encode i) = .ok i

/-- R61, R62, R64, R69: a code word that decodes is well-formed, and it is the encoding of what it decodes to, but for the data bits of a read, which are
ignored. -/
def Obligations.EncodeOfDecode : Prop :=
  ∀ (c : CodeWord) (i : Instr), decode c = .ok i →
    WellFormed i = true ∧
      (encode i = c ∨ ∃ (w : BitVec 41) (off : BitVec 8), c = .bus w ∧ busWe w = 0#1 ∧ busOff w = off ∧ i = .rd off)

/-- R61, R63, R65: exactly the reserved encodings are rejected: operation codes 0, 0xE and 0xF, every command word but 0, 1, 2, every transaction at an
offset that is not a multiple of 4. -/
def Obligations.ReservedEncodingsRejected : Prop :=
  (∀ w : BitVec 4, (∃ i, decodeSeq w = .ok i) ↔ 1 ≤ w.toNat ∧ w.toNat ≤ 13) ∧
  (∀ w : Word, (∃ i, decodeCmd w = .ok i) ↔ w.toNat < 3) ∧
  (∀ w : BitVec 41, (∃ i, decodeBus w = .ok i) ↔ (busOff w).toNat % 4 = 0)

/-! One step. -/

/-- R7, R8, R61: where no operation code is reserved (R65), the step takes the oldest pending transaction and runs the instruction it decodes to. That pending
transactions stand in a list of the state, and that the step takes off the oldest, is the model's choice, notes/assumptions/4.md. -/
def Obligations.StepRunsTransaction : Prop :=
  ∀ (s : State) (w : BitVec 41) (rest : List Event) (i : Instr), s.pc.op.toNat ≤ 13 →
    s.inbox = .bus w :: rest → decodeTransaction w = .ok i → step s = exec i { s with inbox := rest }

/-- R14: while `BUSY` the sequencer's turn performs the operation `pc.OP` names; otherwise, where no operation code is reserved (R65), the sequencer takes no step
and nothing changes. That an empty list of events or a `pass` event gives the sequencer its turn is the model's choice, notes/assumptions/4.md and
20.md. -/
def Obligations.SequencerStepsOnlyWhileBusy : Prop :=
  ∀ s : State,
    (∀ i, s.callState = .busy → decodeSeq s.pc.op = .ok i →
      (s.inbox = [] → step s = exec i s) ∧
        ∀ rest, s.inbox = .pass :: rest → step s = exec i { s with inbox := rest }) ∧
    (s.callState ≠ .busy → s.pc.op.toNat ≤ 13 →
      (s.inbox = [] → step s = .next s) ∧ ∀ rest, s.inbox = .pass :: rest → step s = .next { s with inbox := rest })

/-! The host's registers and commands. -/

/-- R80, R12, R68: a read at an aligned offset completes, changes nothing but the value read, and returns, by the offsets of R12, the fields at their bit
positions, every other bit 0, and 0 at `CMD` and at every offset R12 does not list. (The value read stands in `rdata`, the model's own field,
notes/assumptions/5.md.) -/
def Obligations.RegisterReadReturnsFields : Prop :=
  ∀ (s : State) (off : BitVec 8), offsetAligned off = true →
    ∃ t, exec (.rd off) s = .next t ∧ t = { s with rdata := t.rdata } ∧
      (off = 0x00#8 → t.rdata = 0#32) ∧
      (off = 0x04#8 →
        t.rdata.toNat =
          (match s.callState with | .idle => 0 | .busy => 1 | .done => 2 | .fail => 3) +
          (if s.illcmd = true then 4 else 0) +
          (match s.err with | .noError => 0 | .alloc => 1 | .bus => 2) * 2 ^ 4 +
          (match s.callState with | .idle => 0 | .busy => s.pc.op.toNat | .done => 0 | .fail => s.work.failop.toNat) * 2 ^ 8 +
          s.work.nplanes.toNat * 2 ^ 12) ∧
      (off = 0x08#8 →
        t.rdata.toNat = s.pc.sbc.toNat + s.pc.sbr.toNat * 2 ^ 16 + s.pc.pli.val * 2 ^ 30) ∧
      (off = 0x0C#8 → t.rdata.toNat = if s.irqEn = true then 1 else 0) ∧
      (off = 0x10#8 → t.rdata.toNat = s.cfg.gl.toNat) ∧
      (off = 0x14#8 → t.rdata.toNat = s.cfg.miRows.toNat) ∧
      (off = 0x18#8 → t.rdata.toNat = s.cfg.miCols.toNat) ∧
      (off = 0x1C#8 → t.rdata.toNat = s.cfg.miStride.toNat) ∧
      (off = 0x20#8 → t.rdata = s.cfg.miBase) ∧
      (off = 0x24#8 → t.rdata.toNat = s.cfg.bitDepth.toNat + s.cfg.hbd.toNat * 2 ^ 8) ∧
      (off = 0x30#8 → t.rdata = s.cfg.planes.p0.base) ∧
      (off = 0x34#8 → t.rdata = s.cfg.planes.p0.stride) ∧
      (off = 0x38#8 → t.rdata.toNat = s.cfg.planes.p0.ssX.toNat + s.cfg.planes.p0.ssY.toNat * 2) ∧
      (off = 0x40#8 → t.rdata = s.cfg.planes.p1.base) ∧
      (off = 0x44#8 → t.rdata = s.cfg.planes.p1.stride) ∧
      (off = 0x48#8 → t.rdata.toNat = s.cfg.planes.p1.ssX.toNat + s.cfg.planes.p1.ssY.toNat * 2) ∧
      (off = 0x50#8 → t.rdata = s.cfg.planes.p2.base) ∧
      (off = 0x54#8 → t.rdata = s.cfg.planes.p2.stride) ∧
      (off = 0x58#8 → t.rdata.toNat = s.cfg.planes.p2.ssX.toNat + s.cfg.planes.p2.ssY.toNat * 2) ∧
      (OffsetUnlisted off → t.rdata = 0#32)

/-- R40, R61: a transaction at an offset that is not a multiple of 4 does not exist: `RD` and `WR` refuse it. -/
def Obligations.MisalignedTransactionRefused : Prop :=
  ∀ (s : State) (off : BitVec 8) (data : Word), off.toNat % 4 ≠ 0 →
    exec (.rd off) s = .refused (.undecodable .misalignedOffset) ∧
      exec (.wr off data) s = .refused (.undecodable .misalignedOffset)

/-- R81, R12: a write to a configuration register outside `BUSY`, by the offsets of R12, completes and stores exactly the bits its fields cover: a read of the
offset then returns those bits of the data, a read of every other offset returns what it returned before, and nothing but the configuration changes.
(The value read stands in `rdata`, notes/assumptions/5.md.) -/
def Obligations.ConfigWriteStoresFields : Prop :=
  ∀ (s : State) (off : BitVec 8) (data mask : Word), configMask off = some mask → s.callState ≠ .busy →
    ∃ t, exec (.wr off data) s = .next t ∧ t = { s with cfg := t.cfg } ∧
      exec (.rd off) t = .next { t with rdata := data &&& mask } ∧
      ∀ off', offsetAligned off' = true → off' ≠ off →
        ∃ v, exec (.rd off') s = .next { s with rdata := v } ∧ exec (.rd off') t = .next { t with rdata := v }

/-- R81, R82, R68: a write to a configuration register while `BUSY`, to a read-only register (0x04, 0x08) or to an aligned offset that R12 does not list completes
and changes nothing; a write to `CTRL` (0x0C) sets `IRQ_EN` to bit 0 in every state and changes nothing else. -/
def Obligations.WritesDroppedOrCtrl : Prop :=
  ∀ (s : State) (off : BitVec 8) (data : Word), offsetAligned off = true →
    (configMask off ≠ none ∧ s.callState = .busy ∨ off = 0x04#8 ∨ off = 0x08#8 ∨ OffsetUnlisted off →
      exec (.wr off data) s = .next s) ∧
    (off = 0x0C#8 → exec (.wr off data) s = .next { s with irqEn := decide (data.toNat % 2 = 1) })

/-- R81, R63, R86: a write to `CMD` runs its data word as a command; a reserved word sets `ILLCMD` and changes nothing else. -/
def Obligations.CmdWriteRunsCommand : Prop :=
  ∀ (s : State) (data : Word),
    (∀ c, decodeCmd data = .ok c → exec (.wr 0x00#8 data) s = exec c s) ∧
      (2 < data.toNat → exec (.wr 0x00#8 data) s = .next { s with illcmd := true })

/-- R83: `CMD.NOP` completes in every state and leaves every register, flag, scratch entry and byte of memory as it was. -/
def Obligations.NopChangesNothing : Prop :=
  ∀ s : State, ∃ t, exec .cmdNop s = .next t ∧ t = s ∧ ∀ a, t.mem.read a = s.mem.read a

/-- R84, R86: `CMD.START` completes in every state: in `IDLE` a call begins at (`PLANEACT`, 0, 0, 0) with `ERR`, `err_pend` and `failop` cleared; in every
other state it sets `ILLCMD` only. -/
def Obligations.StartBeginsCall : Prop :=
  ∀ s : State, ∃ t, exec .cmdStart s = .next t ∧
    (s.callState = .idle →
      t.callState = .busy ∧ t.err = .noError ∧ t.work.errPend = .noError ∧ t.work.failop = 0#4 ∧
      t.pc = ⟨opPlaneact, 0#13, 0#13, 0⟩ ∧
      t = { s with
        callState := t.callState, err := t.err, pc := t.pc
        work := { s.work with errPend := t.work.errPend, failop := t.work.failop } }) ∧
    (s.callState ≠ .idle → t = { s with illcmd := true })

/-- R85, R86, R199: `CMD.ACK` completes in every state: `DONE` and `FAIL` become `IDLE` and `ILLCMD` is cleared, in `IDLE` it clears `ILLCMD`, in `BUSY` it
sets it; nothing else changes, so `ERR`, `failop` and the position stay readable. -/
def Obligations.AckReturnsToIdle : Prop :=
  ∀ s : State, ∃ t, exec .cmdAck s = .next t ∧
    (s.callState = .busy → t = { s with illcmd := true }) ∧
    (s.callState ≠ .busy → t = { s with callState := .idle, illcmd := false })

/-- R29, R201: `irq` is high exactly while `IRQ_EN = 1` and the state is `DONE` or `FAIL`; it is low after `CMD.ACK`, and after `TEARDOWN` it follows
`IRQ_EN`. -/
def Obligations.IrqIsLevel : Prop :=
  ∀ s t : State,
    (s.irq = true ↔ s.irqEn = true ∧ (s.callState = .done ∨ s.callState = .fail)) ∧
    (exec .cmdAck s = .next t → t.irq = false) ∧
    (exec .teardown s = .next t → t.irq = s.irqEn)

/-! Frame set-up. -/

/-- R121, R122: `PLANEACT` completes in every state; three planes take part iff each chroma plane is square-subsampled and the two match, otherwise one;
the derived registers get their values; nothing else changes. -/
def Obligations.PlaneactLatchesFrame : Prop :=
  ∀ s : State, ∃ t, exec .planeact s = .next t ∧
    t = { s with
      pc := ⟨opAlloc, 0#13, 0#13, 0⟩
      work := { s.work with
        nplanes := t.work.nplanes, nvsb := t.work.nvsb, nhsb := t.work.nhsb, coeffShift := t.work.coeffShift
        bw := t.work.bw, bh := t.work.bh, wstride := t.work.wstride } } ∧
    t.work.nplanes.toNat =
      (if (s.cfg.planes.get 1).ssX = (s.cfg.planes.get 1).ssY ∧ (s.cfg.planes.get 2).ssX = (s.cfg.planes.get 2).ssY ∧
          (s.cfg.planes.get 1).ssX = (s.cfg.planes.get 2).ssX ∧ (s.cfg.planes.get 1).ssY = (s.cfg.planes.get 2).ssY
        then 3 else 1) ∧
    t.work.nvsb.toNat = (s.cfg.miRows.toNat + 7) / 8 ∧
    t.work.nhsb.toNat = (s.cfg.miCols.toNat + 7) / 8 ∧
    t.work.coeffShift.toNat = s.cfg.bitDepth.toNat - 8 ∧
    (∀ p, (t.work.bw.get p).toNat = 8 / 2 ^ (s.cfg.planes.get p).ssX.toNat ∧
      (t.work.bh.get p).toNat = 8 / 2 ^ (s.cfg.planes.get p).ssY.toNat) ∧
    t.work.wstride.toNat = 8 * s.cfg.miCols.toNat

/-- R123: `ALLOC` acquires the skip-flag array and the buffers of the active planes iff both capacities suffice, equality included; otherwise it raises
`Fault(ALLOC)` with nothing acquired. It completes in every state. -/
def Obligations.AllocAcquiresOrFaults : Prop :=
  ∀ s : State, ∃ t, exec .alloc s = .next t ∧
    (s.cfg.miRows.toNat * s.cfg.miCols.toNat ≤ s.params.skipCap ∧
        s.cfg.miRows.toNat * s.cfg.miCols.toNat * 64 ≤ s.params.wbufCap →
      t = { s with pc := ⟨opStage, 0#13, 0#13, 0⟩, bskipAlloc := true, wbufAlloc := t.wbufAlloc } ∧
      ∀ p, t.wbufAlloc.get p = true ↔ p.val < s.work.nplanes.toNat ∨ s.wbufAlloc.get p = true) ∧
    (s.params.skipCap < s.cfg.miRows.toNat * s.cfg.miCols.toNat ∨
        s.params.wbufCap < s.cfg.miRows.toNat * s.cfg.miCols.toNat * 64 →
      t = { s with
        pc := { s.pc with op := opTeardown }
        work := { s.work with errPend := .alloc, failop := opAlloc } })

/-- R125, R17, R48: when every sample of plane `pli` is acceptable and the buffer is large enough for its rows, `STAGE` completes: entry
`r * wstride + c` holds the sample at (`r`, `c`), widened, every other entry and every other buffer is as before, the next plane or `FLATTEN` follows, and
nothing else changes, memory included. -/
def Obligations.StageCopiesPlane : Prop :=
  ∀ s : State,
    (∀ r c, r < planeH s s.pc.pli → c < planeW s s.pc.pli →
      SampleAcceptable s.params s.cfg s.pc.pli r c ∧ wbufIndex s r c < s.params.wbufCap) →
    planeW s s.pc.pli ≤ s.work.wstride.toNat →
    ∃ t, exec .stage s = .next t ∧
      t = { s with pc := t.pc, wbuf := t.wbuf } ∧
      (∀ r c, r < planeH s s.pc.pli → c < planeW s s.pc.pli →
        (t.wbuf.get s.pc.pli).get (wbufIndex s r c) = some (sampleIn s.cfg s.mem s.pc.pli r c)) ∧
      (∀ i, (∀ r c, r < planeH s s.pc.pli → c < planeW s s.pc.pli → i ≠ wbufIndex s r c) →
        (t.wbuf.get s.pc.pli).get i = (s.wbuf.get s.pc.pli).get i) ∧
      (∀ p, p ≠ s.pc.pli → t.wbuf.get p = s.wbuf.get p) ∧
      t.pc.sbr = 0#13 ∧ t.pc.sbc = 0#13 ∧
      (if s.pc.pli.val + 1 < s.work.nplanes.toNat then t.pc.op = opStage ∧ t.pc.pli.val = s.pc.pli.val + 1
       else t.pc.op = opFlatten ∧ t.pc.pli = s.pc.pli)

/-- R127, R128, R18: when every entry of the grid is acceptable and the array is large enough, `FLATTEN` completes: `BSKIP[r * mi_cols + c]` is bit 0 of the
entry at `mi_base + r * mi_stride + c`, every other entry is as before, the superblock loop or, for an empty frame, `TEARDOWN` follows, and nothing
else changes, memory included. -/
def Obligations.FlattenCopiesSkipFlags : Prop :=
  ∀ s : State,
    (∀ a, GridByte s.cfg a → acceptable s.params a = true) →
    s.cfg.miRows.toNat * s.cfg.miCols.toNat ≤ s.params.skipCap →
    ∃ t, exec .flatten s = .next t ∧
      t = { s with pc := t.pc, bskip := t.bskip } ∧
      (∀ r c, r < s.cfg.miRows.toNat → c < s.cfg.miCols.toNat →
        t.bskip.get (r * s.cfg.miCols.toNat + c) =
          some ((s.mem.read (s.cfg.miBase.toNat + r * s.cfg.miStride.toNat + c)).extractLsb' 0 1)) ∧
      (∀ i, s.cfg.miRows.toNat * s.cfg.miCols.toNat ≤ i → t.bskip.get i = s.bskip.get i) ∧
      t.pc =
        (if s.work.nvsb.toNat = 0 ∨ s.work.nhsb.toNat = 0 then ⟨opTeardown, 0#13, 0#13, s.pc.pli⟩
         else ⟨opSbsetup, 0#13, 0#13, 0⟩)

/-! The superblock loop. -/

/-- R141: inside the frame `SBSETUP` completes with `nhb` and `nvb` the clipped extent of the superblock; nothing else changes. -/
def Obligations.SbsetupClipsExtent : Prop :=
  ∀ s : State, 8 * s.pc.sbc.toNat ≤ s.cfg.miCols.toNat → 8 * s.pc.sbr.toNat ≤ s.cfg.miRows.toNat →
    ∃ t, exec .sbsetup s = .next t ∧
      t = { s with
        pc := { s.pc with op := opLevel }
        work := { s.work with nhb := t.work.nhb, nvb := t.work.nvb } } ∧
      t.work.nhb.toNat = min 8 (s.cfg.miCols.toNat - 8 * s.pc.sbc.toNat) ∧
      t.work.nvb.toNat = min 8 (s.cfg.miRows.toNat - 8 * s.pc.sbr.toNat)

/-- R103 items 1 to 4, for every `MAX_LEVEL` that R5 allows and every strength of 8 bits: the LevelMapper is 0 at strength 0; at a positive strength it lies
between the gain index and `MAX_LEVEL - 1` and is non-decreasing in the gain index; it is 0 at gain index 0; it is 0 only at strength 0 or gain index 0. -/
def Obligations.LevelMapperProperties : Prop :=
  ∀ maxLvl gl : Nat, 4 ≤ maxLvl → maxLvl ≤ 256 → gl ≤ 255 →
    (∀ g : BitVec 2, levelMapper maxLvl 0 g = 0) ∧
    (0 < gl → ∀ g : BitVec 2, g.toNat ≤ levelMapper maxLvl gl g ∧ levelMapper maxLvl gl g ≤ maxLvl - 1) ∧
    (0 < gl → ∀ g h : BitVec 2, g.toNat ≤ h.toNat → levelMapper maxLvl gl g ≤ levelMapper maxLvl gl h) ∧
    levelMapper maxLvl gl 0#2 = 0 ∧
    ∀ g : BitVec 2, levelMapper maxLvl gl g = 0 ↔ gl = 0 ∨ g = 0#2

/-- R101, R102: when the superblock's top-left entry is acceptable, `LEVEL` completes: the level is the gain-table value of bits 2..1 of that entry, scaled,
rounded half up and clamped, 0 if `global_level` is 0; the next operation is `NEXTSB` iff the level is 0, else `SKIPDET`; nothing else changes. -/
def Obligations.LevelMapsTopLeftGain : Prop :=
  ∀ (s : State) (a : Nat), a = s.cfg.miBase.toNat + 8 * s.pc.sbr.toNat * s.cfg.miStride.toNat + 8 * s.pc.sbc.toNat →
    acceptable s.params a = true →
    ∃ t, exec .level s = .next t ∧
      t = { s with pc := t.pc, work := { s.work with level := t.work.level } } ∧
      (t.work.level = 0#8 → t.pc = { s.pc with op := opNextsb }) ∧
      (t.work.level ≠ 0#8 → t.pc = { s.pc with op := opSkipdet }) ∧
      t.work.level.toNat =
        (let g := (s.mem.read a).toNat / 2 % 4
         let gains := if g = 0 then 0 else if g = 1 then 11 else if g = 2 then 16 else 22
         if s.cfg.gl.toNat = 0 then 0
         else max g (min ((s.cfg.gl.toNat * gains + 8) / 16) (maxLevel s.params - 1)))

/-- R111 to R113: when the superblock has a unit in the frame and its in-frame entries are acceptable, `SKIPDET` completes: `all_skip` is 1 iff every entry of
the clipped region has bit 0 set; if so `NEXTSB` follows and `DIR` is as before, else `DIR` is all 0 and `THRESH` of plane 0 follows; nothing else
changes. -/
def Obligations.SkipdetTestsClippedRegion : Prop :=
  ∀ s : State, 8 * s.pc.sbr.toNat < s.cfg.miRows.toNat → 8 * s.pc.sbc.toNat < s.cfg.miCols.toNat →
    (∀ r c, 8 * s.pc.sbr.toNat ≤ r → r < min (8 * s.pc.sbr.toNat + 8) s.cfg.miRows.toNat →
      8 * s.pc.sbc.toNat ≤ c → c < min (8 * s.pc.sbc.toNat + 8) s.cfg.miCols.toNat →
      acceptable s.params (miAddr s.cfg r c) = true) →
    ∃ t, exec .skipdet s = .next t ∧
      t = { s with pc := t.pc, dir := t.dir, work := { s.work with allSkip := t.work.allSkip } } ∧
      (t.work.allSkip = true ↔
        ∀ r c, 8 * s.pc.sbr.toNat ≤ r → r < min (8 * s.pc.sbr.toNat + 8) s.cfg.miRows.toNat →
          8 * s.pc.sbc.toNat ≤ c → c < min (8 * s.pc.sbc.toNat + 8) s.cfg.miCols.toNat →
          (s.mem.read (miAddr s.cfg r c)).toNat % 2 = 1) ∧
      (t.work.allSkip = true → t.pc = { s.pc with op := opNextsb } ∧ t.dir = s.dir) ∧
      (t.work.allSkip = false → t.pc = { s.pc with op := opThresh, pli := 0 } ∧ ∀ i : Fin 64, t.dir[i] = 0)

/-- R111 and 93_implementation_defined.md U4: an empty region is not a defined input: `SKIPDET` refuses it, and does not answer "all skip". -/
def Obligations.EmptySkipRegionRefused : Prop :=
  ∀ s : State, s.cfg.miRows.toNat ≤ 8 * s.pc.sbr.toNat ∨ s.cfg.miCols.toNat ≤ 8 * s.pc.sbc.toNat →
    exec .skipdet s = .refused .emptySkipRegion

/-- R143: `THRESH` completes in every state: luma gets `level << coeff_shift`, chroma `((level * 5 + 4) >> 3) << coeff_shift`, shifted last; a threshold of 0
skips the plane; a level of at least 1 gives a threshold of at least 1; nothing else changes. -/
def Obligations.ThreshScalesLevel : Prop :=
  ∀ s : State, ∃ t, exec .thresh s = .next t ∧
    t = { s with pc := t.pc, work := { s.work with threshold := t.work.threshold } } ∧
    (t.work.threshold = 0#16 → t.pc = { s.pc with op := opNextpl }) ∧
    (t.work.threshold ≠ 0#16 → t.pc = { s.pc with op := opKernel }) ∧
    t.work.threshold.toNat =
      (if s.pc.pli = 0 then s.work.level.toNat else (s.work.level.toNat * 5 + 4) / 8) * 2 ^ s.work.coeffShift.toNat ∧
    (1 ≤ s.work.level.toNat → 1 ≤ t.work.threshold.toNat)

/-- R146: when the staged samples of plane `pli` and the superblock's skip flags are held and the rectangle lies within 64 by 64, `KERNEL` completes: over
the rectangle `DST` holds the FilterKernel's output for the argument record of R146, every other entry of `DST` is as before, `DIR` is the table it
returned, `WRITEBACK` follows, and nothing else changes, memory included. (Entries that hold no value: notes/assumptions/7.md; entries of `DIR` modulo
`2^DIR_BITS`: 18.md.) -/
def Obligations.KernelStoresOutput : Prop :=
  ∀ s : State,
    (∀ r c, r < planeH s s.pc.pli → c < planeW s s.pc.pli → (s.wbuf.get s.pc.pli).holds (wbufIndex s r c) = true) →
    (∀ r c, r < s.work.nvb.toNat → c < s.work.nhb.toNat →
      s.bskip.holds ((8 * s.pc.sbr.toNat + r) * s.cfg.miCols.toNat + (8 * s.pc.sbc.toNat + c)) = true) →
    rectH s s.pc.pli ≤ 64 → rectW s s.pc.pli ≤ 64 →
    ∃ t, exec .kernel s = .next t ∧
      t = { s with pc := { s.pc with op := opWriteback }, dst := t.dst, dir := t.dir } ∧
      (∀ r c, r < rectH s s.pc.pli → c < rectW s s.pc.pli →
        t.dst.get (64 * r + c) = some ((Config.filterKernel (kernelArgs s s.pc.pli)).out r c)) ∧
      (∀ i, (∀ r c, r < rectH s s.pc.pli → c < rectW s s.pc.pli → i ≠ 64 * r + c) → t.dst.get i = s.dst.get i) ∧
      ∀ uy ux : Fin 8, ∀ h : 8 * uy.val + ux.val < 64,
        t.dir[8 * uy.val + ux.val] = (Config.filterKernel (kernelArgs s s.pc.pli)).dir uy ux % 2 ^ s.params.dirBits

/-- R172, R176: what the FilterKernel is given depends only on the staged extent of the one plane, the skip flags of the superblock, `DIR` and the scalars:
two states that agree on these give it equal arguments, whatever else differs (memory, the planes' base addresses and frame strides,
the other planes' buffers, entries outside the staged extent, `DST`). -/
def Obligations.KernelSeesOnlyItsArguments : Prop :=
  ∀ (s t : State) (p : Plane),
    s.cfg.miRows = t.cfg.miRows → s.cfg.miCols = t.cfg.miCols →
    (s.cfg.planes.get p).ssX = (t.cfg.planes.get p).ssX → (s.cfg.planes.get p).ssY = (t.cfg.planes.get p).ssY →
    s.work.bw.get p = t.work.bw.get p → s.work.bh.get p = t.work.bh.get p → s.work.wstride = t.work.wstride →
    s.work.nhb = t.work.nhb → s.work.nvb = t.work.nvb → s.work.nhsb = t.work.nhsb → s.work.nvsb = t.work.nvsb →
    s.work.threshold = t.work.threshold → s.work.coeffShift = t.work.coeffShift →
    s.pc.sbr = t.pc.sbr → s.pc.sbc = t.pc.sbc → s.dir = t.dir →
    (∀ r c, r < planeH s p → c < planeW s p →
      (s.wbuf.get p).get (wbufIndex s r c) = (t.wbuf.get p).get (wbufIndex s r c)) →
    (∀ r c, r < s.work.nvb.toNat → c < s.work.nhb.toNat →
      s.bskip.get (bskipIndex s (sbRow s + r) (sbCol s + c)) = t.bskip.get (bskipIndex s (sbRow s + r) (sbCol s + c))) →
    kernelArgs s p = kernelArgs t p

/-- R175: with a FilterKernel that meets KSkipIdentity, after `KERNEL` the entries of `DST` for a skip-coded unit hold the samples as they were staged, when
the plane's unit size is the configured one and the rectangle lies in the staged extent. -/
def Obligations.SkipUnitsComeBackStaged : Prop :=
  ∀ (k : KArgs → KResult) (s t : State), KSkipIdentity k → kernelWith k s = .next t → Latched s →
    rectRow s s.pc.pli + rectH s s.pc.pli ≤ planeH s s.pc.pli → rectCol s s.pc.pli + rectW s s.pc.pli ≤ planeW s s.pc.pli →
    ∀ uy ux, uy < s.work.nvb.toNat → ux < s.work.nhb.toNat →
      s.bskip.get (bskipIndex s (sbRow s + uy) (sbCol s + ux)) = some 1#1 →
      ∀ r c, unitH s s.pc.pli * uy ≤ r → r < unitH s s.pc.pli * uy + unitH s s.pc.pli →
        unitW s s.pc.pli * ux ≤ c → c < unitW s s.pc.pli * ux + unitW s s.pc.pli →
        t.dst.get (dstIndex r c) =
          (s.wbuf.get s.pc.pli).get (wbufIndex s (rectRow s s.pc.pli + r) (rectCol s s.pc.pli + c))

/-- R148, R49: when `DST` holds the rectangle, every sample written is acceptable and rows do not overlap, `WRITEBACK` completes: every sample of the
superblock's rectangle holds its `DST` entry narrowed to the container, every byte outside the rectangle reads as before, `NEXTPL` follows, and nothing
else changes. -/
def Obligations.WritebackStoresRectangle : Prop :=
  ∀ s : State,
    (∀ r c, r < rectH s s.pc.pli → c < rectW s s.pc.pli →
      s.dst.holds (dstIndex r c) = true ∧
        SampleAcceptable s.params s.cfg s.pc.pli (rectRow s s.pc.pli + r) (rectCol s s.pc.pli + c)) →
    rectCol s s.pc.pli + rectW s s.pc.pli ≤ (s.cfg.planes.get s.pc.pli).stride.toNat →
    ∃ t, exec .writeback s = .next t ∧
      t = { s with pc := { s.pc with op := opNextpl }, mem := t.mem } ∧
      (∀ r c v, r < rectH s s.pc.pli → c < rectW s s.pc.pli → s.dst.get (dstIndex r c) = some v →
        HoldsSample s.cfg t.mem s.pc.pli (rectRow s s.pc.pli + r) (rectCol s s.pc.pli + c) v) ∧
      ∀ a, (∀ r c, r < rectH s s.pc.pli → c < rectW s s.pc.pli →
          ¬ IsSampleByte s.cfg s.pc.pli (rectRow s s.pc.pli + r) (rectCol s s.pc.pli + c) a) →
        t.mem.read a = s.mem.read a

/-- R148, R195: whenever `WRITEBACK` takes a step, with or without a `BUS` fault, every byte outside the superblock's rectangle reads as before and nothing
changes but memory, `pc`, `err_pend` and `failop`. -/
def Obligations.WritebackFrame : Prop :=
  ∀ s t : State, exec .writeback s = .next t →
    t = { s with
      pc := { s.pc with op := t.pc.op }
      mem := t.mem
      work := { s.work with errPend := t.work.errPend, failop := t.work.failop } } ∧
    ∀ a, (∀ r c, r < rectH s s.pc.pli → c < rectW s s.pc.pli →
        ¬ IsSampleByte s.cfg s.pc.pli (rectRow s s.pc.pli + r) (rectCol s s.pc.pli + c) a) →
      t.mem.read a = s.mem.read a

/-- R150: `NEXTPL` completes in every state and changes only `pc`: the next plane's `THRESH` if a plane is left, else `NEXTSB`. -/
def Obligations.NextplAdvancesPlane : Prop :=
  ∀ s : State, ∃ t, exec .nextpl s = .next t ∧ t = { s with pc := t.pc } ∧
    t.pc.sbr = s.pc.sbr ∧ t.pc.sbc = s.pc.sbc ∧
    (if s.pc.pli.val + 1 < s.work.nplanes.toNat then t.pc.op = opThresh ∧ t.pc.pli.val = s.pc.pli.val + 1
     else t.pc.op = opNextsb ∧ t.pc.pli = s.pc.pli)

/-- R152: with counts that 13-bit indices can reach, `NEXTSB` completes and changes only `pc`: the next superblock in row-major order with plane 0, or
`TEARDOWN` with the position kept when none is left. -/
def Obligations.NextsbAdvancesRowMajor : Prop :=
  ∀ s : State, s.work.nhsb.toNat ≤ 8192 → s.work.nvsb.toNat ≤ 8192 →
    ∃ t, exec .nextsb s = .next t ∧ t = { s with pc := t.pc } ∧
      (if s.pc.sbc.toNat + 1 < s.work.nhsb.toNat then
        t.pc.op = opSbsetup ∧ t.pc.sbr = s.pc.sbr ∧ t.pc.sbc.toNat = s.pc.sbc.toNat + 1 ∧ t.pc.pli = 0
       else if s.pc.sbr.toNat + 1 < s.work.nvsb.toNat then
        t.pc.op = opSbsetup ∧ t.pc.sbr.toNat = s.pc.sbr.toNat + 1 ∧ t.pc.sbc = 0#13 ∧ t.pc.pli = 0
       else t.pc = { s.pc with op := opTeardown })

/-- R156: `TEARDOWN` completes in every state: all scratch is released, `ERR` reports `err_pend`, the state is `DONE` iff there was no error and `FAIL`
otherwise, the sequencer stops with its position kept, and nothing else changes, memory included. -/
def Obligations.TeardownReports : Prop :=
  ∀ s : State, ∃ t, exec .teardown s = .next t ∧
    t = { s with
      pc := { s.pc with op := opIdle }, bskipAlloc := false, wbufAlloc := t.wbufAlloc, err := s.work.errPend
      callState := t.callState } ∧
    (∀ p, t.wbufAlloc.get p = false) ∧
    (s.work.errPend = .noError → t.callState = .done) ∧ (s.work.errPend ≠ .noError → t.callState = .fail)

/-! Faults. -/

/-- R195, R196: a reading operation that meets an unacceptable address raises `Fault(BUS)`: `err_pend` and `failop` are set, `TEARDOWN` follows with the
position kept, and no byte of memory, no configuration register and no flag changes. -/
def Obligations.BusFaultOfReaders : Prop :=
  ∀ s : State,
    ((∀ r c, r < planeH s s.pc.pli → c < planeW s s.pc.pli → wbufIndex s r c < s.params.wbufCap) →
      (∃ r c, r < planeH s s.pc.pli ∧ c < planeW s s.pc.pli ∧ ¬ SampleAcceptable s.params s.cfg s.pc.pli r c) →
      ∃ t, exec .stage s = .next t ∧
        t = { s with
          wbuf := t.wbuf, pc := { s.pc with op := opTeardown }
          work := { s.work with errPend := .bus, failop := opStage } } ∧
        ∀ p, p ≠ s.pc.pli → t.wbuf.get p = s.wbuf.get p) ∧
    (s.cfg.miRows.toNat * s.cfg.miCols.toNat ≤ s.params.skipCap →
      (∃ a, GridByte s.cfg a ∧ acceptable s.params a = false) →
      ∃ t, exec .flatten s = .next t ∧
        t = { s with
          bskip := t.bskip, pc := { s.pc with op := opTeardown }
          work := { s.work with errPend := .bus, failop := opFlatten } }) ∧
    (acceptable s.params (miAddr s.cfg (8 * s.pc.sbr.toNat) (8 * s.pc.sbc.toNat)) = false →
      exec .level s = .next { s with
        pc := { s.pc with op := opTeardown }
        work := { s.work with errPend := .bus, failop := opLevel } }) ∧
    ((∃ r c, 8 * s.pc.sbr.toNat ≤ r ∧ r < min (8 * s.pc.sbr.toNat + 8) s.cfg.miRows.toNat ∧
        8 * s.pc.sbc.toNat ≤ c ∧ c < min (8 * s.pc.sbc.toNat + 8) s.cfg.miCols.toNat ∧
        acceptable s.params (miAddr s.cfg r c) = false) →
      exec .skipdet s = .next { s with
        pc := { s.pc with op := opTeardown }
        work := { s.work with errPend := .bus, failop := opSkipdet } })

/-- R148, R195, R196: when a sample of the rectangle is not acceptable and those before it in row-major order are, `WRITEBACK` raises `Fault(BUS)`: the
samples before it are written (if rows do not overlap), every byte outside those samples reads as before, and the fault is recorded as R195 says. -/
def Obligations.WritebackFaultIsPrecise : Prop :=
  ∀ (s : State) (before after : List (Nat × Nat)) (q : Nat × Nat),
    rectPositions s = before ++ q :: after →
    dstReady s s.pc.pli = true →
    (∀ x ∈ before, SampleAcceptable s.params s.cfg s.pc.pli (rectRow s s.pc.pli + x.1) (rectCol s s.pc.pli + x.2)) →
    ¬ SampleAcceptable s.params s.cfg s.pc.pli (rectRow s s.pc.pli + q.1) (rectCol s s.pc.pli + q.2) →
    ∃ t, exec .writeback s = .next t ∧
      t = { s with
        mem := t.mem, pc := { s.pc with op := opTeardown }
        work := { s.work with errPend := .bus, failop := opWriteback } } ∧
      (rectCol s s.pc.pli + rectW s s.pc.pli ≤ (s.cfg.planes.get s.pc.pli).stride.toNat →
        ∀ x ∈ before, ∀ v, s.dst.get (dstIndex x.1 x.2) = some v →
          HoldsSample s.cfg t.mem s.pc.pli (rectRow s s.pc.pli + x.1) (rectCol s s.pc.pli + x.2) v) ∧
      ∀ a, (∀ x ∈ before, ¬ IsSampleByte s.cfg s.pc.pli (rectRow s s.pc.pli + x.1) (rectCol s s.pc.pli + x.2) a) →
        t.mem.read a = s.mem.read a

/-! Memory. -/

/-- R42 to R45: a 2-byte write needs both bytes acceptable and then sets the byte at `a` to bits 7..0 and the byte at `a + 1` to bits 15..8, every other
byte as before; a 2-byte read puts them together again; at an unacceptable byte neither is done; the canonical form of
memory, the model's own (notes/assumptions/1.md), is kept. -/
def Obligations.TwoByteAccess : Prop :=
  ∀ (prm : Params) (m : Memory) (a : Nat) (v : BitVec 16),
    (acceptable prm a = true → acceptable prm (a + 1) = true →
      memRead2 prm m a = some (m.read (a + 1) ++ m.read a) ∧
      ∃ m', memWrite2 prm m a v = some m' ∧ memRead2 prm m' a = some v ∧
        m'.read a = v.extractLsb' 0 8 ∧ m'.read (a + 1) = v.extractLsb' 8 8 ∧
        (∀ b, b ≠ a → b ≠ a + 1 → m'.read b = m.read b) ∧ (m.wf → m'.wf)) ∧
    (acceptable prm a = false ∨ acceptable prm (a + 1) = false →
      memRead2 prm m a = none ∧ memWrite2 prm m a v = none)

/-- R48, R49: writing back the sample just read leaves memory as it was, for both containers. -/
def Obligations.WriteOfReadIsIdentity : Prop :=
  ∀ (prm : Params) (c : Cfg) (m : Memory) (p : Plane) (row col : Nat) (v : Sample),
    m.wf → readSample prm c m p row col = some v → writeSample prm c m p row col v = some m

/-! Whole-machine rules. -/

/-- R30, R220, R15: after hardware reset the machine is stopped in `IDLE` with every register 0, the working registers of R15 among them, no error, the interrupt
disabled and low, nothing allocated; and the invariants hold. (What scratch and memory hold at reset is the model's choice,
notes/assumptions/1.md, 6.md, 7.md.) -/
def Obligations.ResetStopsTheMachine : Prop :=
  State.reset.callState = .idle ∧ State.reset.err = .noError ∧ State.reset.illcmd = false ∧ State.reset.irqEn = false ∧
  State.reset.irq = false ∧ State.reset.pc = ⟨0#4, 0#13, 0#13, 0⟩ ∧
  (∀ r, readReg State.reset r = 0#32) ∧
  State.reset.work.nplanes = 0#2 ∧ State.reset.work.nvsb = 0#14 ∧ State.reset.work.nhsb = 0#14 ∧
  State.reset.work.coeffShift = 0#3 ∧ (∀ p, State.reset.work.bw.get p = 0#4) ∧ (∀ p, State.reset.work.bh.get p = 0#4) ∧
  State.reset.work.wstride = 0#19 ∧ State.reset.work.nhb = 0#4 ∧ State.reset.work.nvb = 0#4 ∧
  State.reset.work.level = 0#8 ∧ State.reset.work.allSkip = false ∧ State.reset.work.threshold = 0#16 ∧
  State.reset.work.errPend = .noError ∧ State.reset.work.failop = 0#4 ∧
  State.reset.bskipAlloc = false ∧ (∀ p, State.reset.wbufAlloc.get p = false) ∧
  Canonical State.reset ∧ CallInv State.reset

/-- R220, R221, R30: a hardware reset, also during a call, gives every register and allocation flag its reset value and leaves system memory to what the
`WRITEBACK`s performed; outside a `WRITEBACK` memory is unchanged. Nothing is said of the scratch memories, which R30 leaves unspecified. That a reset
is an event of the host's list, and what an interrupted `WRITEBACK` leaves, is notes/assumptions/4.md and 14.md. -/
def Obligations.ResetAbandonsCall : Prop :=
  ∀ (s : State) (n : Nat) (rest : List Event), s.pc.op.toNat ≤ 13 → s.inbox = .reset n :: rest →
    ¬ (s.callState = .busy ∧ s.pc.op = opWriteback ∧ dstReady s s.pc.pli = false) →
    ∃ t, step s = .next t ∧
      t = { State.reset with
        params := s.params, inbox := rest, mem := t.mem
        wbuf := t.wbuf, bskip := t.bskip, dir := t.dir, dst := t.dst, rdata := t.rdata } ∧
      (¬ (s.callState = .busy ∧ s.pc.op = opWriteback) → t.mem = s.mem) ∧
      ∀ a, (∀ r c, r < rectH s s.pc.pli → c < rectW s s.pc.pli →
          ¬ IsSampleByte s.cfg s.pc.pli (rectRow s s.pc.pli + r) (rectCol s s.pc.pli + c) a) →
        t.mem.read a = s.mem.read a

/-- R8, R40, R54, R50 and 93_implementation_defined.md U17: the host's own accesses to memory: outside `BUSY` its write changes that byte only and its read returns
the byte and changes nothing else; while `BUSY` it has no such move. That the model refuses them there, one byte an event, is notes/assumptions/4.md
and 13.md, and that the byte read stands in `rdata` is 5.md. -/
def Obligations.HostMemoryOnlyOutsideCall : Prop :=
  ∀ (s : State) (a : BitVec 32) (rest : List Event), s.pc.op.toNat ≤ 13 →
    (∀ b : Byte, s.inbox = .poke a b :: rest →
      (s.callState = .busy → step s = .refused .hostMemoryWhileBusy) ∧
      (s.callState ≠ .busy → ∃ t, step s = .next t ∧ t = { s with inbox := rest, mem := t.mem } ∧
        t.mem.read a.toNat = b ∧ ∀ x, x ≠ a.toNat → t.mem.read x = s.mem.read x)) ∧
    (s.inbox = .peek a :: rest →
      (s.callState = .busy → step s = .refused .hostMemoryWhileBusy) ∧
      (s.callState ≠ .busy → ∃ t, step s = .next t ∧ t = { s with inbox := rest, rdata := t.rdata } ∧
        t.rdata.toNat = (s.mem.read a.toNat).toNat))

/-- The memories keep their canonical form: every step keeps it, from every state that has it. -/
def Obligations.CanonicalKept : Prop :=
  ∀ s t : State, Canonical s → step s = .next t → Canonical t

/-- Every step, of the host, of the sequencer or a reset, keeps the invariant of a running machine: the position is legal, the registers of `PLANEACT`
follow the configuration, scratch is owned exactly during a call and written before it is read, the loop indices are in range. -/
def Obligations.CallInvKept : Prop :=
  ∀ s t : State, CallInv s → step s = .next t → CallInv t

/-- R14, R65, R190: in a state that meets the invariant the sequencer's turn always answers a next state: no fault, no refusal, no reserved operation.
(When it is the sequencer's turn is notes/assumptions/4.md.) -/
def Obligations.SequencerNeverStops : Prop :=
  ∀ s : State, CallInv s → SequencerHasTurn s → ∃ t, step s = .next t

/-- R161: in every call the sequencer performs at most `stepsLeft` operations, which at the start of a call is R161's bound, whatever the host does meanwhile; and
every call ends: with only such events pending as a host may bring about in a call, `DONE` or `FAIL` is reached after at most that many operations and
the pending events. That the host's events stand in a list that is then empty, and that every kernel application and memory access returns, is
notes/assumptions/4.md and 20.md (unsafe where a part hangs). -/
def Obligations.CallEndsWithinBound : Prop :=
  (∀ s : State, CallInv s → s.callState = .busy → ∀ n, callTurns n s ≤ stepsLeft s) ∧
  (∀ s : State, CallInv s → s.callState = .busy → CallEvents s.inbox →
    ∃ n t, n ≤ s.inbox.length + stepsLeft s ∧ core.run n s = .next t ∧ (t.callState = .done ∨ t.callState = .fail)) ∧
  ∀ s : State, s.pc.op = opPlaneact → stepsLeft s = callBound s.cfg

/-- R163 item 1: a call with `global_level = 0` leaves every byte of memory as it was: from the start of the call, with no host event pending, no number of
steps changes memory, and no step stops. (That the host's events are a list of the state is notes/assumptions/4.md; where rows or regions overlap the
statement rests on 16.md.) -/
def Obligations.GlobalLevelZeroIsNoop : Prop :=
  ∀ s : State, CallInv s → s.callState = .busy → s.pc.op = opPlaneact → s.inbox = [] → s.cfg.gl = 0#8 →
    ∀ n, ∃ t, core.run n s = .next t ∧ t.mem = s.mem

/-- R196, R222, R241: a call whose regions are all acceptable and whose request fits the capacities ends in `DONE`, and a call whose request does not fit ends in
`FAIL` with `ERR = ALLOC` and memory unchanged. It holds whatever the geometry, also where rows or regions overlap, which R222 item 5 excludes: there it rests on
notes/assumptions/16.md (unsafe); that the call ends at all rests on 20.md, and that no host event is pending is 4.md. -/
def Obligations.SoundCallEndsDone : Prop :=
  ∀ s : State, CallInv s → s.callState = .busy → s.pc.op = opPlaneact → s.inbox = [] →
    (RegionsAcceptable s.params s.cfg → overCapacity s.params s.cfg = false →
      ∃ n t, core.run n s = .next t ∧ t.callState = .done ∧ t.err = .noError) ∧
    (overCapacity s.params s.cfg = true →
      ∃ n t, core.run n s = .next t ∧ t.callState = .fail ∧ t.err = .alloc ∧ t.mem = s.mem)

/-- R46, R51, R122, R163 item 5: in a call, whatever the host does, a byte of memory that belongs to no active plane is unchanged by every step: the inactive planes
and all other memory are never written; nor is the grid, when the regions of the call share no byte (R222 item 5, U3). -/
def Obligations.OnlyActivePlanesWritten : Prop :=
  ∀ s t : State, CallInv s → s.callState = .busy → step s = .next t →
    (∀ a, (∀ p, PlaneActive s.cfg p → ¬ PlaneByte s.cfg p a) → t.mem.read a = s.mem.read a) ∧
    (RegionsApart s.cfg → ∀ a, GridByte s.cfg a → t.mem.read a = s.mem.read a)

/-- R120, R196: memory changes only at `WRITEBACK` (or a reset that interrupts one) and by the host's own writes: every other step leaves it as it was. -/
def Obligations.OnlyWritebackStores : Prop :=
  ∀ s t : State, step s = .next t →
    (∀ a b rest, s.inbox ≠ .poke a b :: rest) → ¬ (s.callState = .busy ∧ s.pc.op = opWriteback) → t.mem = s.mem

/-- R25: the state of the call protocol changes only along the listed transitions, each by what R25 names: to `BUSY` only from `IDLE` by `CMD.START`, from
`BUSY` only to `DONE` or `FAIL` by `TEARDOWN`, from those only to `IDLE` by `CMD.ACK`; a reset leads to `IDLE`. -/
def Obligations.CallStateTransitions : Prop :=
  ∀ s t : State, step s = .next t → t.callState ≠ s.callState →
    (s.callState = .idle ∧ t.callState = .busy ∧
      ∃ w rest, s.inbox = .bus w :: rest ∧ decodeTransaction w = .ok .cmdStart) ∨
    (s.callState = .busy ∧ (t.callState = .done ∨ t.callState = .fail) ∧ s.pc.op = opTeardown) ∨
    ((s.callState = .done ∨ s.callState = .fail) ∧ t.callState = .idle ∧
      ∃ w rest, s.inbox = .bus w :: rest ∧ decodeTransaction w = .ok .cmdAck) ∨
    (t.callState = .idle ∧ ∃ n rest, s.inbox = .reset n :: rest)

/-- R13, R82, R4, R10: the configuration and the parameters are constant for the whole of a call: no step of a `BUSY` machine but a reset changes the
configuration, and no step at all changes the parameters (R4, R10; that they are a field of the state is the model's choice, notes/assumptions/2.md). -/
def Obligations.ConfigFrozenDuringCall : Prop :=
  ∀ s t : State, step s = .next t →
    t.params = s.params ∧
      (s.callState = .busy → (∀ n rest, s.inbox ≠ .reset n :: rest) → t.cfg = s.cfg)

/-- R26, R27: `STATUS.ERR` changes only at `TEARDOWN` and at an accepted `CMD.START`; `STATUS.ILLCMD`, once set, is cleared only by a `CMD.ACK` outside `BUSY`;
a reset aside. -/
def Obligations.StickyStatusBits : Prop :=
  ∀ s t : State, step s = .next t → (∀ n rest, s.inbox ≠ .reset n :: rest) →
    (t.err ≠ s.err →
      (s.callState = .busy ∧ s.pc.op = opTeardown ∧ t.err = s.work.errPend) ∨
      (s.callState = .idle ∧ t.callState = .busy ∧ t.err = .noError)) ∧
    (s.illcmd = true → t.illcmd = false →
      s.callState ≠ .busy ∧ ∃ w rest, s.inbox = .bus w :: rest ∧ decodeTransaction w = .ok .cmdAck)

/-- R142: the superblocks partition the frame: every mode-info unit of the frame lies in exactly one superblock's clipped rectangle. -/
def Obligations.TilingIsPartition : Prop :=
  ∀ (rows cols : BitVec 16) (r c : Nat), r < rows.toNat → c < cols.toNat →
    ∃! q : Nat × Nat, q.1 < (superblocks rows).toNat ∧ q.2 < (superblocks cols).toNat ∧
      8 * q.1 ≤ r ∧ r < 8 * q.1 + min 8 (rows.toNat - 8 * q.1) ∧
      8 * q.2 ≤ c ∧ c < 8 * q.2 + min 8 (cols.toNat - 8 * q.2)

/-- R17 to R20: a reset aside, a working plane buffer changes only at `STAGE`, the skip-flag array only at `FLATTEN`, the kernel output buffer only at `KERNEL`,
the direction table only at `SKIPDET` and `KERNEL`, an allocation flag only at `ALLOC` and `TEARDOWN`, each time while `BUSY`. -/
def Obligations.ScratchWriters : Prop :=
  ∀ s t : State, step s = .next t → (∀ n rest, s.inbox ≠ .reset n :: rest) →
    (t.wbuf ≠ s.wbuf → s.callState = .busy ∧ s.pc.op = opStage) ∧
    (t.bskip ≠ s.bskip → s.callState = .busy ∧ s.pc.op = opFlatten) ∧
    (t.dst ≠ s.dst → s.callState = .busy ∧ s.pc.op = opKernel) ∧
    (t.dir ≠ s.dir → s.callState = .busy ∧ (s.pc.op = opSkipdet ∨ s.pc.op = opKernel)) ∧
    (t.bskipAlloc ≠ s.bskipAlloc ∨ t.wbufAlloc ≠ s.wbufAlloc →
      s.callState = .busy ∧ (s.pc.op = opAlloc ∨ s.pc.op = opTeardown))

/-- R11, R163 item 3: nothing an earlier call left influences a call: two machines at the start of a call that agree on the parameters, the configuration and
memory agree at every later step, with no host event pending, on memory, the call's state, the error code and the position, whatever their working
registers and scratch memories hold; and neither stops. (The list of host events is notes/assumptions/4.md; where rows or regions overlap the statement
rests on 16.md.) -/
def Obligations.HistoryDoesNotMatter : Prop :=
  ∀ s t : State, CallInv s → CallInv t → s.callState = .busy → t.callState = .busy →
    s.pc.op = opPlaneact → t.pc.op = opPlaneact → s.inbox = [] → t.inbox = [] →
    s.params = t.params → s.cfg = t.cfg → s.mem = t.mem →
    ∀ n, ∃ s' t', core.run n s = .next s' ∧ core.run n t = .next t' ∧
      s'.mem = t'.mem ∧ s'.callState = t'.callState ∧ s'.err = t'.err ∧ s'.pc = t'.pc

/-- R65: codes 0xE and 0xF are refused and unreachable: a state whose `pc.OP` is one of them has no step, whatever is pending; they do not arise from reset, where
`pc.OP` is 0, as no step leads to one; and beside the thirteen operations there is no further code: no hint encoding, no custom space. -/
def Obligations.ReservedCodesNeverArise : Prop :=
  (∀ s : State, s.pc.op = 0xE#4 ∨ s.pc.op = 0xF#4 → step s = .refused (.undecodable .reservedOperation)) ∧
  State.reset.pc.op = 0x0#4 ∧
  (∀ s t : State, step s = .next t → t.pc.op ≠ 0xE#4 ∧ t.pc.op ≠ 0xF#4) ∧
  ∀ (w : BitVec 4) (i : Instr), decodeSeq w = .ok i → 1 ≤ w.toNat ∧ w.toNat ≤ 13

/-- R146, R171: the fields of the argument record that `KERNEL` gives the FilterKernel (`KernelStoresOutput` names it): stride, origin, extent of the plane, the
superblock's extent, position and grid, subsampling, plane index, `mi_cols`, threshold, `coeff_shift`; the staged samples, the skip flags
`BSKIP[(8*sbr + by)*mi_cols + 8*sbc + bx]` and the direction table. -/
def Obligations.KernelArgumentRecord : Prop :=
  ∀ (s : State) (p : Plane) (a : KArgs), kernelArgs s p = a →
    a.stride = s.work.wstride.toNat ∧
    a.originRow = (s.work.bh.get p).toNat * 8 * s.pc.sbr.toNat ∧ a.originCol = (s.work.bw.get p).toNat * 8 * s.pc.sbc.toNat ∧
    a.planeH = (s.work.bh.get p).toNat * s.cfg.miRows.toNat ∧ a.planeW = (s.work.bw.get p).toNat * s.cfg.miCols.toNat ∧
    a.nhb = s.work.nhb.toNat ∧ a.nvb = s.work.nvb.toNat ∧ a.sbc = s.pc.sbc.toNat ∧ a.sbr = s.pc.sbr.toNat ∧
    a.nhsb = s.work.nhsb.toNat ∧ a.nvsb = s.work.nvsb.toNat ∧
    a.ssX = (s.cfg.planes.get p).ssX.toNat ∧ a.ssY = (s.cfg.planes.get p).ssY.toNat ∧ a.pli = p ∧
    a.miCols = s.cfg.miCols.toNat ∧ a.threshold = s.work.threshold.toNat ∧ a.coeffShift = s.work.coeffShift.toNat ∧
    (∀ r c v, r < (s.work.bh.get p).toNat * s.cfg.miRows.toNat → c < (s.work.bw.get p).toNat * s.cfg.miCols.toNat →
      (s.wbuf.get p).get (r * s.work.wstride.toNat + c) = some v → a.src r c = v) ∧
    (∀ uy ux v, uy < s.work.nvb.toNat → ux < s.work.nhb.toNat →
      s.bskip.get ((8 * s.pc.sbr.toNat + uy) * s.cfg.miCols.toNat + (8 * s.pc.sbc.toNat + ux)) = some v →
      (a.skip uy ux = true ↔ v = 1#1)) ∧
    ∀ uy ux : Fin 8, ∀ h : 8 * uy.val + ux.val < 64, a.dir uy ux = s.dir[8 * uy.val + ux.val]

/-- R115, R163 item 2, R46: in a call whose rows and regions are apart (R222 item 5, U1, U3), a superblock that gets level 0 or whose units in the frame are all
skip-coded keeps every byte of its rectangle in every plane, however far the call has come, and after it. (No host event is pending,
notes/assumptions/4.md.) -/
def Obligations.SkippedSuperblockUntouched : Prop :=
  ∀ s : State, CallInv s → s.callState = .busy → s.pc.op = opPlaneact → s.inbox = [] → RowsApart s.cfg → RegionsApart s.cfg →
    ∀ n, ∃ t, core.run n s = .next t ∧
      ∀ sbr sbc p a, SuperblockSkipped s.params s.cfg s.mem sbr sbc → PlaneActive s.cfg p → SuperblockByte s.cfg p sbr sbc a →
        t.mem.read a = s.mem.read a
end

