-- ==== Sys2Proof/Laws/Encoding.lean ====
section
/-! SUPPORT. The fields of a transaction word: taken apart and put together. -/

namespace Sys2Proof

/-- The bits of a transaction word, by the field they belong to. -/
theorem busWord_getLsbD (we : BitVec 1) (off : BitVec 8) (data : Word) (i : Nat) :
    (busWord we off data).getLsbD i =
      if i < 32 then data.getLsbD i else if i < 40 then off.getLsbD (i - 32) else we.getLsbD (i - 40) := by
  show ((we ++ off ++ data : BitVec (1 + 8 + 32))).getLsbD i = _
  rw [BitVec.getLsbD_append, BitVec.getLsbD_append]
  by_cases h : i < 32
  · simp [h]
  · by_cases h' : i < 40
    · simp [h, h', show i - 32 < 8 by omega]
    · simp [h, h', show ¬ i - 32 < 8 by omega, show i - 32 - 8 = i - 40 by omega]

@[simp] theorem busWe_busWord (we : BitVec 1) (off : BitVec 8) (data : Word) : busWe (busWord we off data) = we := by
  apply BitVec.eq_of_getLsbD_eq
  intro i hi
  have : i = 0 := by omega
  subst this
  simp only [busWe, BitVec.getLsbD_extractLsb', busWord_getLsbD]
  simp

@[simp] theorem busOff_busWord (we : BitVec 1) (off : BitVec 8) (data : Word) : busOff (busWord we off data) = off := by
  apply BitVec.eq_of_getLsbD_eq
  intro i hi
  simp only [busOff, BitVec.getLsbD_extractLsb', busWord_getLsbD]
  simp [hi, show 32 + i < 40 by omega]

@[simp] theorem busData_busWord (we : BitVec 1) (off : BitVec 8) (data : Word) : busData (busWord we off data) = data := by
  apply BitVec.eq_of_getLsbD_eq
  intro i hi
  simp only [busData, BitVec.getLsbD_extractLsb', busWord_getLsbD]
  simp [hi]

/-- A transaction word is its three fields. -/
theorem busWord_fields (w : BitVec 41) : busWord (busWe w) (busOff w) (busData w) = w := by
  apply BitVec.eq_of_getLsbD_eq
  intro i hi
  rw [busWord_getLsbD]
  simp only [busWe, busOff, busData, BitVec.getLsbD_extractLsb']
  by_cases h : i < 32
  · simp [h]
  · by_cases h' : i < 40
    · simp [h, h', show i - 32 < 8 by omega, show 32 + (i - 32) = i by omega]
    · have : i = 40 := by omega
      subst this
      simp

/-- An aligned offset, as a number. -/
theorem offsetAligned_iff (off : BitVec 8) : offsetAligned off = true ↔ off.toNat % 4 = 0 := by
  revert off; decide

end Sys2Proof
end

