-- ==== Sys2Proof/Laws/Lists.lean ====
section
/-! SUPPORT. The lists of (key, value) pairs behind memory and scratch: what a put and a drop do to each key, and that the order of keys is kept. -/

namespace Sys2Proof.Machine

variable {α : Type}

theorem assocGet_put_same (l : List (Nat × α)) (a : Nat) (v : α) : assocGet (assocPut l a v) a = some v := by
  induction l with
  | nil => simp [assocPut, assocGet]
  | cons e rest ih =>
    obtain ⟨k, x⟩ := e
    simp only [assocPut]
    split
    · simp [assocGet]
    · split
      · simp [assocGet]
      · next h => simpa [assocGet, Ne.symm h] using ih

theorem assocGet_put_other (l : List (Nat × α)) {a b : Nat} (v : α) (h : b ≠ a) :
    assocGet (assocPut l a v) b = assocGet l b := by
  induction l with
  | nil => simp [assocPut, assocGet, h.symm]
  | cons e rest ih =>
    obtain ⟨k, x⟩ := e
    simp only [assocPut]
    split
    · simp [assocGet, h.symm]
    · split
      · next hk => subst hk; simp [assocGet, h.symm]
      · simp [assocGet, ih]

theorem assocGet_put (l : List (Nat × α)) (a b : Nat) (v : α) :
    assocGet (assocPut l a v) b = if b = a then some v else assocGet l b := by
  split
  · next h => rw [h, assocGet_put_same]
  · next h => exact assocGet_put_other l v h

theorem assocGet_drop (l : List (Nat × α)) (a b : Nat) :
    assocGet (assocDrop l a) b = if b = a then none else assocGet l b := by
  induction l with
  | nil => simp [assocDrop, assocGet]
  | cons e rest ih =>
    obtain ⟨k, x⟩ := e
    simp only [assocDrop] at ih
    by_cases hk : k = a
    · subst hk
      by_cases hb : b = k
      · simpa [assocDrop, List.filter, hb] using ih
      · simpa [assocDrop, List.filter, assocGet, hb, Ne.symm hb] using ih
    · by_cases hb : b = a
      · subst hb; simpa [assocDrop, List.filter, assocGet, hk] using ih
      · by_cases hkb : k = b
        · subst hkb; simp [assocDrop, List.filter, assocGet, hk]
        · simpa [assocDrop, List.filter, assocGet, hk, hb, hkb] using ih

theorem assocGet_mem {l : List (Nat × α)} {a : Nat} {v : α} (h : assocGet l a = some v) : (a, v) ∈ l := by
  induction l with
  | nil => simp [assocGet] at h
  | cons e rest ih =>
    obtain ⟨k, x⟩ := e
    simp only [assocGet] at h
    split at h
    · next hk => cases h; subst hk; exact List.mem_cons_self
    · exact List.mem_cons_of_mem _ (ih h)

theorem assocGet_none {l : List (Nat × α)} {a : Nat} (h : assocGet l a = none) : ∀ e ∈ l, e.1 ≠ a := by
  induction l with
  | nil => simp
  | cons e rest ih =>
    obtain ⟨k, x⟩ := e
    simp only [assocGet] at h
    split at h
    · cases h
    · next hk =>
      intro e he
      rcases List.mem_cons.mp he with rfl | he
      · exact hk
      · exact ih h e he

/-- The entries of a list after a put. -/
theorem mem_assocPut {l : List (Nat × α)} {a : Nat} {v : α} {e : Nat × α} (h : e ∈ assocPut l a v) :
    e = (a, v) ∨ e ∈ l := by
  induction l with
  | nil => simpa [assocPut] using h
  | cons f rest ih =>
    obtain ⟨k, x⟩ := f
    simp only [assocPut] at h
    split at h
    · simpa using h
    · split at h
      · rcases List.mem_cons.mp h with h | h
        · exact .inl h
        · exact .inr (List.mem_cons_of_mem _ h)
      · rcases List.mem_cons.mp h with h | h
        · exact .inr (h ▸ List.mem_cons_self)
        · rcases ih h with h | h
          · exact .inl h
          · exact .inr (List.mem_cons_of_mem _ h)

/-- A put keeps the keys rising. -/
theorem rising_put {l : List (Nat × α)} (h : rising l) (a : Nat) (v : α) : rising (assocPut l a v) := by
  induction l with
  | nil => simp [assocPut, rising]
  | cons f rest ih =>
    obtain ⟨k, x⟩ := f
    obtain ⟨hk, hr⟩ := List.pairwise_cons.mp h
    simp only [assocPut]
    split
    · next hlt =>
      refine List.pairwise_cons.mpr ⟨fun e he => ?_, h⟩
      rcases List.mem_cons.mp he with rfl | he
      · exact hlt
      · exact Nat.lt_trans hlt (hk e he)
    · split
      · next ha => subst ha; exact List.pairwise_cons.mpr ⟨hk, hr⟩
      · next hle hne =>
        refine List.pairwise_cons.mpr ⟨fun e he => ?_, ih hr⟩
        rcases mem_assocPut he with rfl | he
        · show k < a
          omega
        · exact hk e he

/-- A drop keeps the keys rising. -/
theorem rising_drop {l : List (Nat × α)} (h : rising l) (a : Nat) : rising (assocDrop l a) := List.Pairwise.filter _ h

/-- Putting back the value a key has changes nothing. -/
theorem assocPut_self {l : List (Nat × α)} (h : rising l) {a : Nat} {v : α} (hv : assocGet l a = some v) :
    assocPut l a v = l := by
  induction l with
  | nil => simp [assocGet] at hv
  | cons f rest ih =>
    obtain ⟨k, x⟩ := f
    obtain ⟨hk, hr⟩ := List.pairwise_cons.mp h
    simp only [assocGet] at hv
    simp only [assocPut]
    split at hv
    · next hka => cases hv; subst hka; simp
    · next hka =>
      have hlt := hk _ (assocGet_mem hv)
      simp only at hlt
      rw [if_neg (by omega), if_neg (by omega), ih hr hv]

/-- Dropping a key that is not listed changes nothing. -/
theorem assocDrop_none {l : List (Nat × α)} {a : Nat} (h : assocGet l a = none) : assocDrop l a = l := by
  refine List.filter_eq_self.mpr fun e he => ?_
  simp [assocGet_none h e he]

end Sys2Proof.Machine
end

