-- ==== Sys2Proof/Laws/Memory.lean ====
section
/-! SUPPORT. The laws of system memory and of the scratch memories: a read after a write, and that every operation keeps the canonical form. -/

namespace Sys2Proof.Machine

theorem Memory.read_write (m : Memory) (a b : Nat) (v : Byte) :
    (m.write a v).read b = if b = a then v else m.read b := by
  unfold Memory.write Memory.read
  by_cases hv : v = Memory.unlisted a
  · rw [if_pos hv, assocGet_drop]
    by_cases hb : b = a <;> simp [hb, hv]
  · rw [if_neg hv, assocGet_put]
    by_cases hb : b = a <;> simp [hb]

@[simp] theorem Memory.read_write_same (m : Memory) (a : Nat) (v : Byte) : (m.write a v).read a = v := by
  simp [Memory.read_write]

theorem Memory.read_write_other (m : Memory) {a b : Nat} (v : Byte) (h : b ≠ a) : (m.write a v).read b = m.read b := by
  simp [Memory.read_write, h]

/-- A write at an address of the 32-bit space keeps the canonical form. -/
theorem Memory.wf_write {m : Memory} (h : m.wf) {a : Nat} (ha : a < 2 ^ 32) (v : Byte) : (m.write a v).wf := by
  unfold Memory.write
  split
  · exact ⟨rising_drop h.1 a, fun e he => h.2 e (List.mem_of_mem_filter he)⟩
  · next hv =>
    refine ⟨rising_put h.1 a v, fun e he => ?_⟩
    rcases mem_assocPut he with rfl | he
    · exact ⟨ha, hv⟩
    · exact h.2 e he

/-- In canonical form, writing the byte that is there changes nothing. -/
theorem Memory.write_read {m : Memory} (h : m.wf) (a : Nat) : m.write a (m.read a) = m := by
  unfold Memory.write Memory.read
  cases hg : assocGet m a with
  | none => simp [assocDrop_none hg]
  | some v =>
    have hne := (h.2 _ (assocGet_mem hg)).2
    simp only [if_neg hne]
    exact assocPut_self h.1 hg

theorem acceptable_lt {p : Params} {a : Nat} (h : acceptable p a = true) : a < 2 ^ 32 := by
  simp only [acceptable, Bool.and_eq_true, decide_eq_true_eq] at h
  exact h.1

/-- What `MemWrite(a, 1, v)` can do. -/
theorem memWrite1_eq_some {p : Params} {m m' : Memory} {a : Nat} {v : Byte} (h : memWrite1 p m a v = some m') :
    acceptable p a = true ∧ m' = m.write a v := by
  unfold memWrite1 at h
  split at h
  · next ha => exact ⟨ha, by simpa using h.symm⟩
  · cases h

/-- What `MemWrite(a, 2, v)` can do. -/
theorem memWrite2_eq_some {p : Params} {m m' : Memory} {a : Nat} {v : BitVec 16} (h : memWrite2 p m a v = some m') :
    acceptable p a = true ∧ acceptable p (a + 1) = true ∧
      m' = (m.write a (v.extractLsb' 0 8)).write (a + 1) (v.extractLsb' 8 8) := by
  unfold memWrite2 at h
  split at h
  · next ha =>
    rw [Bool.and_eq_true] at ha
    exact ⟨ha.1, ha.2, by simpa using h.symm⟩
  · cases h

theorem memWrite1_wf {p : Params} {m m' : Memory} {a : Nat} {v : Byte} (hm : m.wf) (h : memWrite1 p m a v = some m') :
    m'.wf := by
  obtain ⟨ha, rfl⟩ := memWrite1_eq_some h
  exact Memory.wf_write hm (acceptable_lt ha) v

theorem memWrite2_wf {p : Params} {m m' : Memory} {a : Nat} {v : BitVec 16} (hm : m.wf) (h : memWrite2 p m a v = some m') :
    m'.wf := by
  obtain ⟨ha, hb, rfl⟩ := memWrite2_eq_some h
  exact Memory.wf_write (Memory.wf_write hm (acceptable_lt ha) _) (acceptable_lt hb) _

/-! Scratch memories. -/

theorem Scratch.get_put {w : Nat} (m : Scratch w) (i j : Nat) (v : BitVec w) :
    (m.put i v).get j = if j = i then some v else m.get j := assocGet_put m i j v

@[simp] theorem Scratch.get_put_same {w : Nat} (m : Scratch w) (i : Nat) (v : BitVec w) : (m.put i v).get i = some v :=
  assocGet_put_same m i v

theorem Scratch.get_put_other {w : Nat} (m : Scratch w) {i j : Nat} (v : BitVec w) (h : j ≠ i) :
    (m.put i v).get j = m.get j := assocGet_put_other m v h

theorem Scratch.rising_put {w : Nat} {m : Scratch w} (h : rising m) (i : Nat) (v : BitVec w) : rising (m.put i v) :=
  Sys2Proof.Machine.rising_put h i v

theorem Scratch.holds_iff {w : Nat} (m : Scratch w) (i : Nat) : m.holds i = true ↔ ∃ v, m.get i = some v := by
  simp [Scratch.holds, Option.isSome_iff_exists]

end Sys2Proof.Machine
end

