-- ==== Sys2Proof/Laws/Loops.lean ====
section
/-! SUPPORT. What the row-major loops over a rectangle do: the positions they visit, each once and in order, and one spec lemma for each of `gather`,
`scatter` and `skipScan`. -/

namespace Sys2Proof.Machine

/-! Positions. -/

@[simp] theorem mem_rowMajor {h w : Nat} {q : Nat × Nat} : q ∈ rowMajor h w ↔ q.1 < h ∧ q.2 < w := by
  obtain ⟨r, c⟩ := q
  simp only [rowMajor, List.mem_flatMap, List.mem_map, List.mem_range, Prod.mk.injEq]
  constructor
  · rintro ⟨r', hr, c', hc, rfl, rfl⟩; exact ⟨hr, hc⟩
  · rintro ⟨hr, hc⟩; exact ⟨r, hr, c, hc, rfl, rfl⟩

theorem rowMajor_nodup (h w : Nat) : (rowMajor h w).Nodup := by
  refine List.nodup_flatMap.mpr ⟨fun r _ => ?_, ?_⟩
  · exact List.nodup_range.map fun a b hab => (Prod.mk.inj hab).2
  · refine (List.nodup_range (n := h)).imp fun {a b} hab => ?_
    intro q hq hq'
    obtain ⟨_, _, rfl⟩ := List.mem_map.mp hq
    obtain ⟨_, _, heq⟩ := List.mem_map.mp hq'
    exact hab (Prod.mk.inj heq).1.symm

theorem all_rowMajor {h w : Nat} {f : Nat × Nat → Bool} :
    (rowMajor h w).all f = true ↔ ∀ r c, r < h → c < w → f (r, c) = true := by
  rw [List.all_eq_true]
  constructor
  · intro H r c hr hc; exact H (r, c) (mem_rowMajor.mpr ⟨hr, hc⟩)
  · intro H q hq; exact H q.1 q.2 (mem_rowMajor.mp hq).1 (mem_rowMajor.mp hq).2

/-- Row-major indices with a stride of at least the width are different for different positions. -/
theorem index_injective {stride w : Nat} (hw : w ≤ stride) {r c r' c' : Nat} (hc : c < w) (hc' : c' < w)
    (h : r * stride + c = r' * stride + c') : r = r' ∧ c = c' := by
  have hcs : c < stride := Nat.lt_of_lt_of_le hc hw
  have hcs' : c' < stride := Nat.lt_of_lt_of_le hc' hw
  have hr : r = r' := by
    have h1 : (r * stride + c) / stride = r := by
      rw [Nat.mul_comm, Nat.mul_add_div (by omega), Nat.div_eq_of_lt hcs, Nat.add_zero]
    have h2 : (r' * stride + c') / stride = r' := by
      rw [Nat.mul_comm, Nat.mul_add_div (by omega), Nat.div_eq_of_lt hcs', Nat.add_zero]
    rw [← h1, ← h2, h]
  subst hr
  exact ⟨rfl, by omega⟩

/-- `fitsScratch` says that every index of the rectangle is below the capacity. -/
theorem fitsScratch_iff {h w stride cap : Nat} :
    fitsScratch h w stride cap = true ↔ ∀ r c, r < h → c < w → r * stride + c < cap := by
  simp only [fitsScratch, Bool.or_eq_true, decide_eq_true_eq]
  constructor
  · rintro ((h0 | h0) | h0) r c hr hc
    · omega
    · omega
    · have : r * stride ≤ (h - 1) * stride := Nat.mul_le_mul_right _ (by omega)
      omega
  · intro H
    by_cases h0 : h = 0
    · exact .inl (.inl h0)
    · by_cases w0 : w = 0
      · exact .inl (.inr w0)
      · exact .inr (H (h - 1) (w - 1) (by omega) (by omega))

/-! `gather`. -/

section gather
variable {w : Nat} {read : Nat → Nat → Option (BitVec w)} {index : Nat → Nat → Nat}

/-- The loop comes to its end iff no read raises a fault. -/
theorem gather_ok_iff (l : List (Nat × Nat)) (m : Scratch w) :
    (gather read index l m).2 = true ↔ ∀ q ∈ l, ∃ v, read q.1 q.2 = some v := by
  induction l generalizing m with
  | nil => simp [gather]
  | cons q rest ih =>
    obtain ⟨r, c⟩ := q
    simp only [gather]
    cases hr : read r c with
    | none => simp [hr]
    | some v => simp [ih, hr]

/-- An entry no position has is as before. -/
theorem gather_get_other (l : List (Nat × Nat)) (m : Scratch w) {i : Nat} (h : ∀ q ∈ l, index q.1 q.2 ≠ i) :
    (gather read index l m).1.get i = m.get i := by
  induction l generalizing m with
  | nil => simp [gather]
  | cons q rest ih =>
    obtain ⟨r, c⟩ := q
    simp only [gather]
    cases read r c with
    | none => rfl
    | some v =>
      rw [ih _ fun q hq => h q (List.mem_cons_of_mem _ hq)]
      exact Scratch.get_put_other _ _ (Ne.symm (h _ List.mem_cons_self))

/-- When the loop comes to its end and different positions have different entries, each entry holds what was read at its position. -/
theorem gather_get (l : List (Nat × Nat)) (m : Scratch w) (hok : (gather read index l m).2 = true)
    (hnd : l.Nodup) (hinj : ∀ q ∈ l, ∀ q' ∈ l, index q.1 q.2 = index q'.1 q'.2 → q = q') {q : Nat × Nat} (hq : q ∈ l) :
    (gather read index l m).1.get (index q.1 q.2) = read q.1 q.2 := by
  induction l generalizing m with
  | nil => cases hq
  | cons p rest ih =>
    obtain ⟨r, c⟩ := p
    obtain ⟨hp, hnd'⟩ := List.nodup_cons.mp hnd
    simp only [gather] at hok ⊢
    cases hr : read r c with
    | none => simp [hr] at hok
    | some v =>
      simp only [hr] at hok
      simp only
      rcases List.mem_cons.mp hq with rfl | hq'
      · rw [gather_get_other rest _ fun q' hq' heq => hp (hinj _ (List.mem_cons_of_mem _ hq') _ List.mem_cons_self heq ▸ hq')]
        simp [hr]
      · exact ih _ hok hnd' (fun a ha b hb => hinj a (List.mem_cons_of_mem _ ha) b (List.mem_cons_of_mem _ hb)) hq'

/-- An entry that holds a value still holds one. -/
theorem gather_holds_mono (l : List (Nat × Nat)) (m : Scratch w) {i : Nat} (h : m.holds i = true) :
    (gather read index l m).1.holds i = true := by
  induction l generalizing m with
  | nil => simpa [gather] using h
  | cons q rest ih =>
    obtain ⟨r, c⟩ := q
    simp only [gather]
    cases read r c with
    | none => simpa using h
    | some v =>
      refine ih _ ?_
      rw [Scratch.holds, Scratch.get_put]
      split
      · rfl
      · exact h

/-- When the loop comes to its end the entry of every position holds a value. -/
theorem gather_holds (l : List (Nat × Nat)) (m : Scratch w) (hok : (gather read index l m).2 = true)
    {q : Nat × Nat} (hq : q ∈ l) : (gather read index l m).1.holds (index q.1 q.2) = true := by
  induction l generalizing m with
  | nil => cases hq
  | cons p rest ih =>
    obtain ⟨r, c⟩ := p
    simp only [gather] at hok ⊢
    cases hr : read r c with
    | none => simp [hr] at hok
    | some v =>
      simp only [hr] at hok
      simp only
      rcases List.mem_cons.mp hq with rfl | hq'
      · exact gather_holds_mono rest _ (by simp [Scratch.holds])
      · exact ih _ hok hq'

theorem gather_rising (l : List (Nat × Nat)) {m : Scratch w} (h : rising m) : rising (gather read index l m).1 := by
  induction l generalizing m with
  | nil => simpa [gather] using h
  | cons q rest ih =>
    obtain ⟨r, c⟩ := q
    simp only [gather]
    cases read r c with
    | none => exact h
    | some v => exact ih (Scratch.rising_put h _ _)

end gather

/-! `scatter`. -/

section scatter
variable {write : Memory → Nat → Nat → Option Memory}

/-- What every single write keeps, the loop keeps, whether or not it comes to its end. -/
theorem scatter_keeps {P : Memory → Prop} (l : List (Nat × Nat)) {m : Memory} (h : P m)
    (hw : ∀ m m' r c, (r, c) ∈ l → P m → write m r c = some m' → P m') : P (scatter write l m).1 := by
  induction l generalizing m with
  | nil => simpa [scatter] using h
  | cons q rest ih =>
    obtain ⟨r, c⟩ := q
    simp only [scatter]
    cases hr : write m r c with
    | none => exact h
    | some m' =>
      exact ih (hw _ _ _ _ List.mem_cons_self h hr) fun a b r c hm => hw a b r c (List.mem_cons_of_mem _ hm)

/-- When a write is accepted or not whatever memory holds, the loop comes to its end iff every write is accepted. -/
theorem scatter_ok_iff {ok : Nat → Nat → Prop} (l : List (Nat × Nat)) (m : Memory)
    (hw : ∀ m r c, (∃ m', write m r c = some m') ↔ ok r c) :
    (scatter write l m).2 = true ↔ ∀ q ∈ l, ok q.1 q.2 := by
  induction l generalizing m with
  | nil => simp [scatter]
  | cons q rest ih =>
    obtain ⟨r, c⟩ := q
    have hq := hw m r c
    simp only [scatter]
    cases hr : write m r c with
    | none =>
      have : ¬ ok r c := fun h => by simpa [hr] using hq.mpr h
      simp [this]
    | some m' =>
      have : ok r c := hq.mp ⟨m', hr⟩
      simp [ih, this]

/-- The loop over a list split at a position whose write is refused stops with what the positions before it wrote. -/
theorem scatter_stops (before after : List (Nat × Nat)) (q : Nat × Nat) (m : Memory)
    (hok : (scatter write before m).2 = true) (hq : ∀ m, write m q.1 q.2 = none) :
    scatter write (before ++ q :: after) m = ((scatter write before m).1, false) := by
  induction before generalizing m with
  | nil => simp [scatter, hq]
  | cons p rest ih =>
    obtain ⟨r, c⟩ := p
    simp only [List.cons_append, scatter] at hok ⊢
    cases hr : write m r c with
    | none => simp [hr] at hok
    | some m' =>
      simp only [hr] at hok
      simpa using ih m' hok

/-- When the loop comes to its end, what the write at a position establishes and every other position's write keeps holds at the end. -/
theorem scatter_establishes {P : Nat × Nat → Memory → Prop} (l : List (Nat × Nat)) (m : Memory)
    (hok : (scatter write l m).2 = true) (hnd : l.Nodup)
    (hset : ∀ m m' r c, (r, c) ∈ l → write m r c = some m' → P (r, c) m')
    (hkeep : ∀ m m' r c q, (r, c) ∈ l → q ∈ l → q ≠ (r, c) → P q m → write m r c = some m' → P q m')
    {q : Nat × Nat} (hq : q ∈ l) : P q (scatter write l m).1 := by
  induction l generalizing m with
  | nil => cases hq
  | cons p rest ih =>
    obtain ⟨r, c⟩ := p
    obtain ⟨hp, hnd'⟩ := List.nodup_cons.mp hnd
    simp only [scatter] at hok ⊢
    cases hr : write m r c with
    | none => simp [hr] at hok
    | some m' =>
      simp only [hr] at hok
      simp only
      rcases List.mem_cons.mp hq with rfl | hq'
      · refine scatter_keeps rest (hset _ _ _ _ List.mem_cons_self hr) fun a b r' c' hm hP hw => ?_
        exact hkeep a b r' c' _ (List.mem_cons_of_mem _ hm) List.mem_cons_self (fun h => hp (h ▸ hm)) hP hw
      · exact ih m' hok hnd' (fun a b r c hm => hset a b r c (List.mem_cons_of_mem _ hm))
          (fun a b r c q hm hq => hkeep a b r c q (List.mem_cons_of_mem _ hm) (List.mem_cons_of_mem _ hq)) hq'

end scatter

/-! `skipScan`. -/

/-- A scan of readable entries answers whether every flag is 1. -/
theorem skipScan_eq_some {read : Nat → Nat → Option (BitVec 1)} {flag : Nat → Nat → BitVec 1} (l : List (Nat × Nat))
    (h : ∀ q ∈ l, read q.1 q.2 = some (flag q.1 q.2)) :
    skipScan read l = some (l.all fun q => decide (flag q.1 q.2 = 1#1)) := by
  induction l with
  | nil => rfl
  | cons q rest ih =>
    obtain ⟨r, c⟩ := q
    simp only [skipScan, h (r, c) List.mem_cons_self, ih fun q hq => h q (List.mem_cons_of_mem _ hq), List.all_cons]

/-- A scan fails iff some read raises a fault. -/
theorem skipScan_eq_none {read : Nat → Nat → Option (BitVec 1)} (l : List (Nat × Nat)) :
    skipScan read l = none ↔ ∃ q ∈ l, read q.1 q.2 = none := by
  induction l with
  | nil => simp [skipScan]
  | cons q rest ih =>
    obtain ⟨r, c⟩ := q
    simp only [skipScan]
    cases hr : read r c with
    | none => simp [hr]
    | some v =>
      cases hs : skipScan read rest with
      | none =>
        obtain ⟨q, hq, hn⟩ := ih.mp hs
        simp only [true_iff]
        exact ⟨q, List.mem_cons_of_mem _ hq, hn⟩
      | some b =>
        simp only [reduceCtorEq, List.mem_cons, exists_eq_or_imp, hr, false_or, false_iff]
        rintro ⟨q, hq, hn⟩
        rw [ih.mpr ⟨q, hq, hn⟩] at hs
        cases hs

end Sys2Proof.Machine
end

