-- ==== Sys2Proof/Laws/State.lean ====
section
/-! SUPPORT. One lemma per field of the state for each shared update of it, and the laws of the per-plane registers: later proofs do not unfold a record
update. -/

namespace Sys2Proof

@[simp] theorem PerPlane.ofFn_get_0 {α : Type} (f : Plane → α) : (PerPlane.ofFn f).get 0 = f 0 := rfl
@[simp] theorem PerPlane.ofFn_get_1 {α : Type} (f : Plane → α) : (PerPlane.ofFn f).get 1 = f 1 := rfl
@[simp] theorem PerPlane.ofFn_get_2 {α : Type} (f : Plane → α) : (PerPlane.ofFn f).get 2 = f 2 := rfl

@[simp] theorem PerPlane.get_ofFn {α : Type} (f : Plane → α) (p : Plane) : (PerPlane.ofFn f).get p = f p := by
  fin_cases p <;> rfl

@[simp] theorem PerPlane.get_set_same {α : Type} (x : PerPlane α) (p : Plane) (v : α) : (x.set p v).get p = v := by
  fin_cases p <;> rfl

theorem PerPlane.get_set_other {α : Type} (x : PerPlane α) {p q : Plane} (v : α) (h : q ≠ p) : (x.set p v).get q = x.get q := by
  fin_cases p <;> fin_cases q <;> first | rfl | exact absurd rfl h

theorem PerPlane.get_set {α : Type} (x : PerPlane α) (p q : Plane) (v : α) :
    (x.set p v).get q = if q = p then v else x.get q := by
  split
  · next h => rw [h, PerPlane.get_set_same]
  · next h => exact PerPlane.get_set_other x v h

/-- Two per-plane values are equal when they agree on every plane. -/
theorem PerPlane.ext_get {α : Type} {x y : PerPlane α} (h : ∀ p, x.get p = y.get p) : x = y := by
  cases x
  cases y
  have h0 := h 0
  have h1 := h 1
  have h2 := h 2
  simp only [PerPlane.get] at h0 h1 h2
  simp [h0, h1, h2]

end Sys2Proof

namespace Sys2Proof.Machine

@[simp] theorem State.goTo_params (s : State) (op : BitVec 4) (r c : BitVec 13) (p : Plane) : (s.goTo op r c p).params = s.params := rfl
@[simp] theorem State.goTo_cfg (s : State) (op : BitVec 4) (r c : BitVec 13) (p : Plane) : (s.goTo op r c p).cfg = s.cfg := rfl
@[simp] theorem State.goTo_irqEn (s : State) (op : BitVec 4) (r c : BitVec 13) (p : Plane) : (s.goTo op r c p).irqEn = s.irqEn := rfl
@[simp] theorem State.goTo_callState (s : State) (op : BitVec 4) (r c : BitVec 13) (p : Plane) : (s.goTo op r c p).callState = s.callState := rfl
@[simp] theorem State.goTo_illcmd (s : State) (op : BitVec 4) (r c : BitVec 13) (p : Plane) : (s.goTo op r c p).illcmd = s.illcmd := rfl
@[simp] theorem State.goTo_err (s : State) (op : BitVec 4) (r c : BitVec 13) (p : Plane) : (s.goTo op r c p).err = s.err := rfl
@[simp] theorem State.goTo_pc (s : State) (op : BitVec 4) (r c : BitVec 13) (p : Plane) : (s.goTo op r c p).pc = ⟨op, r, c, p⟩ := rfl
@[simp] theorem State.goTo_work (s : State) (op : BitVec 4) (r c : BitVec 13) (p : Plane) : (s.goTo op r c p).work = s.work := rfl
@[simp] theorem State.goTo_wbuf (s : State) (op : BitVec 4) (r c : BitVec 13) (p : Plane) : (s.goTo op r c p).wbuf = s.wbuf := rfl
@[simp] theorem State.goTo_bskip (s : State) (op : BitVec 4) (r c : BitVec 13) (p : Plane) : (s.goTo op r c p).bskip = s.bskip := rfl
@[simp] theorem State.goTo_dir (s : State) (op : BitVec 4) (r c : BitVec 13) (p : Plane) : (s.goTo op r c p).dir = s.dir := rfl
@[simp] theorem State.goTo_dst (s : State) (op : BitVec 4) (r c : BitVec 13) (p : Plane) : (s.goTo op r c p).dst = s.dst := rfl
@[simp] theorem State.goTo_bskipAlloc (s : State) (op : BitVec 4) (r c : BitVec 13) (p : Plane) : (s.goTo op r c p).bskipAlloc = s.bskipAlloc := rfl
@[simp] theorem State.goTo_wbufAlloc (s : State) (op : BitVec 4) (r c : BitVec 13) (p : Plane) : (s.goTo op r c p).wbufAlloc = s.wbufAlloc := rfl
@[simp] theorem State.goTo_mem (s : State) (op : BitVec 4) (r c : BitVec 13) (p : Plane) : (s.goTo op r c p).mem = s.mem := rfl
@[simp] theorem State.goTo_inbox (s : State) (op : BitVec 4) (r c : BitVec 13) (p : Plane) : (s.goTo op r c p).inbox = s.inbox := rfl
@[simp] theorem State.goTo_rdata (s : State) (op : BitVec 4) (r c : BitVec 13) (p : Plane) : (s.goTo op r c p).rdata = s.rdata := rfl

@[simp] theorem State.goOn_params (s : State) (op : BitVec 4) : (s.goOn op).params = s.params := rfl
@[simp] theorem State.goOn_cfg (s : State) (op : BitVec 4) : (s.goOn op).cfg = s.cfg := rfl
@[simp] theorem State.goOn_irqEn (s : State) (op : BitVec 4) : (s.goOn op).irqEn = s.irqEn := rfl
@[simp] theorem State.goOn_callState (s : State) (op : BitVec 4) : (s.goOn op).callState = s.callState := rfl
@[simp] theorem State.goOn_illcmd (s : State) (op : BitVec 4) : (s.goOn op).illcmd = s.illcmd := rfl
@[simp] theorem State.goOn_err (s : State) (op : BitVec 4) : (s.goOn op).err = s.err := rfl
@[simp] theorem State.goOn_pc (s : State) (op : BitVec 4) : (s.goOn op).pc = { s.pc with op := op } := rfl
@[simp] theorem State.goOn_work (s : State) (op : BitVec 4) : (s.goOn op).work = s.work := rfl
@[simp] theorem State.goOn_wbuf (s : State) (op : BitVec 4) : (s.goOn op).wbuf = s.wbuf := rfl
@[simp] theorem State.goOn_bskip (s : State) (op : BitVec 4) : (s.goOn op).bskip = s.bskip := rfl
@[simp] theorem State.goOn_dir (s : State) (op : BitVec 4) : (s.goOn op).dir = s.dir := rfl
@[simp] theorem State.goOn_dst (s : State) (op : BitVec 4) : (s.goOn op).dst = s.dst := rfl
@[simp] theorem State.goOn_bskipAlloc (s : State) (op : BitVec 4) : (s.goOn op).bskipAlloc = s.bskipAlloc := rfl
@[simp] theorem State.goOn_wbufAlloc (s : State) (op : BitVec 4) : (s.goOn op).wbufAlloc = s.wbufAlloc := rfl
@[simp] theorem State.goOn_mem (s : State) (op : BitVec 4) : (s.goOn op).mem = s.mem := rfl
@[simp] theorem State.goOn_inbox (s : State) (op : BitVec 4) : (s.goOn op).inbox = s.inbox := rfl
@[simp] theorem State.goOn_rdata (s : State) (op : BitVec 4) : (s.goOn op).rdata = s.rdata := rfl

@[simp] theorem raiseFault_params (e : ErrCode) (op : BitVec 4) (s : State) : (raiseFault e op s).params = s.params := rfl
@[simp] theorem raiseFault_cfg (e : ErrCode) (op : BitVec 4) (s : State) : (raiseFault e op s).cfg = s.cfg := rfl
@[simp] theorem raiseFault_irqEn (e : ErrCode) (op : BitVec 4) (s : State) : (raiseFault e op s).irqEn = s.irqEn := rfl
@[simp] theorem raiseFault_callState (e : ErrCode) (op : BitVec 4) (s : State) : (raiseFault e op s).callState = s.callState := rfl
@[simp] theorem raiseFault_illcmd (e : ErrCode) (op : BitVec 4) (s : State) : (raiseFault e op s).illcmd = s.illcmd := rfl
@[simp] theorem raiseFault_err (e : ErrCode) (op : BitVec 4) (s : State) : (raiseFault e op s).err = s.err := rfl
@[simp] theorem raiseFault_pc (e : ErrCode) (op : BitVec 4) (s : State) : (raiseFault e op s).pc = { s.pc with op := opTeardown } := rfl
@[simp] theorem raiseFault_work (e : ErrCode) (op : BitVec 4) (s : State) : (raiseFault e op s).work = { s.work with errPend := e, failop := op } := rfl
@[simp] theorem raiseFault_wbuf (e : ErrCode) (op : BitVec 4) (s : State) : (raiseFault e op s).wbuf = s.wbuf := rfl
@[simp] theorem raiseFault_bskip (e : ErrCode) (op : BitVec 4) (s : State) : (raiseFault e op s).bskip = s.bskip := rfl
@[simp] theorem raiseFault_dir (e : ErrCode) (op : BitVec 4) (s : State) : (raiseFault e op s).dir = s.dir := rfl
@[simp] theorem raiseFault_dst (e : ErrCode) (op : BitVec 4) (s : State) : (raiseFault e op s).dst = s.dst := rfl
@[simp] theorem raiseFault_bskipAlloc (e : ErrCode) (op : BitVec 4) (s : State) : (raiseFault e op s).bskipAlloc = s.bskipAlloc := rfl
@[simp] theorem raiseFault_wbufAlloc (e : ErrCode) (op : BitVec 4) (s : State) : (raiseFault e op s).wbufAlloc = s.wbufAlloc := rfl
@[simp] theorem raiseFault_mem (e : ErrCode) (op : BitVec 4) (s : State) : (raiseFault e op s).mem = s.mem := rfl
@[simp] theorem raiseFault_inbox (e : ErrCode) (op : BitVec 4) (s : State) : (raiseFault e op s).inbox = s.inbox := rfl
@[simp] theorem raiseFault_rdata (e : ErrCode) (op : BitVec 4) (s : State) : (raiseFault e op s).rdata = s.rdata := rfl

@[simp] theorem setIllcmd_params (s : State) : (setIllcmd s).params = s.params := rfl
@[simp] theorem setIllcmd_cfg (s : State) : (setIllcmd s).cfg = s.cfg := rfl
@[simp] theorem setIllcmd_irqEn (s : State) : (setIllcmd s).irqEn = s.irqEn := rfl
@[simp] theorem setIllcmd_callState (s : State) : (setIllcmd s).callState = s.callState := rfl
@[simp] theorem setIllcmd_illcmd (s : State) : (setIllcmd s).illcmd = true := rfl
@[simp] theorem setIllcmd_err (s : State) : (setIllcmd s).err = s.err := rfl
@[simp] theorem setIllcmd_pc (s : State) : (setIllcmd s).pc = s.pc := rfl
@[simp] theorem setIllcmd_work (s : State) : (setIllcmd s).work = s.work := rfl
@[simp] theorem setIllcmd_wbuf (s : State) : (setIllcmd s).wbuf = s.wbuf := rfl
@[simp] theorem setIllcmd_bskip (s : State) : (setIllcmd s).bskip = s.bskip := rfl
@[simp] theorem setIllcmd_dir (s : State) : (setIllcmd s).dir = s.dir := rfl
@[simp] theorem setIllcmd_dst (s : State) : (setIllcmd s).dst = s.dst := rfl
@[simp] theorem setIllcmd_bskipAlloc (s : State) : (setIllcmd s).bskipAlloc = s.bskipAlloc := rfl
@[simp] theorem setIllcmd_wbufAlloc (s : State) : (setIllcmd s).wbufAlloc = s.wbufAlloc := rfl
@[simp] theorem setIllcmd_mem (s : State) : (setIllcmd s).mem = s.mem := rfl
@[simp] theorem setIllcmd_inbox (s : State) : (setIllcmd s).inbox = s.inbox := rfl
@[simp] theorem setIllcmd_rdata (s : State) : (setIllcmd s).rdata = s.rdata := rfl

@[simp] theorem hardReset_params (m : Memory) (s : State) : (hardReset m s).params = s.params := rfl
@[simp] theorem hardReset_cfg (m : Memory) (s : State) : (hardReset m s).cfg = State.reset.cfg := rfl
@[simp] theorem hardReset_irqEn (m : Memory) (s : State) : (hardReset m s).irqEn = State.reset.irqEn := rfl
@[simp] theorem hardReset_callState (m : Memory) (s : State) : (hardReset m s).callState = State.reset.callState := rfl
@[simp] theorem hardReset_illcmd (m : Memory) (s : State) : (hardReset m s).illcmd = State.reset.illcmd := rfl
@[simp] theorem hardReset_err (m : Memory) (s : State) : (hardReset m s).err = State.reset.err := rfl
@[simp] theorem hardReset_pc (m : Memory) (s : State) : (hardReset m s).pc = State.reset.pc := rfl
@[simp] theorem hardReset_work (m : Memory) (s : State) : (hardReset m s).work = State.reset.work := rfl
@[simp] theorem hardReset_wbuf (m : Memory) (s : State) : (hardReset m s).wbuf = State.reset.wbuf := rfl
@[simp] theorem hardReset_bskip (m : Memory) (s : State) : (hardReset m s).bskip = State.reset.bskip := rfl
@[simp] theorem hardReset_dir (m : Memory) (s : State) : (hardReset m s).dir = State.reset.dir := rfl
@[simp] theorem hardReset_dst (m : Memory) (s : State) : (hardReset m s).dst = State.reset.dst := rfl
@[simp] theorem hardReset_bskipAlloc (m : Memory) (s : State) : (hardReset m s).bskipAlloc = State.reset.bskipAlloc := rfl
@[simp] theorem hardReset_wbufAlloc (m : Memory) (s : State) : (hardReset m s).wbufAlloc = State.reset.wbufAlloc := rfl
@[simp] theorem hardReset_mem (m : Memory) (s : State) : (hardReset m s).mem = m := rfl
@[simp] theorem hardReset_inbox (m : Memory) (s : State) : (hardReset m s).inbox = s.inbox := rfl
@[simp] theorem hardReset_rdata (m : Memory) (s : State) : (hardReset m s).rdata = State.reset.rdata := rfl

end Sys2Proof.Machine
end

