-- ==== Sys2Proof/Laws/Operands.lean ====
section
/-! SUPPORT. One spec lemma for each operand form: samples read and written, addresses of samples, the registers PLANEACT derives, the ranges of the level and
of the threshold, the next plane. -/

namespace Sys2Proof.Machine

/-- A 1-bit field is 0 or 1. -/
theorem bit_cases (b : BitVec 1) : b = 0#1 ∨ b = 1#1 := by
  revert b; decide

theorem sbytes_cases (c : Cfg) : (c.hbd = 0#1 ∧ sbytes c = 1) ∨ (c.hbd = 1#1 ∧ sbytes c = 2) := by
  rcases bit_cases c.hbd with h | h <;> simp [sbytes, h]

/-! Samples. -/

theorem readSample_eq_some {prm : Params} {c : Cfg} {m : Memory} {p : Plane} {row col : Nat}
    (h : SampleAcceptable prm c p row col) : readSample prm c m p row col = some (sampleIn c m p row col) := by
  rcases sbytes_cases c with ⟨hb, hs⟩ | ⟨hb, hs⟩
  · have h0 := h 0 (by omega)
    simp only [Nat.add_zero] at h0
    simp [readSample, sampleIn, hb, memRead1, h0]
  · have h0 := h 0 (by omega)
    have h1 := h 1 (by omega)
    simp only [Nat.add_zero] at h0
    simp [readSample, sampleIn, hb, memRead2, h0, h1]

theorem readSample_eq_none {prm : Params} {c : Cfg} {m : Memory} {p : Plane} {row col : Nat}
    (h : ¬ SampleAcceptable prm c p row col) : readSample prm c m p row col = none := by
  rcases sbytes_cases c with ⟨hb, hs⟩ | ⟨hb, hs⟩
  · have : acceptable prm (sampleAddr c p row col) = false := by
      by_contra hc
      refine h fun b hlt => ?_
      have : b = 0 := by omega
      subst this
      simpa using hc
    simp [readSample, hb, memRead1, this]
  · have : (acceptable prm (sampleAddr c p row col) && acceptable prm (sampleAddr c p row col + 1)) = false := by
      by_contra hc
      rw [Bool.not_eq_false, Bool.and_eq_true] at hc
      refine h fun b hlt => ?_
      rcases (show b = 0 ∨ b = 1 by omega) with rfl | rfl
      · simpa using hc.1
      · exact hc.2
    simp only [readSample, hb, memRead2, this]
    simp

theorem readSample_some_iff {prm : Params} {c : Cfg} {m : Memory} {p : Plane} {row col : Nat} :
    (∃ v, readSample prm c m p row col = some v) ↔ SampleAcceptable prm c p row col := by
  constructor
  · rintro ⟨v, hv⟩
    by_contra h
    rw [readSample_eq_none h] at hv
    cases hv
  · exact fun h => ⟨_, readSample_eq_some h⟩

theorem writeSample_some_iff {prm : Params} {c : Cfg} {m : Memory} {p : Plane} {row col : Nat} {v : Sample} :
    (∃ m', writeSample prm c m p row col v = some m') ↔ SampleAcceptable prm c p row col := by
  rcases sbytes_cases c with ⟨hb, hs⟩ | ⟨hb, hs⟩
  · simp only [writeSample, hb, memWrite1, SampleAcceptable, hs]
    constructor
    · rintro ⟨m', hm⟩ b hlt
      have : b = 0 := by omega
      subst this
      by_contra hc
      simp [Bool.not_eq_true] at hc
      simp [hc] at hm
    · intro h
      have h0 := h 0 (by omega)
      simp only [Nat.add_zero] at h0
      simp [h0]
  · simp only [writeSample, hb, memWrite2, SampleAcceptable, hs]
    constructor
    · rintro ⟨m', hm⟩ b hlt
      by_cases hc : (acceptable prm (sampleAddr c p row col) && acceptable prm (sampleAddr c p row col + 1)) = true
      · rw [Bool.and_eq_true] at hc
        rcases (show b = 0 ∨ b = 1 by omega) with rfl | rfl
        · simpa using hc.1
        · exact hc.2
      · simp [hc] at hm
    · intro h
      have h0 := h 0 (by omega)
      have h1 := h 1 (by omega)
      simp only [Nat.add_zero] at h0
      simp [h0, h1]

/-- What an accepted `WriteSample` does: the sample is there, every other byte is as before, the canonical form is kept. -/
theorem writeSample_spec {prm : Params} {c : Cfg} {m m' : Memory} {p : Plane} {row col : Nat} {v : Sample}
    (h : writeSample prm c m p row col v = some m') :
    HoldsSample c m' p row col v ∧ (∀ a, ¬ IsSampleByte c p row col a → m'.read a = m.read a) ∧ (m.wf → m'.wf) := by
  rcases sbytes_cases c with ⟨hb, hs⟩ | ⟨hb, hs⟩
  · simp only [writeSample, hb, if_true] at h
    refine ⟨?_, fun a ha => ?_, fun hm => memWrite1_wf hm h⟩
    · obtain ⟨_, rfl⟩ := memWrite1_eq_some h
      simp [HoldsSample, hb]
    · obtain ⟨_, rfl⟩ := memWrite1_eq_some h
      exact Memory.read_write_other _ _ fun he => ha ⟨0, by omega, by simpa using he⟩
  · simp only [writeSample, hb] at h
    rw [if_neg (by decide)] at h
    refine ⟨?_, fun a ha => ?_, fun hm => memWrite2_wf hm h⟩
    · obtain ⟨_, _, rfl⟩ := memWrite2_eq_some h
      simp [HoldsSample, hb, Memory.read_write]
    · obtain ⟨_, _, rfl⟩ := memWrite2_eq_some h
      rw [Memory.read_write_other _ _ fun he => ha ⟨1, by omega, he⟩,
        Memory.read_write_other _ _ fun he => ha ⟨0, by omega, by simpa using he⟩]

/-- Bytes of different samples of a plane are different when columns are below the stride. -/
theorem sampleByte_injective {c : Cfg} {p : Plane} {r k r' k' a : Nat} (hk : k < (c.planes.get p).stride.toNat)
    (hk' : k' < (c.planes.get p).stride.toNat) (h : IsSampleByte c p r k a) (h' : IsSampleByte c p r' k' a) :
    r = r' ∧ k = k' := by
  obtain ⟨b, hb, rfl⟩ := h
  obtain ⟨b', hb', he⟩ := h'
  have key : r * (c.planes.get p).stride.toNat + k = r' * (c.planes.get p).stride.toNat + k' := by
    rcases sbytes_cases c with ⟨_, hs⟩ | ⟨_, hs⟩ <;> simp only [sampleAddr, hs] at * <;> omega
  have hpos : 0 < (c.planes.get p).stride.toNat := by omega
  have hr : r = r' := by
    have h1 : (r * (c.planes.get p).stride.toNat + k) / (c.planes.get p).stride.toNat = r := by
      rw [Nat.mul_comm, Nat.mul_add_div hpos, Nat.div_eq_of_lt hk, Nat.add_zero]
    have h2 : (r' * (c.planes.get p).stride.toNat + k') / (c.planes.get p).stride.toNat = r' := by
      rw [Nat.mul_comm, Nat.mul_add_div hpos, Nat.div_eq_of_lt hk', Nat.add_zero]
    rw [← h1, ← h2, key]
  subst hr
  exact ⟨rfl, by omega⟩

/-- A sample stays held while none of its bytes changes. -/
theorem HoldsSample.congr {c : Cfg} {m m' : Memory} {p : Plane} {row col : Nat} {v : Sample}
    (h : HoldsSample c m p row col v) (hsame : ∀ a, IsSampleByte c p row col a → m'.read a = m.read a) :
    HoldsSample c m' p row col v := by
  rcases sbytes_cases c with ⟨hb, hs⟩ | ⟨hb, hs⟩
  · simp only [HoldsSample, hb, if_true] at h ⊢
    rw [hsame _ ⟨0, by omega, by simp⟩, h]
  · simp only [HoldsSample, hb] at h ⊢
    rw [if_neg (by decide)] at h ⊢
    rw [hsame _ ⟨0, by omega, by simp⟩, hsame _ ⟨1, by omega, rfl⟩]
    exact h

/-! Mode-info entries. -/

theorem miSkip_eq_some {p : Params} {c : Cfg} {m : Memory} {r k : Nat} (h : acceptable p (miAddr c r k) = true) :
    miSkip p c m r k = some (entrySkip (m.read (miAddr c r k))) := by
  simp [miSkip, miRead, memRead1, h]

theorem miSkip_eq_none {p : Params} {c : Cfg} {m : Memory} {r k : Nat} (h : acceptable p (miAddr c r k) = false) :
    miSkip p c m r k = none := by
  simp [miSkip, miRead, memRead1, h]

theorem entrySkip_eq_one (e : Byte) : entrySkip e = 1#1 ↔ e.toNat % 2 = 1 := by
  revert e; decide

/-! Derived registers. -/

theorem unitSpan_toNat (ss : BitVec 1) : (unitSpan ss).toNat = 8 / 2 ^ ss.toNat := by
  rcases bit_cases ss with h | h <;> subst h <;> decide

theorem unitSpan_toNat_shift (ss : BitVec 1) : (unitSpan ss).toNat = 8 >>> ss.toNat := by
  rcases bit_cases ss with h | h <;> subst h <;> decide

theorem unitSpan_le (ss : BitVec 1) : 4 ≤ (unitSpan ss).toNat ∧ (unitSpan ss).toNat ≤ 8 := by
  rcases bit_cases ss with h | h <;> subst h <;> decide

theorem superblocks_toNat (n : BitVec 16) : (superblocks n).toNat = (n.toNat + 7) / 8 := by
  have := n.isLt
  simp only [superblocks, ceilDiv, maxMibSize, BitVec.toNat_ofNat]
  rw [Nat.mod_eq_of_lt] <;> omega

theorem superblocks_le (n : BitVec 16) : (superblocks n).toNat ≤ 8192 := by
  have := n.isLt
  rw [superblocks_toNat]
  omega

theorem workStride_toNat (c : Cfg) : (workStride c).toNat = 8 * c.miCols.toNat := by
  have := c.miCols.isLt
  simp only [workStride, BitVec.toNat_ofNat]
  rw [Nat.mod_eq_of_lt]
  omega

theorem coeffShiftOf_toNat (d : BitVec 4) : (coeffShiftOf d).toNat = d.toNat - 8 := by
  have := d.isLt
  simp only [coeffShiftOf, BitVec.toNat_ofNat]
  rw [Nat.mod_eq_of_lt]
  omega

theorem activePlanes_cases (c : Cfg) : activePlanes c = 3#2 ∨ activePlanes c = 1#2 := by
  simp only [activePlanes]
  split
  · exact .inl rfl
  · exact .inr rfl

theorem activePlanes_toNat_cases (c : Cfg) : (activePlanes c).toNat = 3 ∨ (activePlanes c).toNat = 1 := by
  rcases activePlanes_cases c with h | h <;> rw [h] <;> decide

/-! Level and threshold. -/

theorem maxLevel_bounds (p : Params) : 4 ≤ maxLevel p ∧ maxLevel p ≤ 256 := by
  have := p.maxLevelOver4.isLt
  simp only [maxLevel]
  omega

theorem levelMapper_lt {maxLvl gl : Nat} (h : 4 ≤ maxLvl) (gi : BitVec 2) : levelMapper maxLvl gl gi < maxLvl := by
  have := gi.isLt
  simp only [levelMapper, clamp]
  split
  · omega
  · split
    · omega
    · split <;> omega

theorem thresholdOf_lt (p : Plane) {level shift : Nat} (hl : level < 256) (hs : shift < 8) :
    thresholdOf p level shift < 2 ^ 16 := by
  simp only [thresholdOf, Nat.shiftLeft_eq, Nat.shiftRight_eq_div_pow]
  have hpow : 2 ^ shift ≤ 2 ^ 7 := Nat.pow_le_pow_right (by omega) (by omega)
  split
  · calc level * 2 ^ shift ≤ 255 * 2 ^ 7 := Nat.mul_le_mul (by omega) hpow
      _ < 2 ^ 16 := by norm_num
  · calc (level * 5 + 4) / 2 ^ 3 * 2 ^ shift ≤ 159 * 2 ^ 7 := Nat.mul_le_mul (by omega) hpow
      _ < 2 ^ 16 := by norm_num

theorem thresholdOf_pos (p : Plane) {level shift : Nat} (hl : 1 ≤ level) : 1 ≤ thresholdOf p level shift := by
  simp only [thresholdOf, Nat.shiftLeft_eq, Nat.shiftRight_eq_div_pow]
  have hpow : 1 ≤ 2 ^ shift := Nat.one_le_two_pow
  split
  · exact Nat.mul_pos hl hpow
  · exact Nat.mul_pos (by omega) hpow

/-! Planes. -/

theorem nextPlane_eq_some {pli : Plane} {n : BitVec 2} {q : Plane} (h : nextPlane pli n = some q) :
    q.val = pli.val + 1 ∧ q.val < n.toNat := by
  unfold nextPlane at h
  split at h
  · next hlt => cases h; exact ⟨rfl, hlt⟩
  · cases h

theorem nextPlane_eq_none {pli : Plane} {n : BitVec 2} : nextPlane pli n = none ↔ ¬ pli.val + 1 < n.toNat := by
  unfold nextPlane
  split <;> simp_all

end Sys2Proof.Machine
end

