-- ==== Sys2Proof/Laws/Exec.lean ====
section
/-! SUPPORT. One inversion lemma for each instruction whose meaning branches: if `exec` answers a next state, then it is one of these. Later proofs cite them and
do not unfold the meanings. -/

namespace Sys2Proof.Machine

/-- What a write to the register port can do to the state. -/
theorem writePort_cases (r : Reg) (d : Word) (s : State) :
    writePort r d s = s ∨ (∃ b, writePort r d s = { s with irqEn := b }) ∨
      (s.callState ≠ .busy ∧ ∃ c, writePort r d s = { s with cfg := c }) ∨
      (r = .cmd ∧ writePort r d s = runCommand d s) := by
  have hcfg : ∀ r', writeConfig r' d s = s ∨ (s.callState ≠ .busy ∧ ∃ c, writeConfig r' d s = { s with cfg := c }) := by
    intro r'
    unfold writeConfig
    split
    · exact .inl rfl
    · next h => exact .inr ⟨h, _, rfl⟩
  cases r <;> simp only [writePort]
  case cmd => exact .inr (.inr (.inr ⟨trivial, trivial⟩))
  case ctrl => exact .inr (.inl ⟨_, rfl⟩)
  case status => exact .inl trivial
  case seqpos => exact .inl trivial
  case reserved => exact .inl trivial
  all_goals
    rcases hcfg _ with h | h
    · exact .inl h
    · exact .inr (.inr (.inl h))

/-- What a command word can do to the state. -/
theorem runCommand_cases (d : Word) (s : State) :
    runCommand d s = s ∨ runCommand d s = startCall s ∨ (d = 2#32 ∧ runCommand d s = acknowledge s) ∨
      runCommand d s = setIllcmd s := by
  unfold runCommand
  split
  · exact .inl rfl
  · split
    · exact .inr (.inl rfl)
    · split
      · next h => exact .inr (.inr (.inl ⟨h, rfl⟩))
      · exact .inr (.inr (.inr rfl))

/-- `CMD.START` begins a call or sets `ILLCMD`. -/
theorem startCall_cases (s : State) :
    (s.callState = .idle ∧ startCall s =
      { s with
        callState := .busy, err := .noError, pc := ⟨opPlaneact, 0#13, 0#13, 0⟩
        work := { s.work with errPend := .noError, failop := 0#4 } }) ∨
    (s.callState ≠ .idle ∧ startCall s = setIllcmd s) := by
  unfold startCall
  cases h : s.callState <;> simp

/-- `CMD.ACK` ends a call or sets `ILLCMD`. -/
theorem acknowledge_cases (s : State) :
    (s.callState ≠ .busy ∧ acknowledge s = { s with callState := .idle, illcmd := false }) ∨
    (s.callState = .busy ∧ acknowledge s = setIllcmd s) := by
  obtain ⟨_, _, _, callState, _, _, _, _, _, _, _, _, _, _, _, _, _⟩ := s
  cases callState <;> simp [acknowledge]

theorem execRd_next {off : BitVec 8} {s t : State} (h : exec (.rd off) s = .next t) :
    offsetAligned off = true ∧ t = { s with rdata := readReg s (regAt off) } := by
  simp only [exec, execRd] at h
  split at h
  · next ha => exact ⟨ha, by simpa using h.symm⟩
  · cases h

theorem execWr_next {off : BitVec 8} {d : Word} {s t : State} (h : exec (.wr off d) s = .next t) :
    offsetAligned off = true ∧ t = writePort (regAt off) d s := by
  simp only [exec, execWr] at h
  split at h
  · next ha => exact ⟨ha, by simpa using h.symm⟩
  · cases h

theorem execAlloc_cases (s : State) :
    (overCapacity s.params s.cfg = true ∧ exec .alloc s = .next (raiseFault .alloc opAlloc s)) ∨
    (overCapacity s.params s.cfg = false ∧ exec .alloc s =
      .next ({ s with
        bskipAlloc := true
        wbufAlloc := PerPlane.ofFn fun p => decide (p.val < s.work.nplanes.toNat) || s.wbufAlloc.get p }.goTo
          opStage 0#13 0#13 0)) := by
  simp only [exec, execAlloc]
  cases h : overCapacity s.params s.cfg <;> simp

theorem execStage_next {s t : State} (h : exec .stage s = .next t) :
    fitsScratch (planeH s s.pc.pli) (planeW s s.pc.pli) s.work.wstride.toNat s.params.wbufCap = true ∧
      (((stagePlane s s.pc.pli).2 = true ∧
          t = afterStage { s with wbuf := s.wbuf.set s.pc.pli (stagePlane s s.pc.pli).1 }) ∨
        ((stagePlane s s.pc.pli).2 = false ∧
          t = raiseFault .bus opStage { s with wbuf := s.wbuf.set s.pc.pli (stagePlane s s.pc.pli).1 })) := by
  simp only [exec, execStage] at h
  split at h
  · next hf =>
    refine ⟨hf, ?_⟩
    cases hok : (stagePlane s s.pc.pli).2
    · rw [hok] at h; exact .inr ⟨rfl, by simpa using h.symm⟩
    · rw [hok] at h; exact .inl ⟨rfl, by simpa using h.symm⟩
  · cases h

/-- What follows `STAGE`. -/
theorem afterStage_cases (s : State) :
    (∃ q : Plane, q.val = s.pc.pli.val + 1 ∧ q.val < s.work.nplanes.toNat ∧ afterStage s = s.goTo opStage 0#13 0#13 q) ∨
    (¬ s.pc.pli.val + 1 < s.work.nplanes.toNat ∧ afterStage s = s.goTo opFlatten 0#13 0#13 s.pc.pli) := by
  unfold afterStage
  cases h : nextPlane s.pc.pli s.work.nplanes with
  | some q => exact .inl ⟨q, (nextPlane_eq_some h).1, (nextPlane_eq_some h).2, rfl⟩
  | none => exact .inr ⟨nextPlane_eq_none.mp h, rfl⟩

theorem execFlatten_next {s t : State} (h : exec .flatten s = .next t) :
    fitsScratch s.cfg.miRows.toNat s.cfg.miCols.toNat s.cfg.miCols.toNat s.params.skipCap = true ∧
      (((flattenGrid s).2 = true ∧ t = afterFlatten { s with bskip := (flattenGrid s).1 }) ∨
        ((flattenGrid s).2 = false ∧ t = raiseFault .bus opFlatten { s with bskip := (flattenGrid s).1 })) := by
  simp only [exec, execFlatten] at h
  split at h
  · next hf =>
    refine ⟨hf, ?_⟩
    cases hok : (flattenGrid s).2
    · rw [hok] at h; exact .inr ⟨rfl, by simpa using h.symm⟩
    · rw [hok] at h; exact .inl ⟨rfl, by simpa using h.symm⟩
  · cases h

theorem execSbsetup_next {s t : State} (h : exec .sbsetup s = .next t) :
    sbCol s ≤ s.cfg.miCols.toNat ∧ sbRow s ≤ s.cfg.miRows.toNat ∧
      t = { s with
        work :=
          { s.work with
            nhb := BitVec.ofNat 4 (min maxMibSize (s.cfg.miCols.toNat - sbCol s))
            nvb := BitVec.ofNat 4 (min maxMibSize (s.cfg.miRows.toNat - sbRow s)) } }.goOn opLevel := by
  simp only [exec, execSbsetup] at h
  split at h
  · next hc => exact ⟨hc.1, hc.2, by simpa using h.symm⟩
  · cases h

theorem execLevel_cases (s : State) :
    (acceptable s.params (miAddr s.cfg (sbRow s) (sbCol s)) = false ∧ exec .level s = .next (raiseFault .bus opLevel s)) ∨
    (acceptable s.params (miAddr s.cfg (sbRow s) (sbCol s)) = true ∧ ∃ lvl,
      lvl = levelMapper (maxLevel s.params) s.cfg.gl.toNat (entryGain (s.mem.read (miAddr s.cfg (sbRow s) (sbCol s)))) ∧
      exec .level s = .next ({ s with work := { s.work with level := BitVec.ofNat 8 lvl } }.goOn
        (if lvl = 0 then opNextsb else opSkipdet))) := by
  simp only [exec, execLevel, miRead, memRead1]
  cases h : acceptable s.params (miAddr s.cfg (sbRow s) (sbCol s)) <;> simp

theorem execSkipdet_next {s t : State} (h : exec .skipdet s = .next t) :
    sbRow s < s.cfg.miRows.toNat ∧ sbCol s < s.cfg.miCols.toNat ∧
      ((skipDetector s.params s.cfg s.mem (sbRow s) (sbCol s) = none ∧ t = raiseFault .bus opSkipdet s) ∨
        (skipDetector s.params s.cfg s.mem (sbRow s) (sbCol s) = some true ∧
          t = { s with work := { s.work with allSkip := true } }.goOn opNextsb) ∨
        (skipDetector s.params s.cfg s.mem (sbRow s) (sbCol s) = some false ∧
          t = { s with work := { s.work with allSkip := false }, dir := Vector.replicate 64 0 }.goTo
            opThresh s.pc.sbr s.pc.sbc 0)) := by
  simp only [exec, execSkipdet] at h
  split at h
  · next hc =>
    refine ⟨hc.1, hc.2, ?_⟩
    cases hd : skipDetector s.params s.cfg s.mem (sbRow s) (sbCol s) with
    | none => rw [hd] at h; exact .inl ⟨rfl, by simpa using h.symm⟩
    | some b =>
      rw [hd] at h
      cases b
      · exact .inr (.inr ⟨rfl, by simpa using h.symm⟩)
      · exact .inr (.inl ⟨rfl, by simpa using h.symm⟩)
  · cases h

theorem kernelWith_next {k : KArgs → KResult} {s t : State} (h : kernelWith k s = .next t) :
    rectH s s.pc.pli ≤ 64 ∧ rectW s s.pc.pli ≤ 64 ∧ stagedReady s s.pc.pli = true ∧ skipReady s = true ∧
      t = { s with
        dst := storeOut s s.pc.pli (k (kernelArgs s s.pc.pli)).out
        dir := storeDir s.params (k (kernelArgs s s.pc.pli)).dir }.goOn opWriteback := by
  simp only [kernelWith] at h
  split at h
  · next hc =>
    split at h
    · next hr =>
      rw [Bool.and_eq_true] at hr
      exact ⟨hc.1, hc.2, hr.1, hr.2, by simpa using h.symm⟩
    · cases h
  · cases h

theorem execWriteback_next {s t : State} (h : exec .writeback s = .next t) :
    dstReady s s.pc.pli = true ∧
      (((writeBack s (rectPositions s)).2 = true ∧
          t = { s with mem := (writeBack s (rectPositions s)).1 }.goOn opNextpl) ∨
        ((writeBack s (rectPositions s)).2 = false ∧
          t = raiseFault .bus opWriteback { s with mem := (writeBack s (rectPositions s)).1 })) := by
  simp only [exec, execWriteback] at h
  split at h
  · next hf =>
    refine ⟨hf, ?_⟩
    cases hok : (writeBack s (rectPositions s)).2
    · rw [hok] at h; exact .inr ⟨rfl, by simpa using h.symm⟩
    · rw [hok] at h; exact .inl ⟨rfl, by simpa using h.symm⟩
  · cases h

theorem execNextpl_cases (s : State) :
    (∃ q : Plane, q.val = s.pc.pli.val + 1 ∧ q.val < s.work.nplanes.toNat ∧
      exec .nextpl s = .next (s.goTo opThresh s.pc.sbr s.pc.sbc q)) ∨
    (¬ s.pc.pli.val + 1 < s.work.nplanes.toNat ∧ exec .nextpl s = .next (s.goOn opNextsb)) := by
  simp only [exec, execNextpl]
  cases h : nextPlane s.pc.pli s.work.nplanes with
  | some q => exact .inl ⟨q, (nextPlane_eq_some h).1, (nextPlane_eq_some h).2, rfl⟩
  | none => exact .inr ⟨nextPlane_eq_none.mp h, rfl⟩

theorem execNextsb_next {s t : State} (h : exec .nextsb s = .next t) :
    (s.pc.sbc.toNat + 1 < s.work.nhsb.toNat ∧ s.pc.sbc.toNat + 1 < 2 ^ 13 ∧
      t = s.goTo opSbsetup s.pc.sbr (s.pc.sbc + 1#13) 0) ∨
    (¬ s.pc.sbc.toNat + 1 < s.work.nhsb.toNat ∧ s.pc.sbr.toNat + 1 < s.work.nvsb.toNat ∧ s.pc.sbr.toNat + 1 < 2 ^ 13 ∧
      t = s.goTo opSbsetup (s.pc.sbr + 1#13) 0#13 0) ∨
    (¬ s.pc.sbc.toNat + 1 < s.work.nhsb.toNat ∧ ¬ s.pc.sbr.toNat + 1 < s.work.nvsb.toNat ∧ t = s.goOn opTeardown) := by
  simp only [exec, execNextsb] at h
  split at h
  · next h1 =>
    split at h
    · next h2 => exact .inl ⟨h1, h2, by simpa using h.symm⟩
    · cases h
  · next h1 =>
    split at h
    · next h2 =>
      split at h
      · next h3 => exact .inr (.inl ⟨h1, h2, h3, by simpa using h.symm⟩)
      · cases h
    · next h2 => exact .inr (.inr ⟨h1, h2, by simpa using h.symm⟩)

/-! Loops over the state. -/

/-- The direction table the kernel left has `DIR_BITS`-bit entries. -/
theorem storeDir_lt (prm : Params) (d : Nat → Nat → Nat) (i : Fin 64) : (storeDir prm d)[i] < 2 ^ prm.dirBits := by
  simp only [storeDir, Fin.getElem_fin, Vector.getElem_ofFn]
  exact Nat.mod_lt _ (Nat.two_pow_pos _)

theorem foldl_put_get_other {out : Nat → Nat → Sample} (l : List (Nat × Nat)) (m : Scratch 16) {i : Nat}
    (h : ∀ q ∈ l, dstIndex q.1 q.2 ≠ i) :
    (l.foldl (fun m q => Scratch.put m (dstIndex q.1 q.2) (out q.1 q.2)) m).get i = m.get i := by
  induction l generalizing m with
  | nil => rfl
  | cons q rest ih =>
    rw [List.foldl_cons, ih _ fun p hp => h p (List.mem_cons_of_mem _ hp)]
    exact Scratch.get_put_other _ _ (Ne.symm (h q List.mem_cons_self))

/-- An entry of the rectangle holds the kernel's output. -/
theorem storeOut_get {s : State} {p : Plane} {out : Nat → Nat → Sample} (hw : rectW s p ≤ 64) {r c : Nat} (hr : r < rectH s p)
    (hc : c < rectW s p) : (storeOut s p out).get (dstIndex r c) = some (out r c) := by
  have key : ∀ (l : List (Nat × Nat)) (m : Scratch 16), l.Nodup → (∀ q ∈ l, q.2 < rectW s p) → (r, c) ∈ l →
      (l.foldl (fun m q => Scratch.put m (dstIndex q.1 q.2) (out q.1 q.2)) m).get (dstIndex r c) = some (out r c) := by
    intro l
    induction l with
    | nil => intro m _ _ h; cases h
    | cons q rest ih =>
      intro m hnd hb hm
      obtain ⟨hq, hnd'⟩ := List.nodup_cons.mp hnd
      rw [List.foldl_cons]
      rcases List.mem_cons.mp hm with rfl | hm'
      · rw [foldl_put_get_other rest]
        · exact Scratch.get_put_same _ _ _
        · intro q hq' he
          have hqb := hb q (List.mem_cons_of_mem _ hq')
          simp only [dstIndex] at he
          have : q = (r, c) := Prod.ext (by omega) (by simp only; omega)
          exact hq (this ▸ hq')
      · exact ih _ hnd' (fun q hq => hb q (List.mem_cons_of_mem _ hq)) hm'
  exact key _ _ (rowMajor_nodup _ _) (fun q hq => (mem_rowMajor.mp hq).2) (mem_rowMajor.mpr ⟨hr, hc⟩)

/-- An entry outside the rectangle is as before. -/
theorem storeOut_get_other {s : State} {p : Plane} {out : Nat → Nat → Sample} {i : Nat}
    (h : ∀ r c, r < rectH s p → c < rectW s p → i ≠ dstIndex r c) : (storeOut s p out).get i = s.dst.get i :=
  foldl_put_get_other _ _ fun _ hq => Ne.symm (h _ _ (mem_rowMajor.mp hq).1 (mem_rowMajor.mp hq).2)

theorem storeOut_rising {s : State} {p : Plane} {out : Nat → Nat → Sample} (h : rising s.dst) : rising (storeOut s p out) := by
  have key : ∀ (l : List (Nat × Nat)) (m : Scratch 16), rising m →
      rising (l.foldl (fun m q => Scratch.put m (dstIndex q.1 q.2) (out q.1 q.2)) m) := by
    intro l
    induction l with
    | nil => exact fun m h => h
    | cons q rest ih => exact fun m h => ih _ (Scratch.rising_put h _ _)
  exact key _ _ h

/-- A `WRITEBACK` through any positions leaves every byte of no sample at them as it was. -/
theorem writeBack_read_other (s : State) (l : List (Nat × Nat)) {a : Nat}
    (h : ∀ q ∈ l, ¬ IsSampleByte s.cfg s.pc.pli (rectRow s s.pc.pli + q.1) (rectCol s s.pc.pli + q.2) a) :
    (writeBack s l).1.read a = s.mem.read a :=
  scatter_keeps (P := fun m => m.read a = s.mem.read a) l rfl fun m m' r c hm hP hw => by
    rw [(writeSample_spec hw).2.1 a (h (r, c) hm), hP]

theorem writeBack_wf (s : State) (l : List (Nat × Nat)) (h : s.mem.wf) : (writeBack s l).1.wf :=
  scatter_keeps (P := fun m => m.wf) l h fun _ _ _ _ _ hP hw => (writeSample_spec hw).2.2 hP

/-- A `WRITEBACK` is accepted iff every sample is acceptable. -/
theorem writeBack_ok_iff (s : State) (l : List (Nat × Nat)) :
    (writeBack s l).2 = true ↔
      ∀ q ∈ l, SampleAcceptable s.params s.cfg s.pc.pli (rectRow s s.pc.pli + q.1) (rectCol s s.pc.pli + q.2) :=
  scatter_ok_iff (ok := fun r c => SampleAcceptable s.params s.cfg s.pc.pli (rectRow s s.pc.pli + r) (rectCol s s.pc.pli + c))
    l s.mem fun _ _ _ => writeSample_some_iff

end Sys2Proof.Machine
end

