-- ==== Sys2Proof/Laws/PerInstr.lean ====
section
/-! SUPPORT. A law of every instruction's encoding, one lemma per constructor: the code word of a well-formed instruction matches its row of
spec/opcode_table.json, that is, its bits under the row's mask are the row's match. -/

namespace Sys2Proof.Laws

/-- The bits of a code word under `mask` are `bits`. -/
def matchesRow (mask bits : Nat) : CodeWord → Bool
  | .bus w => decide (w &&& BitVec.ofNat 41 mask = BitVec.ofNat 41 bits)
  | .cmd w => decide (w &&& BitVec.ofNat 32 mask = BitVec.ofNat 32 bits)
  | .seq w => decide (w &&& BitVec.ofNat 4 mask = BitVec.ofNat 4 bits)

/-- The row's `mask`. -/
def rowMask : Instr → Nat
  | .rd _ => 0x10300000000
  | .wr _ _ => 0x10300000000
  | .cmdNop => 0xFFFFFFFF
  | .cmdStart => 0xFFFFFFFF
  | .cmdAck => 0xFFFFFFFF
  | .planeact => 0xF
  | .alloc => 0xF
  | .stage => 0xF
  | .flatten => 0xF
  | .sbsetup => 0xF
  | .level => 0xF
  | .skipdet => 0xF
  | .thresh => 0xF
  | .kernel => 0xF
  | .writeback => 0xF
  | .nextpl => 0xF
  | .nextsb => 0xF
  | .teardown => 0xF

/-- The row's `match`. -/
def rowBits : Instr → Nat
  | .rd _ => 0x00000000000
  | .wr _ _ => 0x10000000000
  | .cmdNop => 0x00000000
  | .cmdStart => 0x00000001
  | .cmdAck => 0x00000002
  | .planeact => 0x1
  | .alloc => 0x2
  | .stage => 0x3
  | .flatten => 0x4
  | .sbsetup => 0x5
  | .level => 0x6
  | .skipdet => 0x7
  | .thresh => 0x8
  | .kernel => 0x9
  | .writeback => 0xA
  | .nextpl => 0xB
  | .nextsb => 0xC
  | .teardown => 0xD

/-- The instruction's code word matches its row. -/
def TableRow.Statement (i : Instr) : Prop := WellFormed i = true → matchesRow (rowMask i) (rowBits i) (encode i) = true

/-- The bits of a transaction under the mask of the rows RD and WR. -/
theorem busWord_masked (we : BitVec 1) (off : BitVec 8) (data : Word) (h : offsetAligned off = true) :
    busWord we off data &&& BitVec.ofNat 41 0x10300000000 = busWord we 0#8 0#32 := by
  have hb : off[0] = false ∧ off[1] = false := by
    revert h off; decide
  apply BitVec.eq_of_getLsbD_eq
  intro i hi
  rw [BitVec.getLsbD_and, busWord_getLsbD, busWord_getLsbD]
  by_cases hm : i = 32 ∨ i = 33 ∨ i = 40
  · rcases hm with rfl | rfl | rfl
    · simp [hb.1]
    · simp [hb.2]
    · simp
  · have hmask : (BitVec.ofNat 41 0x10300000000).getLsbD i = false := by
      interval_cases i <;> first | rfl | (exfalso; omega)
    rw [hmask, Bool.and_false]
    split
    · simp
    · split
      · simp
      · exfalso; omega

theorem TableRow.rd (off : BitVec 8) : TableRow.Statement (.rd off) := fun h =>
  decide_eq_true ((busWord_masked 0#1 off 0#32 h).trans (show busWord 0#1 0#8 0#32 = 0x00000000000#41 by decide))

theorem TableRow.wr (off : BitVec 8) (data : Word) : TableRow.Statement (.wr off data) := fun h =>
  decide_eq_true ((busWord_masked 1#1 off data h).trans (show busWord 1#1 0#8 0#32 = 0x10000000000#41 by decide))

theorem TableRow.cmdNop : TableRow.Statement .cmdNop := fun _ => by decide
theorem TableRow.cmdStart : TableRow.Statement .cmdStart := fun _ => by decide
theorem TableRow.cmdAck : TableRow.Statement .cmdAck := fun _ => by decide
theorem TableRow.planeact : TableRow.Statement .planeact := fun _ => by decide
theorem TableRow.alloc : TableRow.Statement .alloc := fun _ => by decide
theorem TableRow.stage : TableRow.Statement .stage := fun _ => by decide
theorem TableRow.flatten : TableRow.Statement .flatten := fun _ => by decide
theorem TableRow.sbsetup : TableRow.Statement .sbsetup := fun _ => by decide
theorem TableRow.level : TableRow.Statement .level := fun _ => by decide
theorem TableRow.skipdet : TableRow.Statement .skipdet := fun _ => by decide
theorem TableRow.thresh : TableRow.Statement .thresh := fun _ => by decide
theorem TableRow.kernel : TableRow.Statement .kernel := fun _ => by decide
theorem TableRow.writeback : TableRow.Statement .writeback := fun _ => by decide
theorem TableRow.nextpl : TableRow.Statement .nextpl := fun _ => by decide
theorem TableRow.nextsb : TableRow.Statement .nextsb := fun _ => by decide
theorem TableRow.teardown : TableRow.Statement .teardown := fun _ => by decide

end Sys2Proof.Laws
end

