-- ==== Sys2Proof/Laws/Step.lean ====
section
/-! SUPPORT. What one step can do, said once: the cases of a next state, by who moved. -/

namespace Sys2Proof.Machine

/-- The state with the oldest pending event taken off. -/
def State.dequeue (s : State) : State := { s with inbox := s.inbox.tail }

/-- A decoded operation code is one of the thirteen, and its encoding. -/
theorem decodeSeq_ok {w : BitVec 4} {i : Instr} (h : decodeSeq w = .ok i) : encode i = .seq w := by
  have key : ∀ w : BitVec 4,
      (match decodeSeq w with | .ok i => decide (encode i = .seq w) | .error _ => true) = true := by decide
  have := key w
  rw [h] at this
  exact of_decide_eq_true this

/-- Every code from 1 to 13 is an operation. -/
theorem decodeSeq_of_range {w : BitVec 4} (h1 : 1 ≤ w.toNat) (h2 : w.toNat ≤ 13) : ∃ i, decodeSeq w = .ok i := by
  have key : ∀ w : BitVec 4, 1 ≤ w.toNat → w.toNat ≤ 13 →
      (match decodeSeq w with | .ok _ => true | .error _ => false) = true := by decide
  have := key w h1 h2
  cases hd : decodeSeq w with
  | ok i => exact ⟨i, rfl⟩
  | error e => rw [hd] at this; cases this

/-- What a transaction's instruction can be. -/
theorem decodeTransaction_ok {w : BitVec 41} {i : Instr} (h : decodeTransaction w = .ok i) :
    (∃ off, i = .rd off) ∨ (∃ off d, i = .wr off d) ∨ i = .cmdNop ∨ i = .cmdStart ∨ i = .cmdAck := by
  simp only [decodeTransaction, decodeBus] at h
  by_cases ha : offsetAligned (busOff w) = true
  · rw [if_pos ha] at h
    by_cases hwe : busWe w = 1#1
    · rw [if_pos hwe] at h
      by_cases ho : busOff w = 0#8
      · simp only [ho, if_true] at h
        simp only [decodeCmd] at h
        split at h
        · next hc =>
          cases h
          split at hc <;> [skip; split at hc <;> [skip; split at hc]] <;> simp_all
        · cases h; exact .inr (.inl ⟨_, _, rfl⟩)
      · simp only [ho, if_false] at h
        cases h; exact .inr (.inl ⟨_, _, rfl⟩)
    · rw [if_neg hwe] at h
      cases h; exact .inl ⟨_, rfl⟩
  · rw [if_neg ha] at h
    cases h

/-- A write that the decoder leaves a write carries no command. -/
theorem decodeTransaction_wr {w : BitVec 41} {off : BitVec 8} {d : Word} (h : decodeTransaction w = .ok (.wr off d)) (h0 : off = 0#8) :
    2 < d.toNat := by
  have key : ∀ e, decodeCmd d = .error e → 2 < d.toNat := by
    intro e he
    simp only [decodeCmd] at he
    split at he <;> [cases he; split at he <;> [cases he; split at he <;> [cases he; skip]]]
    bv_omega
  subst h0
  simp only [decodeTransaction, decodeBus] at h
  split at h
  · cases h
  · next off' d' hb =>
    split at h
    · next ho =>
      split at h
      · next c hc =>
        cases h
        simp only [decodeCmd] at hc
        split at hc <;> [cases hc; split at hc <;> [cases hc; split at hc <;> cases hc]]
      · next e he => cases h; exact key e he
    · next ho => cases h; exact absurd rfl ho
  · next i hi hb =>
    cases h
    exact absurd rfl (hi _ _)

/-- A state with a reserved operation code has no step. -/
theorem step_reserved {s : State} (h : 13 < s.pc.op.toNat) : step s = .refused (.undecodable .reservedOperation) := by
  have hr : reservedPosition s = true := decide_eq_true h
  rw [step, if_pos hr]

/-- A state that takes a step has no reserved operation code. -/
theorem step_position {s t : State} (h : step s = .next t) : s.pc.op.toNat ≤ 13 := by
  by_contra hc
  rw [step_reserved (Nat.lt_of_not_le hc)] at h
  cases h

/-- With no event pending the step is the sequencer's turn. -/
theorem step_of_empty {s : State} (h : s.pc.op.toNat ≤ 13) (hi : s.inbox = []) : step s = sequencerTurn s := by
  have hr : ¬ reservedPosition s = true := fun hr => absurd (of_decide_eq_true hr) (Nat.not_lt.mpr h)
  rw [step, if_neg hr, hi]

/-- With an event pending the step is what the event does. -/
theorem step_of_event {s : State} {e : Event} {rest : List Event} (h : s.pc.op.toNat ≤ 13) (hi : s.inbox = e :: rest) :
    step s = runEvent e { s with inbox := rest } := by
  have hr : ¬ reservedPosition s = true := fun hr => absurd (of_decide_eq_true hr) (Nat.not_lt.mpr h)
  rw [step, if_neg hr, hi]

/-- The cases of a next state: the sequencer is stopped and had its turn; it performed an operation; a transaction ran; the host wrote memory; the host read
memory; a reset. -/
theorem step_cases {s t : State} (h : step s = .next t) :
    (SequencerHasTurn s ∧ s.callState ≠ .busy ∧ t = s.dequeue) ∨
    (SequencerHasTurn s ∧ s.callState = .busy ∧ ∃ i, decodeSeq s.pc.op = .ok i ∧ exec i s.dequeue = .next t) ∨
    (∃ w rest i, s.inbox = .bus w :: rest ∧ decodeTransaction w = .ok i ∧ exec i s.dequeue = .next t) ∨
    (∃ a b rest, s.inbox = .poke a b :: rest ∧ s.callState ≠ .busy ∧
      t = { s.dequeue with mem := s.mem.write a.toNat b }) ∨
    (∃ a rest, s.inbox = .peek a :: rest ∧ s.callState ≠ .busy ∧
      t = { s.dequeue with rdata := (s.mem.read a.toNat).setWidth 32 }) ∨
    (∃ n rest, s.inbox = .reset n :: rest ∧ resetAt n s.dequeue = .next t) := by
  have turn : ∀ u : State, SequencerHasTurn s → u = s.dequeue → sequencerTurn u = .next t →
      (SequencerHasTurn s ∧ s.callState ≠ .busy ∧ t = s.dequeue) ∨
      (SequencerHasTurn s ∧ s.callState = .busy ∧ ∃ i, decodeSeq s.pc.op = .ok i ∧ exec i s.dequeue = .next t) := by
    intro u hturn hu hs
    subst hu
    simp only [sequencerTurn] at hs
    split at hs
    · next hb =>
      simp only [runDecoded] at hs
      split at hs
      · next i hi => exact .inr ⟨hturn, hb, i, hi, hs⟩
      · cases hs
    · next hb => exact .inl ⟨hturn, hb, by simpa using hs.symm⟩
  have hdq : ∀ e rest, s.inbox = e :: rest → { s with inbox := rest } = s.dequeue := by
    intro e rest he
    simp [State.dequeue, he]
  have hop := step_position h
  cases he : s.inbox with
  | nil =>
    rw [step_of_empty hop he] at h
    have : s = s.dequeue := by
      cases s; simp_all [State.dequeue]
    rcases turn s (.inl he) this h with h | h
    · exact .inl h
    · exact .inr (.inl h)
  | cons e rest =>
    rw [step_of_event hop he, hdq e rest he] at h
    cases e with
    | bus w =>
      simp only [runEvent, runDecoded] at h
      split at h
      · next i hi => exact .inr (.inr (.inl ⟨w, rest, i, rfl, hi, h⟩))
      · cases h
    | pass =>
      rcases turn _ (.inr ⟨rest, he⟩) rfl h with h | h
      · exact .inl h
      · exact .inr (.inl h)
    | poke a b =>
      simp only [runEvent, hostPoke] at h
      split at h
      · cases h
      · next hb => exact .inr (.inr (.inr (.inl ⟨a, b, rest, rfl, hb, (Host.Outcome.next.inj h).symm⟩)))
    | peek a =>
      simp only [runEvent, hostPeek] at h
      split at h
      · cases h
      · next hb => exact .inr (.inr (.inr (.inr (.inl ⟨a, rest, rfl, hb, (Host.Outcome.next.inj h).symm⟩))))
    | reset n => exact .inr (.inr (.inr (.inr (.inr ⟨n, rest, rfl, h⟩))))

/-- What a reset leaves. -/
theorem resetAt_next {n : Nat} {s t : State} (h : resetAt n s = .next t) :
    t = hardReset s.mem s ∨
      (s.callState = .busy ∧ s.pc.op = opWriteback ∧ dstReady s s.pc.pli = true ∧
        t = hardReset (writeBack s ((rectPositions s).take n)).1 s) := by
  simp only [resetAt] at h
  split at h
  · next hb =>
    split at h
    · next hd => exact .inr ⟨hb.1, hb.2, hd, by simpa using h.symm⟩
    · cases h
  · exact .inl (by simpa using h.symm)

end Sys2Proof.Machine
end

