-- ==== Sys2Proof/Tests/Slice0.lean ====
section
/-! SUPPORT. Tests and witnesses. A test runs one operation or one step; its expected result is a vector `V<n>` of 95_test_vectors.md or hand calculation from the
rule it names. A witness shows that the hypotheses of an obligation can be met together, for each of its clauses. -/

namespace Sys2Proof.Tests
open Sys2Proof.Machine

/-! Small states. -/

/-- `MAX_LEVEL = 64`, capacities 4096 and 64, 3-bit directions, every 32-bit address valid. -/
def prm : Params := ⟨60, 4096, 64, 3, [⟨0, 0xFFFFFFFF⟩]⟩

/-- The machine after reset with those parameters. -/
def idle : State := { State.reset with params := prm }

/-- The machine at one operation of a call, at a position. -/
def at_ (op : BitVec 4) (sbr sbc : BitVec 13) (pli : Plane) (s : State) : State := { s with callState := .busy, pc := ⟨op, sbr, sbc, pli⟩ }

/-- What an outcome's next state is asked, false where there is none. -/
def nextIs (o : Host.Outcome State Fault Refusal) (p : State → Bool) : Bool :=
  match o with
  | .next t => p t
  | .fault _ => false
  | .refused _ => false

/-- The value a register read returns. -/
def readAs (off : BitVec 8) (s : State) (v : Word) : Bool := nextIs (exec (.rd off) s) fun t => decide (t.rdata = v)

/-- A configuration of one mode-info unit, 8-bit, plane 0 only (`P1_SS = 0b11`, `P2_SS = 0b01`), `gl = 16`. -/
def unitCfg : Cfg where
  gl := 16#8
  miRows := 1#16
  miCols := 1#16
  miStride := 1#16
  miBase := 0x1000#32
  bitDepth := 8#4
  hbd := 0#1
  planes := ⟨⟨0x2000#32, 8#32, 0#1, 0#1⟩, ⟨0x3000#32, 4#32, 1#1, 1#1⟩, ⟨0x3100#32, 4#32, 1#1, 0#1⟩⟩

/-- Memory with the unit's entry `0x02` (`skip = 0`, `gain_index = 1`) and one sample of value `0x64`. -/
def unitMem : Memory := [(0x1000, 0x02#8), (0x2000, 0x64#8)]

/-- A call on that unit, at operation `op`, with everything staged and the kernel's output held. -/
def unitAt (op : BitVec 4) : State :=
  { idle with
    cfg := unitCfg, mem := unitMem, callState := .busy, pc := ⟨op, 0#13, 0#13, 0⟩
    work :=
      { Work.reset with
        nplanes := 1#2, nvsb := 1#14, nhsb := 1#14, bw := ⟨8#4, 4#4, 4#4⟩, bh := ⟨8#4, 4#4, 8#4⟩, wstride := 8#19, nhb := 1#4
        nvb := 1#4, level := 11#8, threshold := 11#16 }
    wbuf := ⟨(List.range 64).map fun i => (i, 0x0064#16), [], []⟩
    bskip := [(0, 0#1)]
    dst := (rowMajor 8 8).map fun q => (64 * q.1 + q.2, 0x016F#16)
    bskipAlloc := true
    wbufAlloc := ⟨true, false, false⟩ }

/-- The start of a call on that unit. -/
def unitStart : State := startCall { idle with cfg := unitCfg, mem := unitMem }

/-- The stub kernels of 95_test_vectors.md section 3. -/
def kcopy (a : KArgs) : KResult := ⟨fun r c => a.src (a.originRow + r) (a.originCol + c), a.dir⟩

def kadd (a : KArgs) : KResult :=
  ⟨fun r c =>
    if a.skip (r / (8 >>> a.ssY)) (c / (8 >>> a.ssX)) then a.src (a.originRow + r) (a.originCol + c)
    else a.src (a.originRow + r) (a.originCol + c) + BitVec.ofNat 16 a.threshold, a.dir⟩

/-! Well-formedness and decoding. -/

/-- R61: a transaction at an offset that is not a multiple of 4 is ill-formed, also at the last offset. -/
theorem test_wellFormed_refuses : WellFormed (.rd 0x02#8) = false ∧ WellFormed (.rd 0xFF#8) = false ∧ WellFormed (.wr 0x01#8 0#32) = false ∧
    WellFormed (.rd 0xFC#8) = true ∧ WellFormed (.wr 0x00#8 7#32) = true := by decide

/-- R61: `{we, off, data}`; `RD SEQPOS` (V1b) and `WR FRAME_FMT, 0x10A` (P4 line 5), bit by bit. -/
theorem test_decode_transactions :
    decodeTransaction (0b0#1 ++ 0b00001000#8 ++ 0b00000000000000000000000000000000#32) = .ok (.rd 0x08#8) ∧
    decodeTransaction (0b1#1 ++ 0b00100100#8 ++ 0b00000000000000000000000100001010#32) = .ok (.wr 0x24#8 0x0000010A#32) := by decide

/-- R61: the encoder lays the same fields out: `WR MI_BASE, 0x1000` is `0x120_00001000` (P1 line 1), `RD STATUS` is `0x004_00000000`. -/
theorem test_encode_transactions :
    encode (.wr 0x20#8 0x1000#32) = .bus 0x12000001000#41 ∧ encode (.rd 0x04#8) = .bus 0x00400000000#41 := by decide

/-- R62: the three commands, as `CMD` words and as `BUS` writes to offset 0. -/
theorem test_decode_commands :
    decodeCmd 0b00000000000000000000000000000000#32 = .ok .cmdNop ∧ decodeCmd 0b00000000000000000000000000000001#32 = .ok .cmdStart ∧
    decodeCmd 0b00000000000000000000000000000010#32 = .ok .cmdAck ∧
    decodeTransaction (0b1#1 ++ 0b00000000#8 ++ 0b00000000000000000000000000000001#32) = .ok .cmdStart := by decide

/-- R63: V3a, V3d, V3e, V3f: reserved command words are no commands; the transaction that carries one is a `WR`. -/
theorem test_decode_reserved_commands :
    decodeCmd 3#32 = .error .reservedCommand ∧ decodeCmd 0x10#32 = .error .reservedCommand ∧ decodeCmd 0x11#32 = .error .reservedCommand ∧
    decodeCmd 0xFFFFFFFF#32 = .error .reservedCommand ∧ decodeTransaction 0x10000000003#41 = .ok (.wr 0#8 3#32) := by decide

/-- R64: the thirteen operation codes, frame set-up and teardown. -/
theorem test_decode_frame_operations :
    decodeSeq 0b0001#4 = .ok .planeact ∧ decodeSeq 0b0010#4 = .ok .alloc ∧ decodeSeq 0b0011#4 = .ok .stage ∧
    decodeSeq 0b0100#4 = .ok .flatten ∧ decodeSeq 0b1101#4 = .ok .teardown := by decide

/-- R64: the operations of the superblock loop. -/
theorem test_decode_loop_operations :
    decodeSeq 0b0101#4 = .ok .sbsetup ∧ decodeSeq 0b0110#4 = .ok .level ∧ decodeSeq 0b0111#4 = .ok .skipdet ∧
    decodeSeq 0b1000#4 = .ok .thresh ∧ decodeSeq 0b1001#4 = .ok .kernel ∧ decodeSeq 0b1010#4 = .ok .writeback ∧
    decodeSeq 0b1011#4 = .ok .nextpl ∧ decodeSeq 0b1100#4 = .ok .nextsb := by decide

/-- R64, R65: `IDLE` is no operation; 0xE and 0xF are reserved. -/
theorem test_decode_reserved_operations :
    decodeSeq 0b0000#4 = .error .idleOperation ∧ decodeSeq 0b1110#4 = .error .reservedOperation ∧
    decodeSeq 0b1111#4 = .error .reservedOperation := by decide

/-- The table's numbering: one byte for an operation, four for a command, six for a transaction. -/
theorem test_decodeTableWord :
    decodeTableWord 8 0x7 = some .skipdet ∧ decodeTableWord 32 2 = some .cmdAck ∧ decodeTableWord 48 0x12000001000 = some (.wr 0x20#8 0x1000#32) ∧
    decodeTableWord 48 0x00400000000 = some (.rd 0x04#8) ∧ decodeTableWord 8 0x17 = none := by decide

/-! Host transactions. -/

/-- V1: after reset `STATUS`, `SEQPOS`, `CMD`, a reserved offset and `GLEVEL` read 0. -/
theorem test_rd_reset : readAs 0x04#8 idle 0#32 && readAs 0x08#8 idle 0#32 && readAs 0x00#8 idle 0#32 && readAs 0x28#8 idle 0#32 &&
    readAs 0x10#8 idle 0#32 = true := by decide

/-- V5d: after a `BUS` fault in `STAGE` of plane 2, `STATUS` reads `0x3323` and `SEQPOS` `0x80000000`. -/
theorem test_rd_failed :
    (let s := { idle with callState := .fail, err := .bus, pc := ⟨opIdle, 0#13, 0#13, 2⟩, work := { Work.reset with nplanes := 3#2, failop := opStage } }
     readAs 0x04#8 s 0x3323#32 && readAs 0x08#8 s 0x80000000#32) = true := by decide

/-- V2b, V2c, V2d, V2f: a write keeps the bits its fields cover. -/
theorem test_wr_masks :
    nextIs (exec (.wr 0x14#8 0x12345#32) idle) (fun t => readAs 0x14#8 t 0x2345#32) &&
    nextIs (exec (.wr 0x24#8 0xFFFFFFFF#32) idle) (fun t => readAs 0x24#8 t 0x10F#32) &&
    nextIs (exec (.wr 0x48#8 0xFF#32) idle) (fun t => readAs 0x48#8 t 0x3#32) &&
    nextIs (exec (.wr 0x20#8 0xFFFFFFFF#32) idle) (fun t => readAs 0x20#8 t 0xFFFFFFFF#32) = true := by decide

/-- V3a, V4b, V4e: a reserved command sets `ILLCMD`; while `BUSY` a configuration write is dropped and `CTRL` is accepted. -/
theorem test_wr_states :
    nextIs (exec (.wr 0x00#8 3#32) idle) (fun t => readAs 0x04#8 t 0x4#32) &&
    nextIs (exec (.wr 0x10#8 0x20#32) unitStart) (fun t => readAs 0x10#8 t 0x10#32) &&
    nextIs (exec (.wr 0x0C#8 1#32) unitStart) (fun t => t.irqEn) = true := by decide

/-- V3b: `CMD.NOP` changes nothing, also `ILLCMD`. -/
theorem test_cmdNop : nextIs (exec .cmdNop { idle with illcmd := true }) (fun t => decide (t = { idle with illcmd := true })) = true := by decide

/-- V4a, V4l: after `CMD.START` `STATUS` reads `0x101`, with the previous call's `NPLANES` still there `0x3101`. -/
theorem test_cmdStart :
    nextIs (exec .cmdStart idle) (fun t => readAs 0x04#8 t 0x101#32) &&
    nextIs (exec .cmdStart { idle with err := .alloc, work := { Work.reset with nplanes := 3#2, failop := opAlloc, errPend := .alloc } })
      (fun t => readAs 0x04#8 t 0x3101#32) = true := by decide

/-- V4g: `CMD.START` in `DONE` is refused: `ILLCMD`, no call. -/
theorem test_cmdStart_done : nextIs (exec .cmdStart { idle with callState := .done }) (fun t => readAs 0x04#8 t 0x6#32) = true := by decide

/-- V3c, V4d, V4j, V5b: `CMD.ACK` in `IDLE`, `BUSY`, `DONE` and `FAIL`. -/
theorem test_cmdAck :
    nextIs (exec .cmdAck { idle with illcmd := true }) (fun t => readAs 0x04#8 t 0#32) &&
    nextIs (exec .cmdAck unitStart) (fun t => readAs 0x04#8 t 0x105#32) &&
    nextIs (exec .cmdAck { idle with callState := .done, illcmd := true, irqEn := true }) (fun t => readAs 0x04#8 t 0#32 && !t.irq) &&
    nextIs (exec .cmdAck { idle with callState := .fail, err := .alloc, work := { Work.reset with failop := opAlloc } })
      (fun t => readAs 0x04#8 t 0x10#32) = true := by decide

/-! Frame set-up. -/

/-- A chroma subsampling as the vectors write it, `{SS_Y, SS_X}`. -/
def withSs (p1 p2 : BitVec 2) : State :=
  { unitAt opPlaneact with
    cfg := { unitCfg with planes := ⟨unitCfg.planes.p0, ⟨0#32, 0#32, p1.extractLsb' 0 1, p1.extractLsb' 1 1⟩,
      ⟨0#32, 0#32, p2.extractLsb' 0 1, p2.extractLsb' 1 1⟩⟩ } }

/-- V50, V53, V55, V60, V62, V65: the number of active planes. -/
theorem test_planeact_planes :
    (([(0b00#2, 0b00#2, 3#2), (0b00#2, 0b11#2, 1#2), (0b01#2, 0b01#2, 1#2), (0b10#2, 0b10#2, 1#2), (0b11#2, 0b00#2, 1#2), (0b11#2, 0b11#2, 3#2)] :
      List (BitVec 2 × BitVec 2 × BitVec 2)).all fun v =>
        nextIs (exec .planeact (withSs v.1 v.2.1)) fun t => decide (t.work.nplanes = v.2.2)) = true := by decide

/-- V71, V74, V77, V78: the other registers it latches. -/
theorem test_planeact_latches :
    nextIs (exec .planeact { unitAt opPlaneact with cfg := { unitCfg with miRows := 9#16, miCols := 17#16, bitDepth := 12#4 } })
      (fun t => decide (t.work.nvsb = 2#14 ∧ t.work.nhsb = 3#14 ∧ t.work.wstride = 136#19 ∧ t.work.coeffShift = 4#3 ∧ t.work.bw.p0 = 8#4 ∧
        t.work.bw.p1 = 4#4 ∧ t.work.bh.p1 = 4#4 ∧ t.work.bh.p2 = 8#4 ∧ t.pc.op = 0x2#4)) &&
    nextIs (exec .planeact { unitAt opPlaneact with cfg := { unitCfg with miRows := 65535#16, miCols := 65535#16, bitDepth := 7#4 } })
      (fun t => decide (t.work.nvsb = 8192#14 ∧ t.work.nhsb = 8192#14 ∧ t.work.wstride = 524280#19 ∧ t.work.coeffShift = 0#3)) = true := by decide

/-- `ALLOC` for a frame of `rows` by `cols` units with the given capacities and three planes. -/
def allocAt (skipCap wbufCap : Nat) (rows cols : BitVec 16) : State :=
  { idle with
    params := { prm with skipCap := skipCap, wbufCap := wbufCap }, callState := .busy, pc := ⟨opAlloc, 0#13, 0#13, 0⟩
    cfg := { unitCfg with miRows := rows, miCols := cols }, work := { Work.reset with nplanes := 3#2 } }

/-- V66, V69: a request that equals the capacity is enough, and so is one of nothing. -/
theorem test_alloc_enough :
    nextIs (exec .alloc (allocAt 64 4096 8#16 8#16))
      (fun t => decide (t.pc.op = 0x3#4 ∧ t.bskipAlloc = true ∧ t.wbufAlloc = ⟨true, true, true⟩ ∧ t.work.errPend = .noError)) &&
    nextIs (exec .alloc (allocAt 0 0 0#16 7#16)) (fun t => decide (t.pc.op = 0x3#4)) = true := by decide

/-- V67, V68: one entry or one buffer too many is `Fault(ALLOC)`, with nothing acquired. -/
theorem test_alloc_fault :
    nextIs (exec .alloc (allocAt 64 4096 5#16 13#16))
      (fun t => decide (t.pc.op = 0xD#4 ∧ t.work.errPend = .alloc ∧ t.work.failop = 0x2#4 ∧ t.bskipAlloc = false ∧ t.wbufAlloc = ⟨false, false, false⟩)) &&
    nextIs (exec .alloc (allocAt 64 8192 5#16 13#16)) (fun t => decide (t.work.errPend = .alloc)) = true := by decide

/-- V101: `STAGE` of a 4:2:0 chroma plane of one row of two units puts the byte at `0x3000 + 16 * 1 + 3` in entry `16 * 1 + 3`, zero-extended (V95), and
goes on with plane 2. -/
theorem test_stage :
    nextIs (exec .stage (at_ opStage 0#13 0#13 1
      { unitAt opStage with
        cfg := { unitCfg with miCols := 2#16, planes := ⟨unitCfg.planes.p0, ⟨0x3000#32, 16#32, 1#1, 1#1⟩, ⟨0x3100#32, 16#32, 1#1, 1#1⟩⟩ }
        work := { (unitAt opStage).work with nplanes := 3#2, wstride := 16#19 }, mem := [(0x3013, 0xFF#8)] }))
      (fun t => decide ((t.wbuf.p1.get 19 = some 0x00FF#16) ∧ t.wbuf.p1.get 18 = some 0#16 ∧ t.wbuf.p1.get 24 = none ∧
        t.pc = ⟨0x3#4, 0#13, 0#13, 2⟩)) = true := by decide

/-- V94, V96, V100: two-byte samples are little-endian and unmasked; an address beyond the 32-bit space is not wrapped. -/
theorem test_readSample :
    (let c : Cfg := { unitCfg with hbd := 1#1 }
     decide (readSample prm c [(0x2000, 0x18#8), (0x2001, 0x02#8)] 0 0 0 = some 0x0218#16) &&
     decide (readSample prm c [(0x2000, 0xFF#8), (0x2001, 0xFF#8)] 0 0 0 = some 0xFFFF#16) &&
     decide (readSample prm { unitCfg with planes := ⟨⟨0xFFFFFFF0#32, 64#32, 0#1, 0#1⟩, unitCfg.planes.p1, unitCfg.planes.p2⟩ } [] 0 0 16 = none)) =
      true := by decide

/-- V102: `FLATTEN` of a 2 by 3 grid with stride 4. -/
theorem test_flatten :
    nextIs (exec .flatten
      { unitAt opFlatten with
        cfg := { unitCfg with miRows := 2#16, miCols := 3#16, miStride := 4#16 }
        mem := [(0x1000, 0x01#8), (0x1002, 0x03#8), (0x1003, 0xEE#8), (0x1004, 0x01#8), (0x1005, 0x01#8), (0x1006, 0x02#8), (0x1007, 0xEE#8)] })
      (fun t => decide (t.bskip = [(0, 1#1), (1, 0#1), (2, 1#1), (3, 1#1), (4, 1#1), (5, 0#1)] ∧ t.pc.op = 0x5#4)) = true := by decide

/-- V152: the entry at `0x100000000` is not acceptable: `Fault(BUS)` in `FLATTEN`. -/
theorem test_flatten_fault :
    nextIs (exec .flatten { unitAt opFlatten with cfg := { unitCfg with miCols := 2#16, miBase := 0xFFFFFFFF#32 } })
      (fun t => decide (t.pc.op = 0xD#4 ∧ t.work.errPend = .bus ∧ t.work.failop = 0x4#4)) = true := by decide

/-! The superblock loop. -/

/-- A frame of 9 by 17 units, 2 by 3 superblocks, the last ones clipped. -/
def edgeFrame : State :=
  { unitAt opSbsetup with
    cfg := { unitCfg with miRows := 9#16, miCols := 17#16, miStride := 17#16 }
    work := { (unitAt opSbsetup).work with nvsb := 2#14, nhsb := 3#14, wstride := 136#19 }, mem := [(0x1098, 0x04#8)] }

/-- V111, V112, V115: the extents of the superblocks (0, 1), (0, 2) and (1, 2). -/
theorem test_sbsetup :
    nextIs (exec .sbsetup (at_ opSbsetup 0#13 1#13 0 edgeFrame)) (fun t => decide (t.work.nhb = 8#4 ∧ t.work.nvb = 8#4)) &&
    nextIs (exec .sbsetup (at_ opSbsetup 0#13 2#13 0 edgeFrame)) (fun t => decide (t.work.nhb = 1#4 ∧ t.work.nvb = 8#4)) &&
    nextIs (exec .sbsetup (at_ opSbsetup 1#13 2#13 0 edgeFrame)) (fun t => decide (t.work.nhb = 1#4 ∧ t.work.nvb = 1#4 ∧ t.pc.op = 0x6#4)) =
      true := by decide

/-- V20 to V29: the LevelMapper for `MAX_LEVEL = 64`. -/
theorem test_levelMapper :
    (([(0, 3#2, 0), (1, 1#2, 1), (1, 2#2, 2), (1, 3#2, 3), (16, 0#2, 0), (16, 1#2, 11), (16, 2#2, 16), (16, 3#2, 22), (3, 1#2, 2), (3, 3#2, 4),
      (63, 3#2, 63), (46, 3#2, 63), (255, 1#2, 63)] : List (Nat × BitVec 2 × Nat)).all fun v => levelMapper 64 v.1 v.2.1 == v.2.2) = true := by decide

/-- V30, V31, V33: the same under other values of `MAX_LEVEL`, the two ends among them. -/
theorem test_levelMapper_maxLevel :
    (([(4, 16, 1#2, 3), (16, 4, 2#2, 4), (16, 16, 2#2, 15), (256, 255, 1#2, 175), (256, 255, 3#2, 255), (256, 186, 3#2, 255)] :
      List (Nat × Nat × BitVec 2 × Nat)).all fun v => levelMapper v.1 v.2.1 v.2.2.1 == v.2.2.2) = true := by decide

/-- V34 to V37: `LEVEL` by the entry's byte and `gl`. -/
theorem test_level :
    (([(16#8, 0x02#8, 11#8, 0x7#4), (16#8, 0x01#8, 0#8, 0xC#4), (0#8, 0x06#8, 0#8, 0xC#4), (4#8, 0xFE#8, 6#8, 0x7#4)] :
      List (BitVec 8 × Byte × BitVec 8 × BitVec 4)).all fun v =>
        nextIs (exec .level { unitAt opLevel with cfg := { unitCfg with gl := v.1 }, mem := [(0x1000, v.2.1)] }) fun t =>
          decide (t.work.level = v.2.2.1 ∧ t.pc.op = v.2.2.2)) = true := by decide

/-- V38: the entry of superblock (1, 2) is read at `0x1098`. -/
theorem test_level_address :
    nextIs (exec .level (at_ opLevel 1#13 2#13 0 edgeFrame)) (fun t => decide (t.work.level = 16#8 ∧ t.pc.op = 0x7#4)) = true := by decide

/-- V43, V46: only the entry in the frame is examined, by its bit 0. -/
theorem test_skipdet_all :
    nextIs (exec .skipdet (at_ opSkipdet 0#13 1#13 0
      { unitAt opSkipdet with cfg := { unitCfg with miCols := 9#16, miStride := 16#16 }, mem := [(0x1008, 0xF9#8)] }))
      (fun t => decide (t.work.allSkip = true ∧ t.pc.op = 0xC#4)) = true := by decide

/-- V41: one entry without skip: `THRESH` with plane 0 and `DIR` all zero. -/
theorem test_skipdet_some :
    nextIs (exec .skipdet (at_ opSkipdet 0#13 0#13 2
      { unitAt opSkipdet with
        cfg := { unitCfg with miCols := 2#16, miStride := 2#16 }, mem := [(0x1000, 0x03#8), (0x1001, 0x02#8)]
        work := { (unitAt opSkipdet).work with allSkip := true }, dir := Vector.replicate 64 5 }))
      (fun t => decide (t.work.allSkip = false ∧ t.pc = ⟨0x8#4, 0#13, 0#13, 0⟩ ∧ t.dir.toList = List.replicate 64 0)) = true := by decide

/-- R111: an empty region is refused. -/
theorem test_skipdet_empty :
    (match exec .skipdet { unitAt opSkipdet with cfg := { unitCfg with miRows := 0#16 } } with
      | .refused r => decide (r = .emptySkipRegion)
      | .next _ => false
      | .fault _ => false) = true := by decide

/-- `THRESH` of a plane at a level and a shift. -/
def threshAt (p : Plane) (level : BitVec 8) (shift : BitVec 3) : State :=
  at_ opThresh 0#13 0#13 p { unitAt opThresh with work := { (unitAt opThresh).work with level := level, coeffShift := shift } }

/-- V81, V84, V88, V89: luma and chroma thresholds. -/
theorem test_thresh :
    (([(0, 1#8, 2#3, 4#16), (1, 1#8, 2#3, 4#16), (0, 6#8, 2#3, 24#16), (2, 6#8, 2#3, 16#16), (1, 63#8, 4#3, 624#16), (0, 255#8, 7#3, 32640#16),
      (1, 255#8, 7#3, 20352#16)] : List (Plane × BitVec 8 × BitVec 3 × BitVec 16)).all fun v =>
        nextIs (exec .thresh (threshAt v.1 v.2.1 v.2.2.1)) fun t => decide (t.work.threshold = v.2.2.2 ∧ t.pc.op = 0x9#4)) = true := by decide

/-- R143 corner: a level of 0 skips the plane. -/
theorem test_thresh_zero :
    nextIs (exec .thresh (threshAt 0 0#8 2#3)) (fun t => decide (t.work.threshold = 0#16 ∧ t.pc.op = 0xB#4)) = true := by decide

/-- P3's kernel `KADD` on one unit: staged `0x64` plus the threshold 11 is `0x6F`, over the rectangle only. -/
theorem test_kernel :
    nextIs (kernelWith kadd { unitAt opKernel with dst := [] })
      (fun t => decide (t.dst.get 0 = some 0x6F#16 ∧ t.dst.get (64 * 7 + 7) = some 0x6F#16 ∧ t.dst.get 8 = none ∧ t.pc.op = 0xA#4)) = true := by decide

/-- V121: the argument record's origin, extent and stride for superblock (1, 2) of a 4:2:0 chroma plane. -/
theorem test_kernelArgs :
    (let a := kernelArgs (at_ opKernel 1#13 2#13 1 edgeFrame) 1
     decide (a.originRow = 32 ∧ a.originCol = 64 ∧ a.stride = 136 ∧ a.planeH = 36 ∧ a.planeW = 68) &&
       decide (bskipIndex (at_ opKernel 1#13 2#13 1 edgeFrame) 8 16 = 152)) = true := by decide

/-- V97: the output `0x016F` is narrowed to the byte `0x6F`, not saturated; the rectangle's last sample is at `0x2000 + 8 * 7 + 7`. -/
theorem test_writeback :
    nextIs (exec .writeback (unitAt opWriteback))
      (fun t => decide (t.mem.read 0x2000 = 0x6F#8 ∧ t.mem.read 0x203F = 0x6F#8 ∧ t.mem.read 0x2040 = 0#8 ∧ t.mem.read 0x1000 = 0x02#8 ∧
        t.pc.op = 0xB#4)) = true := by decide

/-- V92, V98: a two-byte sample at (7, 71) with stride 80 lies at `0x44EE`, low byte first. -/
theorem test_writeSample :
    (let c : Cfg := { unitCfg with hbd := 1#1, planes := ⟨⟨0x4000#32, 80#32, 0#1, 0#1⟩, unitCfg.planes.p1, unitCfg.planes.p2⟩ }
     decide (writeSample prm c [] 0 7 71 0x0218#16 = some [(0x44EE, 0x18#8), (0x44EF, 0x02#8)])) = true := by decide

/-- V140, V141, V142: the next plane, or the next superblock with the plane kept. -/
theorem test_nextpl :
    (let s := { unitAt opNextpl with work := { (unitAt opNextpl).work with nplanes := 3#2 } }
     nextIs (exec .nextpl (at_ opNextpl 0#13 0#13 0 s)) (fun t => decide (t.pc = ⟨0x8#4, 0#13, 0#13, 1⟩)) &&
     nextIs (exec .nextpl (at_ opNextpl 0#13 0#13 2 s)) (fun t => decide (t.pc = ⟨0xC#4, 0#13, 0#13, 2⟩)) &&
     nextIs (exec .nextpl (unitAt opNextpl)) (fun t => decide (t.pc = ⟨0xC#4, 0#13, 0#13, 0⟩))) = true := by decide

/-- V143, V144, V145: row-major, then `TEARDOWN` with the position kept. -/
theorem test_nextsb :
    nextIs (exec .nextsb (at_ opNextsb 0#13 1#13 2 edgeFrame)) (fun t => decide (t.pc = ⟨0x5#4, 0#13, 2#13, 0⟩)) &&
    nextIs (exec .nextsb (at_ opNextsb 0#13 2#13 2 edgeFrame)) (fun t => decide (t.pc = ⟨0x5#4, 1#13, 0#13, 0⟩)) &&
    nextIs (exec .nextsb (at_ opNextsb 1#13 2#13 2 edgeFrame)) (fun t => decide (t.pc = ⟨0xD#4, 1#13, 2#13, 2⟩)) = true := by decide

/-- V150: `TEARDOWN` after an `ALLOC` fault: `STATUS = 0x3213`, no scratch owned; without a fault `DONE` (P1: `0x3002`). -/
theorem test_teardown :
    (let s := at_ opTeardown 0#13 0#13 0
        { unitAt opTeardown with work := { Work.reset with nplanes := 3#2, errPend := .alloc, failop := opAlloc } }
     nextIs (exec .teardown s) (fun t => readAs 0x04#8 t 0x3213#32 && decide (t.bskipAlloc = false ∧ t.wbufAlloc = ⟨false, false, false⟩)) &&
     nextIs (exec .teardown { s with work := { s.work with errPend := .noError, failop := 0#4 } }) (fun t => readAs 0x04#8 t 0x3002#32)) =
      true := by decide

/-! One step. -/

/-- R14, R8: the sequencer's turn runs `pc.OP`; a transaction comes first; a stopped sequencer changes nothing. -/
theorem test_step :
    nextIs (step (unitAt opThresh)) (fun t => decide (t.pc.op = 0x9#4)) &&
    nextIs (step { unitAt opThresh with inbox := [.bus 0x00400000000#41] }) (fun t => decide (t.pc.op = 0x8#4 ∧ t.rdata = 0x1801#32 ∧ t.inbox = [])) &&
    nextIs (step idle) (fun t => decide (t = idle)) = true := by decide

/-- R65, U10: a state at a reserved code has no step, stopped or not, whatever is pending. -/
theorem test_step_reserved :
    ([{ unitAt 0xE#4 with inbox := [] }, { idle with pc := { idle.pc with op := 0xF#4 }, inbox := [.bus 0x00400000000#41] },
      { idle with pc := { idle.pc with op := 0xE#4 }, inbox := [.reset 0] }].all fun s : State =>
        match step s with
        | .refused r => decide (r = .undecodable .reservedOperation)
        | .next _ => false
        | .fault _ => false) = true := by decide

/-- R8, R50: outside a call the host reads a byte of memory, which changes nothing. -/
theorem test_hostPeek :
    nextIs (step { idle with mem := unitMem, inbox := [.peek 0x2000#32] })
      (fun t => decide (t = { idle with mem := unitMem, rdata := 0x64#32 })) = true := by decide

/-- R221: a reset after 3 samples of a `WRITEBACK` leaves those three in memory and everything else at its reset value. -/
theorem test_step_reset :
    nextIs (step { unitAt opWriteback with inbox := [.reset 3] })
      (fun t => decide (t.mem = [(0x1000, 0x02#8), (0x2000, 0x6F#8), (0x2001, 0x6F#8), (0x2002, 0x6F#8)] ∧ t = { idle with mem := t.mem })) = true := by
  decide

/-- Each word of the table placed after reset is what the step then runs: `WR`, `CMD.START` and `TEARDOWN`. -/
theorem test_withFetchWord :
    nextIs (step (State.reset.withFetchWord 48 0x11000000010)) (fun t => decide (t.cfg.gl = 16#8)) &&
    nextIs (step (State.reset.withFetchWord 32 1)) (fun t => decide (t.callState = .busy ∧ t.pc.op = 0x1#4)) &&
    nextIs (step (State.reset.withFetchWord 8 0xD)) (fun t => decide (t.callState = .done)) = true := by decide

/-! Witnesses: states and operands that meet the hypotheses of the obligations. -/

theorem valid_below {a : Nat} (h : a < 2 ^ 32) : acceptable prm a = true := by
  simp [acceptable, prm]
  omega

/-- Every sample of the unit is acceptable. -/
theorem unit_samples {r c : Nat} (hr : r < 8) (hc : c < 8) : SampleAcceptable prm unitCfg 0 r c := by
  intro b hb
  have hs : sbytes unitCfg = 1 := rfl
  have ha : sampleAddr unitCfg 0 r c = 0x2000 + (r * 8 + c) * 1 := rfl
  rw [hs] at hb
  rw [ha]
  exact valid_below (by omega)

/-- Every byte the unit's call may touch is acceptable. -/
theorem unit_regions : RegionsAcceptable prm unitCfg := by
  refine ⟨?_, ?_⟩
  · rintro a ⟨r, k, hr, hk, rfl⟩
    have : miAddr unitCfg r k = 0x1000 + r * 1 + k := rfl
    have h1 : unitCfg.miRows.toNat = 1 := rfl
    have h2 : unitCfg.miCols.toNat = 1 := rfl
    rw [this]
    exact valid_below (by omega)
  · rintro p a hp ⟨r, k, hr, hk, b, hb, rfl⟩
    have hp : p.val < 1 := hp
    obtain rfl : p = 0 := Fin.ext (Nat.lt_one_iff.mp hp)
    exact unit_samples (show r < 8 from hr) (show k < 8 from hk) b hb

theorem unit_owned (op : BitVec 4) : overCapacity (unitAt op).params (unitAt op).cfg = false := rfl

/-- The unit's call meets the invariant at every operation from `STAGE` to `NEXTSB`. -/
theorem unit_inv (op : BitVec 4) (h : 3 ≤ op.toNat ∧ op.toNat ≤ 12) : CallInv (unitAt op) where
  stopped hb := absurd rfl hb
  ended := ⟨fun h => (nomatch h), fun h => (nomatch h)⟩
  running _ := ⟨⟨rfl, by show 1 ≤ op.toNat; omega, by show op.toNat ≤ 13; omega⟩, rfl⟩
  pending _ := rfl
  latched _ := ⟨by show 1#2 = activePlanes unitCfg; decide, by show 1#14 = superblocks 1#16; decide,
    by show 1#14 = superblocks 1#16; decide, by show 0#3 = coeffShiftOf 8#4; decide, fun p => by fin_cases p <;> rfl, fun p => by fin_cases p <;> rfl,
    by show 8#19 = workStride unitCfg; decide⟩
  start ha := absurd (show op.toNat ≤ 2 from ha.2.2) (by omega)
  owned _ := ⟨rfl, rfl, fun p => by fin_cases p <;> rfl⟩
  plane _ := by show 0 < 1; omega
  staged _ p hp _ := by
    have hp : p.val < 1 := hp
    obtain rfl : p = 0 := Fin.ext (Nat.lt_one_iff.mp hp)
    show stagedReady (unitAt 0#4) 0 = true
    decide
  flattened _ r c hr hc := by
    have hr : r < 1 := hr
    have hc : c < 1 := hc
    obtain rfl : r = 0 := by omega
    obtain rfl : c = 0 := by omega
    rfl
  inLoop _ := by show 0 < 1 ∧ 0 < 1; omega
  extent _ := ⟨by show 1 = min 8 (1 - 8 * 0); omega, by show 1 = min 8 (1 - 8 * 0); omega⟩
  level _ := ⟨by show 1 ≤ 11; omega, by show 11 < 64; omega⟩
  threshold _ := by show 1 ≤ 11; omega
  output _ := by
    show dstReady (unitAt 0#4) 0 = true
    decide
  dirBits i := by simp [unitAt, idle, State.reset, prm]

/-- A machine that has just begun a call meets the invariant, whatever the configuration, memory and the scratch memories but `DIR` hold. -/
theorem start_inv (s : State) (h : s.callState = .idle) (hc : CallInv s) : CallInv (startCall s) := by
  have hst := hc.stopped (by rw [h]; decide)
  have he : startCall s = { s with
      callState := .busy, err := .noError, work := { s.work with errPend := .noError, failop := 0#4 }, pc := ⟨opPlaneact, 0#13, 0#13, 0⟩ } := by
    rcases startCall_cases s with ⟨_, e⟩ | ⟨hn, _⟩
    · exact e
    · exact absurd h hn
  rw [he]
  constructor
  · exact fun hb => absurd rfl hb
  · exact ⟨fun h => (nomatch h), fun h => (nomatch h)⟩
  · exact fun _ => ⟨⟨rfl, show 1 ≤ 1 by omega, show 1 ≤ 13 by omega⟩, rfl⟩
  · exact fun _ => rfl
  · exact fun ha => absurd (show 2 ≤ 1 from ha.2.1) (by omega)
  · exact fun _ => ⟨rfl, rfl, rfl, hst.2⟩
  all_goals first
    | exact hc.dirBits
    | exact fun ha => absurd (show 3 ≤ 1 from ha.2.1) (by omega)
    | exact fun ha => absurd (show 5 ≤ 1 from ha.2.1) (by omega)
    | exact fun ha => absurd (show 6 ≤ 1 from ha.2.1) (by omega)
    | exact fun ha => absurd (show 7 ≤ 1 from ha.2.1) (by omega)
    | exact fun ha => absurd (show 9 ≤ 1 from ha.2.1) (by omega)
    | exact fun ha => absurd (show 10 ≤ 1 from ha.2.1) (by omega)

/-- A stopped machine that owns no scratch meets the invariant. -/
theorem idle_inv (s : State) (h : s.callState = .idle) (hop : s.pc.op = opIdle) (hb : s.bskipAlloc = false) (hw : ∀ p, s.wbufAlloc.get p = false)
    (hd : ∀ i : Fin 64, s.dir[i] < 2 ^ s.params.dirBits) : CallInv s := by
  constructor
  · exact fun _ => ⟨hop, hb, hw⟩
  · rw [h]; exact ⟨fun h => (nomatch h), fun h => (nomatch h)⟩
  · rw [h]; exact fun h => (nomatch h)
  all_goals first
    | exact hd
    | exact fun ha => absurd (h.symm.trans ha.1) (by decide)

theorem unitStart_inv : CallInv unitStart :=
  start_inv _ rfl (idle_inv _ rfl rfl rfl (fun p => by fin_cases p <;> rfl) fun i => by simp [idle, State.reset, prm])

/-- DecodeOfEncode: a transaction with operands. -/
theorem witness_decodeOfEncode : WellFormed (.wr 0xFC#8 0xFFFFFFFF#32) = true := by decide

/-- EncodeOfDecode: a word of each format, and a read whose data bits are not 0. -/
theorem witness_encodeOfDecode :
    decode (.bus 0x10C00000001#41) = .ok (.wr 0x0C#8 1#32) ∧ decode (.bus 0x004FFFFFFFF#41) = .ok (.rd 0x04#8) ∧ decode (.cmd 2#32) = .ok .cmdAck ∧
      decode (.seq 0xD#4) = .ok .teardown := by decide

/-- StepRunsTransaction. -/
theorem witness_stepRunsTransaction :
    idle.pc.op.toNat ≤ 13 ∧ ({ idle with inbox := [.bus 0x10000000001#41] } : State).inbox = .bus 0x10000000001#41 :: [] ∧ decodeTransaction 0x10000000001#41 = .ok .cmdStart :=
  ⟨by decide, rfl, by decide⟩

/-- SequencerStepsOnlyWhileBusy: both clauses, with no event pending and with the host passing. -/
theorem witness_sequencerSteps :
    ((unitAt opLevel).callState = .busy ∧ decodeSeq (unitAt opLevel).pc.op = .ok .level ∧ (unitAt opLevel).inbox = []) ∧
    ({ unitAt opLevel with inbox := [.pass] } : State).inbox = .pass :: [] ∧
    (idle.callState ≠ .busy ∧ idle.pc.op.toNat ≤ 13 ∧ idle.inbox = []) ∧ ({ idle with inbox := [.pass] } : State).inbox = .pass :: [] :=
  ⟨⟨rfl, by decide, rfl⟩, rfl, ⟨by decide, by decide, rfl⟩, rfl⟩

/-- RegisterReadReturnsFields: the offsets of its clauses are aligned, and the map puts each where R12 does, the unlisted ones at both ends of their ranges. -/
theorem witness_registerRead :
    (([(0x00#8, Reg.cmd), (0x04#8, .status), (0x08#8, .seqpos), (0x0C#8, .ctrl), (0x10#8, .glevel), (0x14#8, .miRows), (0x18#8, .miCols),
      (0x1C#8, .miStride), (0x20#8, .miBase), (0x24#8, .frameFmt), (0x28#8, .reserved), (0x30#8, .planeBase 0), (0x44#8, .planeStride 1),
      (0x58#8, .planeSs 2), (0x5C#8, .reserved), (0xFC#8, .reserved)] : List (BitVec 8 × Reg)).all fun v =>
        offsetAligned v.1 && decide (regAt v.1 = v.2)) = true ∧
    OffsetUnlisted 0x28#8 ∧ OffsetUnlisted 0x5C#8 ∧ OffsetUnlisted 0x60#8 ∧ OffsetUnlisted 0xFC#8 ∧ ¬ OffsetUnlisted 0x58#8 :=
  ⟨by decide, .inl (by decide), .inl (by decide), .inr (by decide), .inr (by decide), fun h => by rcases h with h | h <;> revert h <;> decide⟩

/-- MisalignedTransactionRefused. -/
theorem witness_misaligned : (0x01#8).toNat % 4 ≠ 0 ∧ (0xFF#8).toNat % 4 ≠ 0 := by decide

/-- ConfigWriteStoresFields: the first and the last register of the group. -/
theorem witness_configWrite :
    configMask 0x10#8 = some 0xFF#32 ∧ configMask 0x58#8 = some 3#32 ∧ configMask 0x0C#8 = none ∧ configMask 0x5C#8 = none ∧
      idle.callState ≠ .busy ∧ offsetAligned 0x04#8 = true ∧ 0x04#8 ≠ 0x10#8 := by decide

/-- WritesDroppedOrCtrl: each way to be dropped, and `CTRL`. -/
theorem witness_writesDropped :
    (offsetAligned 0x10#8 = true ∧ configMask 0x10#8 ≠ none ∧ unitStart.callState = .busy) ∧ offsetAligned 0x04#8 = true ∧
    offsetAligned 0x08#8 = true ∧ (offsetAligned 0xFC#8 = true ∧ OffsetUnlisted 0xFC#8) ∧ offsetAligned 0x0C#8 = true :=
  ⟨⟨by decide, by decide, rfl⟩, by decide, by decide, ⟨by decide, .inr (by decide)⟩, by decide⟩

/-- CmdWriteRunsCommand: each command, and the first reserved word. -/
theorem witness_cmdWrite :
    decodeCmd 0#32 = .ok .cmdNop ∧ decodeCmd 1#32 = .ok .cmdStart ∧ decodeCmd 2#32 = .ok .cmdAck ∧ 2 < (3#32).toNat := by decide

/-- StartBeginsCall and AckReturnsToIdle: a state for each clause. -/
theorem witness_callStates :
    idle.callState = .idle ∧ unitStart.callState = .busy ∧ ({ idle with callState := .done } : State).callState ≠ .idle ∧
      ({ idle with callState := .fail } : State).callState ≠ .busy := ⟨rfl, rfl, by decide, by decide⟩

/-- IrqIsLevel: a next state of `CMD.ACK` and of `TEARDOWN`. -/
theorem witness_irq : (∃ t, exec .cmdAck { idle with callState := .done, irqEn := true } = .next t) ∧ ∃ t, exec .teardown (unitAt opTeardown) = .next t :=
  ⟨⟨_, rfl⟩, _, rfl⟩

/-- AllocAcquiresOrFaults: equality, and each capacity exceeded by one. -/
theorem witness_alloc :
    (64 ≤ (allocAt 64 4096 8#16 8#16).params.skipCap ∧ 64 * 64 ≤ (allocAt 64 4096 8#16 8#16).params.wbufCap) ∧
      (allocAt 63 4096 8#16 8#16).params.skipCap < 64 ∧ (allocAt 64 4095 8#16 8#16).params.wbufCap < 64 * 64 := by decide

/-- StageCopiesPlane: the unit's luma plane. -/
theorem witness_stage :
    (∀ r c, r < planeH (unitAt opStage) 0 → c < planeW (unitAt opStage) 0 →
      SampleAcceptable (unitAt opStage).params (unitAt opStage).cfg 0 r c ∧ wbufIndex (unitAt opStage) r c < (unitAt opStage).params.wbufCap) ∧
    planeW (unitAt opStage) 0 ≤ (unitAt opStage).work.wstride.toNat := by
  refine ⟨fun r c hr hc => ⟨unit_samples hr hc, ?_⟩, by decide⟩
  have hr : r < 8 := hr
  have hc : c < 8 := hc
  show r * 8 + c < 4096
  omega

/-- FlattenCopiesSkipFlags: the unit's grid, and an empty frame. -/
theorem witness_flatten :
    ((∀ a, GridByte (unitAt opFlatten).cfg a → acceptable (unitAt opFlatten).params a = true) ∧
      (unitAt opFlatten).cfg.miRows.toNat * (unitAt opFlatten).cfg.miCols.toNat ≤ (unitAt opFlatten).params.skipCap) ∧
    ∀ a, ¬ GridByte { unitCfg with miRows := 0#16 } a :=
  ⟨⟨unit_regions.1, by decide⟩, fun _ ⟨_, _, hr, _⟩ => Nat.not_lt_zero _ hr⟩

/-- SbsetupClipsExtent and SkipdetTestsClippedRegion: the last superblock of a clipped frame. -/
theorem witness_extent :
    (let s := at_ opSbsetup 1#13 2#13 0 edgeFrame
     8 * s.pc.sbc.toNat ≤ s.cfg.miCols.toNat ∧ 8 * s.pc.sbr.toNat ≤ s.cfg.miRows.toNat ∧ 8 * s.pc.sbr.toNat < s.cfg.miRows.toNat ∧
       8 * s.pc.sbc.toNat < s.cfg.miCols.toNat) ∧
    ∀ r c, r < 9 → c < 17 → acceptable prm (miAddr edgeFrame.cfg r c) = true := by
  refine ⟨by decide, fun r c hr hc => ?_⟩
  have : miAddr edgeFrame.cfg r c = 0x1000 + r * 17 + c := rfl
  rw [this]
  exact valid_below (by omega)

/-- LevelMapperProperties: the ends of both ranges. -/
theorem witness_levelMapper : (4 ≤ 4 ∧ 4 ≤ 256 ∧ 255 ≤ 255) ∧ (4 ≤ 256 ∧ 256 ≤ 256 ∧ 0 ≤ 255) ∧ (0#2).toNat ≤ (3#2).toNat := by decide

/-- LevelMapsTopLeftGain: the entry of superblock (1, 2), with a level and, for `gl = 0`, without. -/
theorem witness_level :
    0x1098 = edgeFrame.cfg.miBase.toNat + 8 * (1#13).toNat * edgeFrame.cfg.miStride.toNat + 8 * (2#13).toNat ∧ acceptable edgeFrame.params 0x1098 = true ∧
    (∃ t, exec .level (at_ opLevel 1#13 2#13 0 edgeFrame) = .next t ∧ t.work.level ≠ 0#8) ∧
      ∃ t, exec .level (at_ opLevel 1#13 2#13 0 { edgeFrame with cfg := { edgeFrame.cfg with gl := 0#8 } }) = .next t ∧ t.work.level = 0#8 :=
  ⟨by decide, by decide, ⟨_, rfl, by decide⟩, _, rfl, by decide⟩

/-- EmptySkipRegionRefused: both disjuncts, at equality. -/
theorem witness_emptyRegion :
    ({ idle with cfg := { unitCfg with miRows := 0#16 } } : State).cfg.miRows.toNat ≤ 8 * idle.pc.sbr.toNat ∧
      (at_ opSkipdet 0#13 1#13 0 { idle with cfg := { unitCfg with miCols := 8#16 } }).cfg.miCols.toNat ≤ 8 * (1#13).toNat := by decide

/-- ThreshScalesLevel: the smallest level that is not 0. -/
theorem witness_thresh : 1 ≤ (threshAt 1 1#8 7#3).work.level.toNat := by decide

/-- KernelStoresOutput: the unit at `KERNEL`. -/
theorem witness_kernel :
    (∀ r c, r < planeH (unitAt opKernel) 0 → c < planeW (unitAt opKernel) 0 →
      ((unitAt opKernel).wbuf.get 0).holds (wbufIndex (unitAt opKernel) r c) = true) ∧
    (∀ r c, r < (unitAt opKernel).work.nvb.toNat → c < (unitAt opKernel).work.nhb.toNat →
      (unitAt opKernel).bskip.holds ((8 * 0 + r) * (unitAt opKernel).cfg.miCols.toNat + (8 * 0 + c)) = true) ∧
    rectH (unitAt opKernel) 0 ≤ 64 ∧ rectW (unitAt opKernel) 0 ≤ 64 := by
  refine ⟨?_, ?_, by decide, by decide⟩
  · have h : stagedReady (unitAt opKernel) 0 = true := by decide
    intro r c hr hc
    exact List.all_eq_true.mp h (r, c) (mem_rowMajor.mpr ⟨hr, hc⟩)
  · intro r c hr hc
    have hr : r < 1 := hr
    have hc : c < 1 := hc
    obtain rfl : r = 0 := by omega
    obtain rfl : c = 0 := by omega
    rfl

/-- KernelSeesOnlyItsArguments: two states that agree on the arguments and differ in memory, `DST`, the plane's base and stride, the other buffers and entries
beyond the staged extent. -/
theorem witness_kernelSees :
    (let s := unitAt opKernel
     let t := { s with
       cfg := { s.cfg with planes := { s.cfg.planes with p0 := { s.cfg.planes.p0 with base := 0#32, stride := 0#32 } } }
       mem := [], dst := [], wbuf := ⟨s.wbuf.p0 ++ [(64, 7#16)], [(0, 1#16)], []⟩, bskip := s.bskip ++ [(1, 1#1)] }
     s.cfg.miRows = t.cfg.miRows ∧ s.cfg.miCols = t.cfg.miCols ∧ (s.cfg.planes.get 0).ssX = (t.cfg.planes.get 0).ssX ∧
       (s.cfg.planes.get 0).ssY = (t.cfg.planes.get 0).ssY ∧ s.cfg ≠ t.cfg ∧ s.work = t.work ∧ s.pc = t.pc ∧ s.dir = t.dir ∧ s ≠ t ∧
       ((rowMajor 8 8).all fun q => decide ((s.wbuf.get 0).get (wbufIndex s q.1 q.2) = (t.wbuf.get 0).get (wbufIndex s q.1 q.2))) = true ∧
       s.bskip.get (bskipIndex s (sbRow s + 0) (sbCol s + 0)) = t.bskip.get (bskipIndex s (sbRow s + 0) (sbCol s + 0))) :=
  ⟨rfl, rfl, rfl, rfl, fun h => absurd (congrArg (fun c => c.planes.p0.base) h) (by decide), rfl, rfl, rfl,
    fun h => absurd (congrArg State.dst h) (by decide), by decide, rfl⟩

/-- KernelArgumentRecord: the unit's last staged sample and its skip flag. -/
theorem witness_kernelRecord :
    ((unitAt opKernel).wbuf.get 0).get (7 * (unitAt opKernel).work.wstride.toNat + 7) = some 0x64#16 ∧ 7 < 8 * (unitAt opKernel).cfg.miRows.toNat ∧
      (unitAt opKernel).bskip.get ((8 * 0 + 0) * 1 + (8 * 0 + 0)) = some 0#1 ∧ 0 < (unitAt opKernel).work.nvb.toNat := by decide

/-- Both stub kernels of 95_test_vectors.md section 3 are admissible; `KCOPY` has KSkipIdentity, R175. -/
theorem kcopy_skipIdentity : KSkipIdentity kcopy := fun _ _ _ _ _ _ _ _ _ _ _ _ => rfl

/-- SkipUnitsComeBackStaged: `KCOPY` on the unit with its skip flag 1, at the unit's first and last sample. -/
theorem witness_skipUnits :
    (let s := { unitAt opKernel with bskip := [(0, 1#1)] }
     KSkipIdentity kcopy ∧ (∃ t, kernelWith kcopy s = .next t) ∧ Latched s ∧ rectRow s 0 + rectH s 0 ≤ planeH s 0 ∧
       rectCol s 0 + rectW s 0 ≤ planeW s 0 ∧ 0 < s.work.nvb.toNat ∧ 0 < s.work.nhb.toNat ∧
       s.bskip.get (bskipIndex s (sbRow s + 0) (sbCol s + 0)) = some 1#1 ∧ 7 < unitH s 0 * 0 + unitH s 0 ∧ 7 < unitW s 0 * 0 + unitW s 0) := by
  refine ⟨kcopy_skipIdentity, ⟨_, rfl⟩, ?_, by decide, by decide, by decide, by decide, rfl, by decide, by decide⟩
  obtain ⟨h1, h2, h3, h4, h5, h6, h7⟩ := (unit_inv opKernel (by decide)).latched ⟨rfl, by decide, by decide⟩
  exact ⟨h1, h2, h3, h4, h5, h6, h7⟩

/-- WritebackStoresRectangle and WritebackFrame: the unit at `WRITEBACK`. -/
theorem witness_writeback :
    (∀ r c, r < rectH (unitAt opWriteback) 0 → c < rectW (unitAt opWriteback) 0 →
      (unitAt opWriteback).dst.holds (dstIndex r c) = true ∧
        SampleAcceptable (unitAt opWriteback).params (unitAt opWriteback).cfg 0 (rectRow (unitAt opWriteback) 0 + r)
          (rectCol (unitAt opWriteback) 0 + c)) ∧
    rectCol (unitAt opWriteback) 0 + rectW (unitAt opWriteback) 0 ≤ ((unitAt opWriteback).cfg.planes.get 0).stride.toNat ∧
    ∃ t, exec .writeback (unitAt opWriteback) = .next t := by
  have h : dstReady (unitAt opWriteback) 0 = true := by decide
  refine ⟨fun r c hr hc => ⟨List.all_eq_true.mp h (r, c) (mem_rowMajor.mpr ⟨hr, hc⟩), ?_⟩, by decide, ⟨_, rfl⟩⟩
  have hr : r < 8 := hr
  have hc : c < 8 := hc
  exact unit_samples (show 0 + r < 8 by omega) (show 0 + c < 8 by omega)

/-- NextsbAdvancesRowMajor: the largest counts, and a position for each clause. -/
theorem witness_nextsb :
    (8192#14).toNat ≤ 8192 ∧ edgeFrame.work.nhsb.toNat ≤ 8192 ∧ edgeFrame.work.nvsb.toNat ≤ 8192 ∧
      (0#13).toNat + 1 < edgeFrame.work.nhsb.toNat ∧ (¬ (2#13).toNat + 1 < edgeFrame.work.nhsb.toNat ∧ (0#13).toNat + 1 < edgeFrame.work.nvsb.toNat) ∧
      ¬ (1#13).toNat + 1 < edgeFrame.work.nvsb.toNat := by decide

/-- The unit with a plane and a grid beyond the 32-bit address space but for their first byte. -/
def unitBad (op : BitVec 4) : State :=
  { unitAt op with
    cfg := { unitCfg with miBase := 0xFFFFFFFF#32, miCols := 2#16, planes := ⟨⟨0xFFFFFFFF#32, 8#32, 0#1, 0#1⟩, unitCfg.planes.p1, unitCfg.planes.p2⟩ } }

/-- BusFaultOfReaders: an unacceptable address for each of the four operations. -/
theorem witness_busFault :
    (∃ r c, r < planeH (unitBad opStage) 0 ∧ c < planeW (unitBad opStage) 0 ∧ ¬ SampleAcceptable prm (unitBad opStage).cfg 0 r c) ∧
    (∃ a, GridByte (unitBad opFlatten).cfg a ∧ acceptable prm a = false) ∧
    acceptable prm (miAddr { unitCfg with miBase := 0xFFFFFFFF#32, miStride := 1#16 } (8 * 1) 0) = false ∧
    (∃ r c, 0 ≤ r ∧ r < min 8 1 ∧ 0 ≤ c ∧ c < min 8 2 ∧ acceptable prm (miAddr (unitBad opSkipdet).cfg r c) = false) := by
  refine ⟨⟨0, 1, by decide, by decide, fun h => ?_⟩, ⟨_, ⟨0, 1, by decide, by decide, rfl⟩, by decide⟩, by decide, ⟨0, 1, by decide⟩⟩
  have := h 0 (by decide)
  revert this
  decide

/-- WritebackFaultIsPrecise: the second sample of the rectangle is the first that is not acceptable. -/
theorem witness_writebackFault :
    (let s := unitBad opWriteback
     rectPositions s = [(0, 0)] ++ (0, 1) :: (rectPositions s).drop 2 ∧ dstReady s 0 = true ∧
       (∀ x ∈ [(0, 0)], SampleAcceptable s.params s.cfg 0 (rectRow s 0 + x.1) (rectCol s 0 + x.2)) ∧
       ¬ SampleAcceptable s.params s.cfg 0 (rectRow s 0 + 0) (rectCol s 0 + 1) ∧
       rectCol s 0 + rectW s 0 ≤ (s.cfg.planes.get 0).stride.toNat) := by
  refine ⟨by decide, by decide, ?_, ?_, by decide⟩
  · intro x hx
    obtain rfl := List.mem_singleton.mp hx
    intro b hb
    have hb : b < 1 := hb
    obtain rfl : b = 0 := by omega
    decide
  · intro h
    have := h 0 (by decide)
    revert this
    decide

/-- TwoByteAccess: accepted, and refused because of the upper byte alone, at the top of the address space. -/
theorem witness_twoByte :
    (acceptable prm 0xFFFFFFFE = true ∧ acceptable prm (0xFFFFFFFE + 1) = true) ∧
      acceptable prm 0xFFFFFFFF = true ∧ acceptable prm (0xFFFFFFFF + 1) = false := by decide

/-- WriteOfReadIsIdentity: a sample of each container. -/
theorem witness_writeOfRead :
    unitMem.wf ∧ readSample prm unitCfg unitMem 0 0 0 = some 0x64#16 ∧
      readSample prm { unitCfg with hbd := 1#1 } unitMem 0 0 0 = some 0x64#16 := by
  refine ⟨⟨by simp [unitMem, rising], by simp [unitMem, Memory.unlisted]⟩, by decide, by decide⟩

/-- ResetAbandonsCall: a reset inside a `WRITEBACK`, and one in `IDLE`. -/
theorem witness_resetAbandons :
    (let s := { unitAt opWriteback with inbox := [.reset 3] }
     s.pc.op.toNat ≤ 13 ∧ s.inbox = .reset 3 :: [] ∧ ¬ (s.callState = .busy ∧ s.pc.op = opWriteback ∧ dstReady s s.pc.pli = false)) ∧
    ¬ (idle.callState = .busy ∧ idle.pc.op = opWriteback) :=
  ⟨⟨by decide, rfl, fun h => absurd h.2.2 (by decide)⟩, fun h => absurd h.1 (by decide)⟩

/-- HostMemoryOnlyOutsideCall: both accesses, outside a call and in one, at the last address. -/
theorem witness_hostMemory :
    idle.pc.op.toNat ≤ 13 ∧ unitStart.pc.op.toNat ≤ 13 ∧
      ({ idle with inbox := [.peek 0xFFFFFFFF#32] } : State).inbox = .peek 0xFFFFFFFF#32 :: [] ∧
    ({ idle with inbox := [.poke 0xFFFFFFFF#32 1#8] } : State).inbox = .poke 0xFFFFFFFF#32 1#8 :: [] ∧ idle.callState ≠ .busy ∧
      unitStart.callState = .busy := ⟨by decide, by decide, rfl, rfl, by decide, rfl⟩

/-- CanonicalKept: a step of the unit at `WRITEBACK`. -/
theorem witness_canonical : Canonical (unitAt opWriteback) ∧ ∃ t, step (unitAt opWriteback) = .next t := by
  refine ⟨⟨⟨by simp [unitAt, unitMem, rising], by simp [unitAt, unitMem, Memory.unlisted]⟩, by decide, by simp [unitAt, rising], by simp [unitAt, rising],
    by simp [unitAt, rising], by decide⟩, _, rfl⟩

/-- CallInvKept, SequencerNeverStops, OnlyActivePlanesWritten, ConfigFrozenDuringCall, OnlyWritebackStores, ScratchWriters: states that meet the invariant, at
the start of a call and inside the superblock loop, each with its turn and a next state. -/
theorem witness_callInv :
    (CallInv unitStart ∧ unitStart.callState = .busy ∧ SequencerHasTurn unitStart ∧ ∃ t, step unitStart = .next t) ∧
    (CallInv (unitAt opWriteback) ∧ (unitAt opWriteback).callState = .busy ∧ SequencerHasTurn (unitAt opWriteback) ∧
      ∃ t, step (unitAt opWriteback) = .next t) ∧
    (CallInv (unitAt opKernel) ∧ SequencerHasTurn (unitAt opKernel) ∧ ∃ t, step (unitAt opKernel) = .next t) :=
  ⟨⟨unitStart_inv, rfl, .inl rfl, _, rfl⟩, ⟨unit_inv _ (by decide), rfl, .inl rfl, _, rfl⟩, ⟨unit_inv _ (by decide), .inl rfl, _, rfl⟩⟩

/-- OnlyActivePlanesWritten: the grid's byte belongs to no active plane (`unit_apart` meets the premise of its second clause). -/
theorem witness_inactiveByte : ∀ p, PlaneActive unitCfg p → ¬ PlaneByte unitCfg p 0x1000 := by
  rintro p hp ⟨r, k, _, _, b, _, he⟩
  have hp : p.val < 1 := hp
  obtain rfl : p = 0 := Fin.ext (Nat.lt_one_iff.mp hp)
  have : sampleAddr unitCfg 0 r k = 0x2000 + (r * 8 + k) * 1 := rfl
  omega

/-- OnlyWritebackStores, ScratchWriters, CallStateTransitions, StickyStatusBits: a step that is neither a host write, a `WRITEBACK` nor a reset. -/
theorem witness_otherStep :
    (∃ t, step unitStart = .next t) ∧ (∀ a b rest, unitStart.inbox ≠ .poke a b :: rest) ∧ (∀ n rest, unitStart.inbox ≠ .reset n :: rest) ∧
      ¬ (unitStart.callState = .busy ∧ unitStart.pc.op = opWriteback) :=
  ⟨⟨_, rfl⟩, fun _ _ _ h => (nomatch h), fun _ _ h => (nomatch h), fun h => absurd h.2 (by decide)⟩

/-- CallStateTransitions and StickyStatusBits: steps that change the state of the protocol, the error code and `ILLCMD`. -/
theorem witness_transitions :
    (∃ t, step (unitAt opTeardown) = .next t ∧ t.callState ≠ (unitAt opTeardown).callState) ∧
    (∃ t, step { unitAt opTeardown with work := { (unitAt opTeardown).work with errPend := .bus } } = .next t ∧ t.err ≠ (unitAt opTeardown).err) ∧
    (∃ t, step { idle with illcmd := true, inbox := [.bus 0x10000000002#41] } = .next t ∧ t.illcmd = false) ∧
    ∃ t, step { idle with err := .alloc, inbox := [.bus 0x10000000001#41] } = .next t ∧ t.err = .noError :=
  ⟨⟨_, rfl, by decide⟩, ⟨_, rfl, by decide⟩, ⟨_, rfl, rfl⟩, _, rfl, rfl⟩

/-- CallEndsWithinBound: the unit's call with a read of `STATUS`, an early `CMD.ACK` and a pass pending. -/
theorem witness_callEvents :
    (let s := startCall { idle with cfg := unitCfg, mem := unitMem, inbox := [.bus 0x00400000000#41, .bus 0x10000000002#41, .pass] }
     CallInv s ∧ s.callState = .busy ∧ CallEvents s.inbox ∧ callTurns 5 s = 3) := by
  refine ⟨start_inv _ rfl (idle_inv _ rfl rfl rfl (fun p => by fin_cases p <;> rfl) fun i => by simp [idle, State.reset, prm]), rfl, ?_, by decide⟩
  intro e he
  have he : e ∈ [Event.bus 0x00400000000#41, .bus 0x10000000002#41, .pass] := he
  simp only [List.mem_cons, List.not_mem_nil, or_false] at he
  rcases he with rfl | rfl | rfl
  · exact .inr ⟨_, .rd 0x04#8, rfl, by decide⟩
  · exact .inr ⟨_, .cmdAck, rfl, by decide⟩
  · exact .inl rfl

/-- SkippedSuperblockUntouched: the unit's rows and regions are apart. -/
theorem unit_apart : RowsApart unitCfg ∧ RegionsApart unitCfg := by
  have h1 : unitCfg.miRows.toNat = 1 := rfl
  have h2 : unitCfg.miCols.toNat = 1 := rfl
  have one : ∀ p, PlaneActive unitCfg p → p = 0 := fun p hp => Fin.ext (Nat.lt_one_iff.mp hp)
  refine ⟨⟨by decide, fun p hp => ?_⟩, ?_⟩
  · rw [one p hp]; decide
  · rintro p a hp ⟨r, k, _, _, b, _, rfl⟩
    rw [one p hp]
    refine ⟨?_, fun q hq hne => absurd (one q hq) hne⟩
    rintro ⟨r', k', hr', hk', he⟩
    have e1 : sampleAddr unitCfg 0 r k = 0x2000 + (r * 8 + k) * 1 := rfl
    have e2 : miAddr unitCfg r' k' = 0x1000 + r' * 1 + k' := rfl
    omega

/-- SkippedSuperblockUntouched: a unit of gain index 0, and one that is skip-coded; its last byte. -/
theorem witness_skipped :
    SuperblockSkipped prm unitCfg [(0x1000, 0x00#8)] 0 0 ∧ SuperblockSkipped prm unitCfg [(0x1000, 0x03#8)] 0 0 ∧
      PlaneActive unitCfg 0 ∧ SuperblockByte unitCfg 0 0 0 0x203F := by
  refine ⟨.inl (by decide), .inr ?_, by unfold PlaneActive; decide, 7, 7, by decide, by decide, by decide, by decide, 0, by decide, by decide⟩
  intro r k h1 h2 h3 h4
  have h2 : r < min 8 1 := h2
  have h4 : k < min 8 1 := h4
  obtain rfl : r = 0 := by omega
  obtain rfl : k = 0 := by omega
  decide

/-- ReservedCodesNeverArise: both codes, and a step. -/
theorem witness_reserved : (unitAt 0xE#4).pc.op = 0xE#4 ∧ (unitAt 0xF#4).pc.op = 0xF#4 ∧ ∃ t, step unitStart = .next t := ⟨rfl, rfl, _, rfl⟩

/-- CallEndsWithinBound and SoundCallEndsDone: the unit's call fits and its regions are acceptable. -/
theorem witness_soundCall :
    CallInv unitStart ∧ unitStart.callState = .busy ∧ unitStart.pc.op = opPlaneact ∧ unitStart.inbox = [] ∧
      RegionsAcceptable unitStart.params unitStart.cfg ∧ overCapacity unitStart.params unitStart.cfg = false :=
  ⟨unitStart_inv, rfl, rfl, rfl, unit_regions, by decide⟩

/-- SoundCallEndsDone, the request that does not fit, and GlobalLevelZeroIsNoop. -/
theorem witness_otherCalls :
    (let s := startCall { idle with cfg := { unitCfg with miRows := 5#16, miCols := 13#16, gl := 0#8 } }
     CallInv s ∧ s.callState = .busy ∧ s.pc.op = opPlaneact ∧ s.inbox = [] ∧ overCapacity s.params s.cfg = true ∧ s.cfg.gl = 0#8) :=
  ⟨start_inv _ rfl (idle_inv _ rfl rfl rfl (fun p => by fin_cases p <;> rfl) fun i => by simp [idle, State.reset, prm]), rfl, rfl, rfl, by decide, rfl⟩

/-- TilingIsPartition: the last unit of a clipped frame. -/
theorem witness_tiling : 8 < (9#16).toNat ∧ 16 < (17#16).toNat := by decide

/-- HistoryDoesNotMatter: two machines at the start of the unit's call whose working registers and scratch memories differ. -/
theorem witness_history :
    (let t := startCall { idle with
        cfg := unitCfg, mem := unitMem, wbuf := ⟨[(0, 9#16)], [(3, 1#16)], []⟩, bskip := [(0, 1#1)], dst := [(5, 5#16)], dir := Vector.replicate 64 7
        work := { Work.reset with nplanes := 3#2, level := 9#8, allSkip := true }, irqEn := true }
     CallInv unitStart ∧ CallInv t ∧ unitStart.callState = .busy ∧ t.callState = .busy ∧ unitStart.pc.op = opPlaneact ∧ t.pc.op = opPlaneact ∧
       unitStart.inbox = [] ∧ t.inbox = [] ∧ unitStart.params = t.params ∧ unitStart.cfg = t.cfg ∧ unitStart.mem = t.mem ∧ unitStart ≠ t) := by
  refine ⟨unitStart_inv, start_inv _ rfl (idle_inv _ rfl rfl rfl (fun p => by fin_cases p <;> rfl) fun i => ?_), rfl, rfl, rfl, rfl, rfl, rfl, rfl, rfl, rfl,
    fun h => absurd (congrArg State.irqEn h) (by decide)⟩
  simp [idle, prm]

end Sys2Proof.Tests
end

section
/-! SUPPORT. The scope of a step (00_scope.md): what the sequencer's operations leave to the host, what the host's commands keep, and the statements about the configuration,
the transactions and the host's own accesses to memory. -/

namespace Sys2Proof.Machine

/-! The frame of a sequencer operation. -/

/-- From `s` to `t` nothing changed of what is the host's alone: the parameters, the configuration, `CTRL`, `STATUS.ILLCMD`, the pending events and the value last
read (10_state.md R12, R13, R27). -/
structure HostSideKept (s t : State) : Prop where
  params : t.params = s.params
  cfg    : t.cfg = s.cfg
  irqEn  : t.irqEn = s.irqEn
  illcmd : t.illcmd = s.illcmd
  inbox  : t.inbox = s.inbox
  rdata  : t.rdata = s.rdata

theorem HostSideKept.trans {s t u : State} (h : HostSideKept s t) (h' : HostSideKept t u) : HostSideKept s u where
  params := h'.params.trans h.params
  cfg := h'.cfg.trans h.cfg
  irqEn := h'.irqEn.trans h.irqEn
  illcmd := h'.illcmd.trans h.illcmd
  inbox := h'.inbox.trans h.inbox
  rdata := h'.rdata.trans h.rdata

/-- Any update of the sequencer's own registers, scratch memories and system memory is such a change. -/
theorem hostSideKept_update (s : State) (callState : CallState) (err : ErrCode) (pc : Pos) (work : Work) (wbuf : PerPlane (Scratch 16))
    (bskip : Scratch 1) (dir : Vector Nat 64) (dst : Scratch 16) (bskipAlloc : Bool) (wbufAlloc : PerPlane Bool) (mem : Memory) :
    HostSideKept s { s with callState, err, pc, work, wbuf, bskip, dir, dst, bskipAlloc, wbufAlloc, mem } :=
  ⟨rfl, rfl, rfl, rfl, rfl, rfl⟩

theorem hostSideKept_afterStage (s : State) : HostSideKept s (afterStage s) := by
  obtain ⟨q, -, -, h⟩ | ⟨-, h⟩ := afterStage_cases s
  · rw [h]; exact hostSideKept_update ..
  · rw [h]; exact hostSideKept_update ..

theorem hostSideKept_afterFlatten (s : State) : HostSideKept s (afterFlatten s) := by
  unfold afterFlatten
  split
  · exact hostSideKept_update ..
  · exact hostSideKept_update ..

/-- No sequencer operation changes what is the host's alone. -/
theorem exec_operation_hostSideKept {w : BitVec 4} {i : Instr} {s t : State} (hi : decodeSeq w = .ok i) (h : exec i s = .next t) :
    HostSideKept s t := by
  have henc := decodeSeq_ok hi
  cases i with
  | rd | wr | cmdNop | cmdStart | cmdAck => cases henc
  | planeact => cases h; exact hostSideKept_update ..
  | alloc =>
    obtain ⟨-, he⟩ | ⟨-, he⟩ := execAlloc_cases s
    · cases he.symm.trans h; exact hostSideKept_update ..
    · cases he.symm.trans h; exact hostSideKept_update ..
  | stage =>
    obtain ⟨-, ⟨-, rfl⟩ | ⟨-, rfl⟩⟩ := execStage_next h
    · exact (hostSideKept_update ..).trans (hostSideKept_afterStage _)
    · exact hostSideKept_update ..
  | flatten =>
    obtain ⟨-, ⟨-, rfl⟩ | ⟨-, rfl⟩⟩ := execFlatten_next h
    · exact (hostSideKept_update ..).trans (hostSideKept_afterFlatten _)
    · exact hostSideKept_update ..
  | sbsetup =>
    obtain ⟨-, -, rfl⟩ := execSbsetup_next h
    exact hostSideKept_update ..
  | level =>
    obtain ⟨-, he⟩ | ⟨-, _, -, he⟩ := execLevel_cases s
    · cases he.symm.trans h; exact hostSideKept_update ..
    · cases he.symm.trans h; exact hostSideKept_update ..
  | skipdet =>
    obtain ⟨-, -, ⟨-, rfl⟩ | ⟨-, rfl⟩ | ⟨-, rfl⟩⟩ := execSkipdet_next h
    · exact hostSideKept_update ..
    · exact hostSideKept_update ..
    · exact hostSideKept_update ..
  | thresh => cases h; exact hostSideKept_update ..
  | kernel =>
    obtain ⟨-, -, -, -, rfl⟩ := kernelWith_next h
    exact hostSideKept_update ..
  | writeback =>
    obtain ⟨-, ⟨-, rfl⟩ | ⟨-, rfl⟩⟩ := execWriteback_next h
    · exact hostSideKept_update ..
    · exact hostSideKept_update ..
  | nextpl =>
    obtain ⟨_, -, -, he⟩ | ⟨-, he⟩ := execNextpl_cases s
    · cases he.symm.trans h; exact hostSideKept_update ..
    · cases he.symm.trans h; exact hostSideKept_update ..
  | nextsb =>
    obtain ⟨-, -, rfl⟩ | ⟨-, -, -, rfl⟩ | ⟨-, -, rfl⟩ := execNextsb_next h
    · exact hostSideKept_update ..
    · exact hostSideKept_update ..
    · exact hostSideKept_update ..
  | teardown => cases h; exact hostSideKept_update ..

/-! What the host's transactions do to the parameters and the configuration. -/

/-- From `s` to `t` the parameters are the same, and so is the configuration when `s` is `BUSY` (10_state.md R13, 40_host_commands.md R82). -/
def ConfigKept (s t : State) : Prop := t.params = s.params ∧ (s.callState = .busy → t.cfg = s.cfg)

theorem startCall_configKept (s : State) : ConfigKept s (startCall s) := by
  obtain ⟨-, h⟩ | ⟨-, h⟩ := startCall_cases s
  · rw [h]; exact ⟨rfl, fun _ => rfl⟩
  · rw [h]; exact ⟨rfl, fun _ => rfl⟩

theorem acknowledge_configKept (s : State) : ConfigKept s (acknowledge s) := by
  obtain ⟨-, h⟩ | ⟨-, h⟩ := acknowledge_cases s
  · rw [h]; exact ⟨rfl, fun _ => rfl⟩
  · rw [h]; exact ⟨rfl, fun _ => rfl⟩

theorem runCommand_configKept (d : Word) (s : State) : ConfigKept s (runCommand d s) := by
  obtain h | h | ⟨-, h⟩ | h := runCommand_cases d s
  · rw [h]; exact ⟨rfl, fun _ => rfl⟩
  · rw [h]; exact startCall_configKept s
  · rw [h]; exact acknowledge_configKept s
  · rw [h]; exact ⟨rfl, fun _ => rfl⟩

/-- A register write reaches the configuration only outside `BUSY`. -/
theorem writePort_configKept (r : Reg) (d : Word) (s : State) : ConfigKept s (writePort r d s) := by
  obtain h | ⟨_, h⟩ | ⟨hb, _, h⟩ | ⟨-, h⟩ := writePort_cases r d s
  · rw [h]; exact ⟨rfl, fun _ => rfl⟩
  · rw [h]; exact ⟨rfl, fun _ => rfl⟩
  · rw [h]; exact ⟨rfl, fun hbusy => absurd hbusy hb⟩
  · rw [h]; exact runCommand_configKept d s

theorem exec_transaction_configKept {w : BitVec 41} {i : Instr} {s t : State} (hi : decodeTransaction w = .ok i)
    (h : exec i s = .next t) : ConfigKept s t := by
  obtain ⟨off, rfl⟩ | ⟨off, d, rfl⟩ | rfl | rfl | rfl := decodeTransaction_ok hi
  · obtain ⟨-, rfl⟩ := execRd_next h
    exact ⟨rfl, fun _ => rfl⟩
  · obtain ⟨-, rfl⟩ := execWr_next h
    exact writePort_configKept _ d s
  · cases h; exact ⟨rfl, fun _ => rfl⟩
  · cases h; exact startCall_configKept s
  · cases h; exact acknowledge_configKept s

/-- A reset keeps the parameters (00_scope.md R4). -/
theorem resetAt_params {n : Nat} {s t : State} (h : resetAt n s = .next t) : t.params = s.params := by
  obtain rfl | ⟨-, -, -, rfl⟩ := resetAt_next h
  · exact hardReset_params _ s
  · exact hardReset_params _ s

/-- Settles O50: by who moved (`step_cases`). The sequencer's operations keep both by their frame, a transaction by `ConfigKept`; a stopped sequencer and the host's
own accesses to memory change neither. -/
theorem configFrozenDuringCall : Obligations.ConfigFrozenDuringCall := by
  intro s t h
  obtain ⟨-, -, rfl⟩ | ⟨-, -, i, hi, he⟩ | ⟨w, rest, i, -, hi, he⟩ | ⟨a, b, rest, -, -, rfl⟩ | ⟨a, rest, -, -, rfl⟩ |
    ⟨n, rest, hin, he⟩ := step_cases h
  · exact ⟨rfl, fun _ _ => rfl⟩
  · have hkept := exec_operation_hostSideKept hi he
    exact ⟨hkept.params, fun _ _ => hkept.cfg⟩
  · obtain ⟨hparams, hcfg⟩ := exec_transaction_configKept hi he
    exact ⟨hparams, fun hbusy _ => hcfg hbusy⟩
  · exact ⟨rfl, fun _ _ => rfl⟩
  · exact ⟨rfl, fun _ _ => rfl⟩
  · have hparams := resetAt_params he
    exact ⟨hparams, fun _ hno => absurd hin (hno n rest)⟩

/-! The step at a pending event, one rule per event of the host. -/

section
variable {s : State} {rest : List Event} (hop : s.pc.op.toNat ≤ 13)
include hop

theorem step_bus {w : BitVec 41} {i : Instr} (hin : s.inbox = .bus w :: rest) (hi : decodeTransaction w = .ok i) :
    step s = exec i { s with inbox := rest } := by
  rw [step_of_event hop hin, runEvent, hi, runDecoded]

theorem step_poke_busy {a : BitVec 32} {b : Byte} (hin : s.inbox = .poke a b :: rest) (hbusy : s.callState = .busy) :
    step s = .refused .hostMemoryWhileBusy :=
  (step_of_event hop hin).trans (if_pos hbusy)

theorem step_poke_next {a : BitVec 32} {b : Byte} (hin : s.inbox = .poke a b :: rest) (hbusy : s.callState ≠ .busy) :
    step s = .next { s with inbox := rest, mem := s.mem.write a.toNat b } :=
  (step_of_event hop hin).trans (if_neg hbusy)

theorem step_peek_busy {a : BitVec 32} (hin : s.inbox = .peek a :: rest) (hbusy : s.callState = .busy) :
    step s = .refused .hostMemoryWhileBusy :=
  (step_of_event hop hin).trans (if_pos hbusy)

theorem step_peek_next {a : BitVec 32} (hin : s.inbox = .peek a :: rest) (hbusy : s.callState ≠ .busy) :
    step s = .next { s with inbox := rest, rdata := (s.mem.read a.toNat).setWidth 32 } :=
  (step_of_event hop hin).trans (if_neg hbusy)

end

/-- Settles O5: the rule `step_bus`. -/
theorem stepRunsTransaction : Obligations.StepRunsTransaction :=
  fun _ _ _ _ hop hin hi => step_bus hop hin hi

/-- Settles O40: the rules of the two accesses; what the write does to each byte is `Memory.read_write_same` and `Memory.read_write_other`, and a byte widened to a
word keeps its value. -/
theorem hostMemoryOnlyOutsideCall : Obligations.HostMemoryOnlyOutsideCall := by
  intro s a rest hop
  refine ⟨fun b hin => ⟨step_poke_busy hop hin, fun hbusy => ⟨_, step_poke_next hop hin hbusy, rfl, ?_, fun x hx => ?_⟩⟩,
    fun hin => ⟨step_peek_busy hop hin, fun hbusy => ⟨_, step_peek_next hop hin hbusy, rfl, ?_⟩⟩⟩
  · exact Memory.read_write_same s.mem a.toNat b
  · exact Memory.read_write_other s.mem b hx
  · exact BitVec.toNat_setWidth_of_le (by decide)

end Sys2Proof.Machine
end

section
/-! SUPPORT. What one move can change (10_state.md): the cases of a transaction, the answers of the operations by what they meet, the frame of an
operation; and the statements about the state of the call, the sticky status bits, the writers of scratch, the sequencer's turn, the interrupt and
reset. -/

namespace Sys2Proof

/-- The same value for each plane. -/
theorem PerPlane.get_const {α : Type} (v : α) (p : Plane) : (PerPlane.mk v v v).get p = v := by
  fin_cases p <;> rfl

end Sys2Proof

namespace Sys2Proof.Machine

/-! What a transaction can do. -/

/-- Only offset 0 is `CMD` (10_state.md R12). -/
theorem regAt_eq_cmd {off : BitVec 8} (h : regAt off = .cmd) : off = 0#8 := by
  revert off; decide

/-- A reserved command word sets `ILLCMD` and does nothing else. -/
theorem runCommand_reserved {d : Word} (h : 2 < d.toNat) (s : State) : runCommand d s = setIllcmd s := by
  rw [runCommand, if_neg (by bv_omega), if_neg (by bv_omega), if_neg (by bv_omega)]

/-- The cases of a transaction: `CMD.START`; `CMD.ACK`; a reserved command; a configuration write outside `BUSY`; at most `CTRL` and the value last
read change. -/
theorem exec_transaction_cases {w : BitVec 41} {i : Instr} {s t : State} (hi : decodeTransaction w = .ok i) (h : exec i s = .next t) :
    (i = .cmdStart ∧ t = startCall s) ∨ (i = .cmdAck ∧ t = acknowledge s) ∨ t = setIllcmd s ∨
      (s.callState ≠ .busy ∧ ∃ cfg, t = { s with cfg }) ∨ ∃ irqEn rdata, t = { s with irqEn, rdata } := by
  obtain ⟨off, rfl⟩ | ⟨off, d, rfl⟩ | rfl | rfl | rfl := decodeTransaction_ok hi
  · obtain ⟨-, rfl⟩ := execRd_next h
    exact .inr (.inr (.inr (.inr ⟨_, _, rfl⟩)))
  · obtain ⟨-, rfl⟩ := execWr_next h
    obtain h | ⟨_, h⟩ | ⟨hb, _, h⟩ | ⟨hcmd, h⟩ := writePort_cases (regAt off) d s
    · exact .inr (.inr (.inr (.inr ⟨s.irqEn, s.rdata, h⟩)))
    · exact .inr (.inr (.inr (.inr ⟨_, s.rdata, h⟩)))
    · exact .inr (.inr (.inr (.inl ⟨hb, _, h⟩)))
    · have hd := decodeTransaction_wr hi (regAt_eq_cmd hcmd)
      exact .inr (.inr (.inl (h.trans (runCommand_reserved hd s))))
  · cases h
    exact .inr (.inr (.inr (.inr ⟨s.irqEn, s.rdata, rfl⟩)))
  · cases h
    exact .inl ⟨rfl, rfl⟩
  · cases h
    exact .inr (.inl ⟨rfl, rfl⟩)

/-- From `s` to `t` no scratch memory and no allocation flag changed (10_state.md R17 to R20). -/
structure ScratchKept (s t : State) : Prop where
  wbuf       : t.wbuf = s.wbuf
  bskip      : t.bskip = s.bskip
  dst        : t.dst = s.dst
  dir        : t.dir = s.dir
  bskipAlloc : t.bskipAlloc = s.bskipAlloc
  wbufAlloc  : t.wbufAlloc = s.wbufAlloc

/-- Any update of the registers and of system memory is such a change. -/
theorem scratchKept_update (s : State) (cfg : Cfg) (irqEn : Bool) (callState : CallState) (illcmd : Bool) (err : ErrCode) (pc : Pos) (work : Work)
    (mem : Memory) (inbox : List Event) (rdata : Word) :
    ScratchKept s { s with cfg, irqEn, callState, illcmd, err, pc, work, mem, inbox, rdata } :=
  ⟨rfl, rfl, rfl, rfl, rfl, rfl⟩

theorem exec_transaction_scratchKept {w : BitVec 41} {i : Instr} {s t : State} (hi : decodeTransaction w = .ok i) (h : exec i s = .next t) :
    ScratchKept s t := by
  obtain ⟨-, rfl⟩ | ⟨-, rfl⟩ | rfl | ⟨-, _, rfl⟩ | ⟨_, _, rfl⟩ := exec_transaction_cases hi h
  · obtain ⟨-, h⟩ | ⟨-, h⟩ := startCall_cases s
    · rw [h]; exact scratchKept_update ..
    · rw [h]; exact scratchKept_update ..
  · obtain ⟨-, h⟩ | ⟨-, h⟩ := acknowledge_cases s
    · rw [h]; exact scratchKept_update ..
    · rw [h]; exact scratchKept_update ..
  · exact scratchKept_update ..
  · exact scratchKept_update ..
  · exact scratchKept_update ..

/-! What an operation answers, by what it meets: one rule per outcome. -/

section rules
variable {s : State}

theorem exec_alloc_fault (h : overCapacity s.params s.cfg = true) : exec .alloc s = .next (raiseFault .alloc opAlloc s) :=
  congrArg Host.Outcome.next (if_pos h)

theorem exec_alloc_fits (h : overCapacity s.params s.cfg = false) :
    exec .alloc s = .next ({ s with
      bskipAlloc := true
      wbufAlloc := PerPlane.ofFn fun p => decide (p.val < s.work.nplanes.toNat) || s.wbufAlloc.get p }.goTo opStage 0#13 0#13 0) :=
  congrArg Host.Outcome.next (if_neg (Bool.eq_false_iff.mp h))

theorem afterStage_some {q : Plane} (h : nextPlane s.pc.pli s.work.nplanes = some q) : afterStage s = s.goTo opStage 0#13 0#13 q := by
  rw [afterStage, h]

theorem afterStage_none (h : nextPlane s.pc.pli s.work.nplanes = none) : afterStage s = s.goTo opFlatten 0#13 0#13 s.pc.pli := by
  rw [afterStage, h]

theorem exec_stage_more {q : Plane} (hfits : fitsScratch (planeH s s.pc.pli) (planeW s s.pc.pli) s.work.wstride.toNat s.params.wbufCap = true)
    (hok : (stagePlane s s.pc.pli).2 = true) (hq : nextPlane s.pc.pli s.work.nplanes = some q) :
    exec .stage s = .next ({ s with wbuf := s.wbuf.set s.pc.pli (stagePlane s s.pc.pli).1 }.goTo opStage 0#13 0#13 q) :=
  (if_pos hfits).trans (congrArg Host.Outcome.next ((if_pos hok).trans (afterStage_some hq)))

theorem exec_stage_last (hfits : fitsScratch (planeH s s.pc.pli) (planeW s s.pc.pli) s.work.wstride.toNat s.params.wbufCap = true)
    (hok : (stagePlane s s.pc.pli).2 = true) (hq : nextPlane s.pc.pli s.work.nplanes = none) :
    exec .stage s = .next ({ s with wbuf := s.wbuf.set s.pc.pli (stagePlane s s.pc.pli).1 }.goTo opFlatten 0#13 0#13 s.pc.pli) :=
  (if_pos hfits).trans (congrArg Host.Outcome.next ((if_pos hok).trans (afterStage_none hq)))

theorem exec_stage_fault (hfits : fitsScratch (planeH s s.pc.pli) (planeW s s.pc.pli) s.work.wstride.toNat s.params.wbufCap = true)
    (hok : (stagePlane s s.pc.pli).2 = false) :
    exec .stage s = .next (raiseFault .bus opStage { s with wbuf := s.wbuf.set s.pc.pli (stagePlane s s.pc.pli).1 }) :=
  (if_pos hfits).trans (congrArg Host.Outcome.next (if_neg (Bool.eq_false_iff.mp hok)))

/-- What follows `FLATTEN`. -/
theorem afterFlatten_cases (s : State) :
    ((s.work.nvsb = 0#14 ∨ s.work.nhsb = 0#14) ∧ afterFlatten s = s.goTo opTeardown 0#13 0#13 s.pc.pli) ∨
    (¬ (s.work.nvsb = 0#14 ∨ s.work.nhsb = 0#14) ∧ afterFlatten s = s.goTo opSbsetup 0#13 0#13 0) := by
  by_cases h : s.work.nvsb = 0#14 ∨ s.work.nhsb = 0#14
  · exact .inl ⟨h, if_pos h⟩
  · exact .inr ⟨h, if_neg h⟩

theorem exec_flatten_empty (hfits : fitsScratch s.cfg.miRows.toNat s.cfg.miCols.toNat s.cfg.miCols.toNat s.params.skipCap = true)
    (hok : (flattenGrid s).2 = true) (hempty : s.work.nvsb = 0#14 ∨ s.work.nhsb = 0#14) :
    exec .flatten s = .next ({ s with bskip := (flattenGrid s).1 }.goTo opTeardown 0#13 0#13 s.pc.pli) :=
  (if_pos hfits).trans (congrArg Host.Outcome.next ((if_pos hok).trans (if_pos hempty)))

theorem exec_flatten_loop (hfits : fitsScratch s.cfg.miRows.toNat s.cfg.miCols.toNat s.cfg.miCols.toNat s.params.skipCap = true)
    (hok : (flattenGrid s).2 = true) (hloop : ¬ (s.work.nvsb = 0#14 ∨ s.work.nhsb = 0#14)) :
    exec .flatten s = .next ({ s with bskip := (flattenGrid s).1 }.goTo opSbsetup 0#13 0#13 0) :=
  (if_pos hfits).trans (congrArg Host.Outcome.next ((if_pos hok).trans (if_neg hloop)))

theorem exec_flatten_fault (hfits : fitsScratch s.cfg.miRows.toNat s.cfg.miCols.toNat s.cfg.miCols.toNat s.params.skipCap = true)
    (hok : (flattenGrid s).2 = false) : exec .flatten s = .next (raiseFault .bus opFlatten { s with bskip := (flattenGrid s).1 }) :=
  (if_pos hfits).trans (congrArg Host.Outcome.next (if_neg (Bool.eq_false_iff.mp hok)))

theorem exec_sbsetup_inside (h : sbCol s ≤ s.cfg.miCols.toNat ∧ sbRow s ≤ s.cfg.miRows.toNat) :
    exec .sbsetup s = .next ({ s with
      work :=
        { s.work with
          nhb := BitVec.ofNat 4 (min maxMibSize (s.cfg.miCols.toNat - sbCol s))
          nvb := BitVec.ofNat 4 (min maxMibSize (s.cfg.miRows.toNat - sbRow s)) } }.goOn opLevel) := if_pos h

theorem exec_level_fault (h : acceptable s.params (miAddr s.cfg (sbRow s) (sbCol s)) = false) :
    exec .level s = .next (raiseFault .bus opLevel s) := by
  obtain ⟨-, hn⟩ | ⟨ha, -⟩ := execLevel_cases s
  · exact hn
  · exact absurd ha (Bool.eq_false_iff.mp h)

theorem exec_level_acceptable {lvl : Nat} (h : acceptable s.params (miAddr s.cfg (sbRow s) (sbCol s)) = true)
    (hlvl : lvl = levelMapper (maxLevel s.params) s.cfg.gl.toNat (entryGain (s.mem.read (miAddr s.cfg (sbRow s) (sbCol s))))) :
    exec .level s = .next ({ s with work := { s.work with level := BitVec.ofNat 8 lvl } }.goOn
      (if lvl = 0 then opNextsb else opSkipdet)) := by
  obtain ⟨ha, -⟩ | ⟨-, _, rfl, hn⟩ := execLevel_cases s
  · exact absurd h (Bool.eq_false_iff.mp ha)
  · rw [hlvl]; exact hn

theorem exec_skipdet_fault (hin : sbRow s < s.cfg.miRows.toNat ∧ sbCol s < s.cfg.miCols.toNat)
    (h : skipDetector s.params s.cfg s.mem (sbRow s) (sbCol s) = none) : exec .skipdet s = .next (raiseFault .bus opSkipdet s) := by
  rw [exec, execSkipdet, if_pos hin, h]

theorem exec_skipdet_all (hin : sbRow s < s.cfg.miRows.toNat ∧ sbCol s < s.cfg.miCols.toNat)
    (h : skipDetector s.params s.cfg s.mem (sbRow s) (sbCol s) = some true) :
    exec .skipdet s = .next ({ s with work := { s.work with allSkip := true } }.goOn opNextsb) := by
  rw [exec, execSkipdet, if_pos hin, h]

theorem exec_skipdet_some (hin : sbRow s < s.cfg.miRows.toNat ∧ sbCol s < s.cfg.miCols.toNat)
    (h : skipDetector s.params s.cfg s.mem (sbRow s) (sbCol s) = some false) :
    exec .skipdet s = .next ({ s with work := { s.work with allSkip := false }, dir := Vector.replicate 64 0 }.goTo
      opThresh s.pc.sbr s.pc.sbc 0) := by
  rw [exec, execSkipdet, if_pos hin, h]

theorem exec_thresh {v : Nat} (h : thresholdOf s.pc.pli s.work.level.toNat s.work.coeffShift.toNat = v) :
    exec .thresh s = .next ({ s with work := { s.work with threshold := BitVec.ofNat 16 v } }.goOn (if v = 0 then opNextpl else opKernel)) := by
  subst h
  rfl

theorem exec_kernel_ready (hrect : rectH s s.pc.pli ≤ 64 ∧ rectW s s.pc.pli ≤ 64) (hstaged : stagedReady s s.pc.pli = true)
    (hskip : skipReady s = true) :
    exec .kernel s = .next ({ s with
      dst := storeOut s s.pc.pli (Config.filterKernel (kernelArgs s s.pc.pli)).out
      dir := storeDir s.params (Config.filterKernel (kernelArgs s s.pc.pli)).dir }.goOn opWriteback) :=
  (if_pos hrect).trans (if_pos (Bool.and_eq_true_iff.mpr ⟨hstaged, hskip⟩))

theorem exec_writeback_done (hready : dstReady s s.pc.pli = true) (hok : (writeBack s (rectPositions s)).2 = true) :
    exec .writeback s = .next ({ s with mem := (writeBack s (rectPositions s)).1 }.goOn opNextpl) :=
  (if_pos hready).trans (congrArg Host.Outcome.next (if_pos hok))

theorem exec_writeback_fault (hready : dstReady s s.pc.pli = true) (hok : (writeBack s (rectPositions s)).2 = false) :
    exec .writeback s = .next (raiseFault .bus opWriteback { s with mem := (writeBack s (rectPositions s)).1 }) :=
  (if_pos hready).trans (congrArg Host.Outcome.next (if_neg (Bool.eq_false_iff.mp hok)))

theorem exec_nextpl_some {q : Plane} (h : nextPlane s.pc.pli s.work.nplanes = some q) :
    exec .nextpl s = .next (s.goTo opThresh s.pc.sbr s.pc.sbc q) := by
  rw [exec, execNextpl, h]

theorem exec_nextpl_none (h : nextPlane s.pc.pli s.work.nplanes = none) : exec .nextpl s = .next (s.goOn opNextsb) := by
  rw [exec, execNextpl, h]

theorem exec_nextsb_column (hc : s.pc.sbc.toNat + 1 < s.work.nhsb.toNat) (hfit : s.pc.sbc.toNat + 1 < 2 ^ 13) :
    exec .nextsb s = .next (s.goTo opSbsetup s.pc.sbr (s.pc.sbc + 1#13) 0) := (if_pos hc).trans (if_pos hfit)

theorem exec_nextsb_row (hc : ¬ s.pc.sbc.toNat + 1 < s.work.nhsb.toNat) (hr : s.pc.sbr.toNat + 1 < s.work.nvsb.toNat)
    (hfit : s.pc.sbr.toNat + 1 < 2 ^ 13) : exec .nextsb s = .next (s.goTo opSbsetup (s.pc.sbr + 1#13) 0#13 0) :=
  (if_neg hc).trans ((if_pos hr).trans (if_pos hfit))

theorem exec_nextsb_last (hc : ¬ s.pc.sbc.toNat + 1 < s.work.nhsb.toNat) (hr : ¬ s.pc.sbr.toNat + 1 < s.work.nvsb.toNat) :
    exec .nextsb s = .next (s.goOn opTeardown) := (if_neg hc).trans (if_neg hr)

end rules

/-! What a sequencer operation can do. -/

/-- What operation `op` may change of the call's state, the error code and the scratch memories (10_state.md R17 to R20, R25, R26). -/
structure OperationFrame (op : BitVec 4) (s t : State) : Prop where
  callState : t.callState = s.callState ∨ op = opTeardown ∧ (t.callState = .done ∨ t.callState = .fail)
  err       : t.err = s.err ∨ op = opTeardown ∧ t.err = s.work.errPend
  wbuf      : op ≠ opStage → t.wbuf = s.wbuf
  bskip     : op ≠ opFlatten → t.bskip = s.bskip
  dst       : op ≠ opKernel → t.dst = s.dst
  dir       : ¬ (op = opSkipdet ∨ op = opKernel) → t.dir = s.dir
  alloc     : ¬ (op = opAlloc ∨ op = opTeardown) → t.bskipAlloc = s.bskipAlloc ∧ t.wbufAlloc = s.wbufAlloc

/-- Every operation may change the position, the working registers and system memory. -/
theorem operationFrame_control (op : BitVec 4) (s : State) (pc : Pos) (work : Work) (mem : Memory) :
    OperationFrame op s { s with pc, work, mem } :=
  ⟨.inl rfl, .inl rfl, fun _ => rfl, fun _ => rfl, fun _ => rfl, fun _ => rfl, fun _ => ⟨rfl, rfl⟩⟩

theorem operationFrame_alloc (s : State) (pc : Pos) (bskipAlloc : Bool) (wbufAlloc : PerPlane Bool) :
    OperationFrame opAlloc s { s with pc, bskipAlloc, wbufAlloc } :=
  ⟨.inl rfl, .inl rfl, fun _ => rfl, fun _ => rfl, fun _ => rfl, fun _ => rfl, fun h => absurd (.inl rfl) h⟩

theorem operationFrame_stage (s : State) (pc : Pos) (work : Work) (wbuf : PerPlane (Scratch 16)) :
    OperationFrame opStage s { s with pc, work, wbuf } :=
  ⟨.inl rfl, .inl rfl, fun h => absurd rfl h, fun _ => rfl, fun _ => rfl, fun _ => rfl, fun _ => ⟨rfl, rfl⟩⟩

theorem operationFrame_flatten (s : State) (pc : Pos) (work : Work) (bskip : Scratch 1) :
    OperationFrame opFlatten s { s with pc, work, bskip } :=
  ⟨.inl rfl, .inl rfl, fun _ => rfl, fun h => absurd rfl h, fun _ => rfl, fun _ => rfl, fun _ => ⟨rfl, rfl⟩⟩

theorem operationFrame_skipdet (s : State) (pc : Pos) (work : Work) (dir : Vector Nat 64) :
    OperationFrame opSkipdet s { s with pc, work, dir } :=
  ⟨.inl rfl, .inl rfl, fun _ => rfl, fun _ => rfl, fun _ => rfl, fun h => absurd (.inl rfl) h, fun _ => ⟨rfl, rfl⟩⟩

theorem operationFrame_kernel (s : State) (pc : Pos) (dst : Scratch 16) (dir : Vector Nat 64) :
    OperationFrame opKernel s { s with pc, dst, dir } :=
  ⟨.inl rfl, .inl rfl, fun _ => rfl, fun _ => rfl, fun h => absurd rfl h, fun h => absurd (.inr rfl) h, fun _ => ⟨rfl, rfl⟩⟩

/-- `TEARDOWN` ends the call in `DONE` or in `FAIL` (44_superblock_loop.md R156). -/
theorem execTeardown_cases {s t : State} (h : exec .teardown s = .next t) :
    (s.work.errPend = .noError ∧
      t = { s with wbufAlloc := ⟨false, false, false⟩, bskipAlloc := false, err := s.work.errPend, callState := .done }.goOn opIdle) ∨
    (s.work.errPend ≠ .noError ∧
      t = { s with wbufAlloc := ⟨false, false, false⟩, bskipAlloc := false, err := s.work.errPend, callState := .fail }.goOn opIdle) := by
  simp only [exec, execTeardown, Host.Outcome.next.injEq] at h
  split at h
  · next hp => exact .inl ⟨hp, h.symm⟩
  · next hp => exact .inr ⟨hp, h.symm⟩

theorem operationFrame_teardown (s : State) (pc : Pos) (bskipAlloc : Bool) (wbufAlloc : PerPlane Bool) {callState : CallState}
    (hend : callState = .done ∨ callState = .fail) :
    OperationFrame opTeardown s { s with callState, err := s.work.errPend, pc, bskipAlloc, wbufAlloc } :=
  ⟨.inr ⟨rfl, hend⟩, .inr ⟨rfl, rfl⟩, fun _ => rfl, fun _ => rfl, fun _ => rfl, fun _ => rfl, fun h => absurd (.inr rfl) h⟩

theorem exec_operation_frame {w : BitVec 4} {i : Instr} {s t : State} (hi : decodeSeq w = .ok i) (h : exec i s = .next t) :
    OperationFrame w s t := by
  have henc := decodeSeq_ok hi
  cases i with
  | rd | wr | cmdNop | cmdStart | cmdAck => cases henc
  | planeact => cases h; exact operationFrame_control ..
  | alloc =>
    cases henc
    obtain ⟨-, he⟩ | ⟨-, he⟩ := execAlloc_cases s
    · cases he.symm.trans h; exact operationFrame_control ..
    · cases he.symm.trans h; exact operationFrame_alloc ..
  | stage =>
    cases henc
    obtain ⟨-, ⟨-, rfl⟩ | ⟨-, rfl⟩⟩ := execStage_next h
    · obtain ⟨_, -, -, ha⟩ | ⟨-, ha⟩ := afterStage_cases { s with wbuf := s.wbuf.set s.pc.pli (stagePlane s s.pc.pli).1 }
      · rw [ha]; exact operationFrame_stage ..
      · rw [ha]; exact operationFrame_stage ..
    · exact operationFrame_stage ..
  | flatten =>
    cases henc
    obtain ⟨-, ⟨-, rfl⟩ | ⟨-, rfl⟩⟩ := execFlatten_next h
    · obtain ⟨-, ha⟩ | ⟨-, ha⟩ := afterFlatten_cases { s with bskip := (flattenGrid s).1 }
      · rw [ha]; exact operationFrame_flatten ..
      · rw [ha]; exact operationFrame_flatten ..
    · exact operationFrame_flatten ..
  | sbsetup =>
    obtain ⟨-, -, rfl⟩ := execSbsetup_next h
    exact operationFrame_control ..
  | level =>
    obtain ⟨-, he⟩ | ⟨-, _, -, he⟩ := execLevel_cases s
    · cases he.symm.trans h; exact operationFrame_control ..
    · cases he.symm.trans h; exact operationFrame_control ..
  | skipdet =>
    cases henc
    obtain ⟨-, -, ⟨-, rfl⟩ | ⟨-, rfl⟩ | ⟨-, rfl⟩⟩ := execSkipdet_next h
    · exact operationFrame_control ..
    · exact operationFrame_control ..
    · exact operationFrame_skipdet ..
  | thresh => cases h; exact operationFrame_control ..
  | kernel =>
    cases henc
    obtain ⟨-, -, -, -, rfl⟩ := kernelWith_next h
    exact operationFrame_kernel ..
  | writeback =>
    obtain ⟨-, ⟨-, rfl⟩ | ⟨-, rfl⟩⟩ := execWriteback_next h
    · exact operationFrame_control ..
    · exact operationFrame_control ..
  | nextpl =>
    obtain ⟨_, -, -, he⟩ | ⟨-, he⟩ := execNextpl_cases s
    · cases he.symm.trans h; exact operationFrame_control ..
    · cases he.symm.trans h; exact operationFrame_control ..
  | nextsb =>
    obtain ⟨-, -, rfl⟩ | ⟨-, -, -, rfl⟩ | ⟨-, -, rfl⟩ := execNextsb_next h
    · exact operationFrame_control ..
    · exact operationFrame_control ..
    · exact operationFrame_control ..
  | teardown =>
    cases henc
    obtain ⟨-, rfl⟩ | ⟨-, rfl⟩ := execTeardown_cases h
    · exact operationFrame_teardown _ _ _ _ (.inl rfl)
    · exact operationFrame_teardown _ _ _ _ (.inr rfl)

/-! The statements. -/

/-- Settles O49: by who moved. An operation changes the state only at `TEARDOWN`, where it leaves `BUSY`; a transaction only as `CMD.START` or
`CMD.ACK`; a reset leads to `IDLE`; a stopped sequencer and the host's own accesses leave it. -/
theorem callStateTransitions : Obligations.CallStateTransitions := by
  intro s t h hne
  obtain ⟨-, -, rfl⟩ | ⟨-, hbusy, i, hi, he⟩ | ⟨w, rest, i, hin, hi, he⟩ | ⟨a, b, rest, -, -, rfl⟩ | ⟨a, rest, -, -, rfl⟩ |
    ⟨n, rest, hin, he⟩ := step_cases h
  · exact absurd rfl hne
  · obtain hsame | ⟨hop, hend⟩ := (exec_operation_frame hi he).callState
    · exact absurd hsame hne
    · exact .inr (.inl ⟨hbusy, hend, hop⟩)
  · obtain ⟨rfl, rfl⟩ | ⟨rfl, rfl⟩ | rfl | ⟨-, _, rfl⟩ | ⟨_, _, rfl⟩ := exec_transaction_cases hi he
    · obtain ⟨hidle, hs⟩ | ⟨-, hs⟩ := startCall_cases s.dequeue
      · rw [hs]; exact .inl ⟨hidle, rfl, w, rest, hin, hi⟩
      · rw [hs] at hne; exact absurd rfl hne
    · obtain ⟨hnb, hs⟩ | ⟨-, hs⟩ := acknowledge_cases s.dequeue
      · rw [hs] at hne ⊢
        have hended : s.callState = .done ∨ s.callState = .fail := by
          change s.callState ≠ .busy at hnb
          change CallState.idle ≠ s.callState at hne
          cases hc : s.callState <;> simp [hc] at hnb hne ⊢
        exact .inr (.inr (.inl ⟨hended, rfl, w, rest, hin, hi⟩))
      · rw [hs] at hne; exact absurd rfl hne
    · exact absurd rfl hne
    · exact absurd rfl hne
    · exact absurd rfl hne
  · exact absurd rfl hne
  · exact absurd rfl hne
  · refine .inr (.inr (.inr ⟨?_, n, rest, hin⟩))
    obtain rfl | ⟨-, -, -, rfl⟩ := resetAt_next he
    · rfl
    · rfl

/-- Settles O51: by who moved. An operation changes `ERR` only at `TEARDOWN` and leaves `ILLCMD` to the host; of the transactions only an accepted
`CMD.START` changes `ERR`, and only a `CMD.ACK` outside `BUSY` clears `ILLCMD`. -/
theorem stickyStatusBits : Obligations.StickyStatusBits := by
  intro s t h hno
  obtain ⟨-, -, rfl⟩ | ⟨-, hbusy, i, hi, he⟩ | ⟨w, rest, i, hin, hi, he⟩ | ⟨a, b, rest, -, -, rfl⟩ | ⟨a, rest, -, -, rfl⟩ |
    ⟨n, rest, hin, he⟩ := step_cases h
  · exact ⟨fun hne => absurd rfl hne, fun hset hclear => absurd hset (Bool.eq_false_iff.mp hclear)⟩
  · refine ⟨fun hne => ?_, fun hset hclear => ?_⟩
    · obtain hsame | ⟨hop, herr⟩ := (exec_operation_frame hi he).err
      · exact absurd hsame hne
      · exact .inl ⟨hbusy, hop, herr⟩
    · rw [(exec_operation_hostSideKept hi he).illcmd] at hclear
      exact absurd hset (Bool.eq_false_iff.mp hclear)
  · obtain ⟨rfl, rfl⟩ | ⟨rfl, rfl⟩ | rfl | ⟨-, _, rfl⟩ | ⟨_, _, rfl⟩ := exec_transaction_cases hi he
    · obtain ⟨hidle, hs⟩ | ⟨-, hs⟩ := startCall_cases s.dequeue
      · rw [hs]; exact ⟨fun _ => .inr ⟨hidle, rfl, rfl⟩, fun hset hclear => absurd hset (Bool.eq_false_iff.mp hclear)⟩
      · rw [hs]; exact ⟨fun hne => absurd rfl hne, fun _ hclear => nomatch hclear⟩
    · obtain ⟨hnb, hs⟩ | ⟨-, hs⟩ := acknowledge_cases s.dequeue
      · rw [hs]; exact ⟨fun hne => absurd rfl hne, fun _ _ => ⟨hnb, w, rest, hin, hi⟩⟩
      · rw [hs]; exact ⟨fun hne => absurd rfl hne, fun _ hclear => nomatch hclear⟩
    · exact ⟨fun hne => absurd rfl hne, fun _ hclear => nomatch hclear⟩
    · exact ⟨fun hne => absurd rfl hne, fun hset hclear => absurd hset (Bool.eq_false_iff.mp hclear)⟩
    · exact ⟨fun hne => absurd rfl hne, fun hset hclear => absurd hset (Bool.eq_false_iff.mp hclear)⟩
  · exact ⟨fun hne => absurd rfl hne, fun hset hclear => absurd hset (Bool.eq_false_iff.mp hclear)⟩
  · exact ⟨fun hne => absurd rfl hne, fun hset hclear => absurd hset (Bool.eq_false_iff.mp hclear)⟩
  · exact absurd hin (hno n rest)

/-- Settles O53: a move of the host but a reset keeps every scratch memory and flag; an operation changes what `OperationFrame` lets it. -/
theorem scratchWriters : Obligations.ScratchWriters := by
  intro s t h hno
  have kept_or_operation : ScratchKept s.dequeue t ∨ s.callState = .busy ∧ OperationFrame s.pc.op s.dequeue t := by
    obtain ⟨-, -, rfl⟩ | ⟨-, hbusy, i, hi, he⟩ | ⟨w, rest, i, -, hi, he⟩ | ⟨a, b, rest, -, -, rfl⟩ | ⟨a, rest, -, -, rfl⟩ |
      ⟨n, rest, hin, -⟩ := step_cases h
    · exact .inl (scratchKept_update ..)
    · exact .inr ⟨hbusy, exec_operation_frame hi he⟩
    · exact .inl (exec_transaction_scratchKept hi he)
    · exact .inl (scratchKept_update ..)
    · exact .inl (scratchKept_update ..)
    · exact absurd hin (hno n rest)
  obtain hk | ⟨hbusy, hf⟩ := kept_or_operation
  · exact ⟨fun hne => absurd hk.wbuf hne, fun hne => absurd hk.bskip hne, fun hne => absurd hk.dst hne, fun hne => absurd hk.dir hne,
      fun hne => absurd ⟨hk.bskipAlloc, hk.wbufAlloc⟩ (not_and_or.mpr hne)⟩
  · exact ⟨fun hne => ⟨hbusy, not_imp_comm.mp hf.wbuf hne⟩, fun hne => ⟨hbusy, not_imp_comm.mp hf.bskip hne⟩,
      fun hne => ⟨hbusy, not_imp_comm.mp hf.dst hne⟩, fun hne => ⟨hbusy, not_imp_comm.mp hf.dir hne⟩,
      fun hne => ⟨hbusy, not_imp_comm.mp hf.alloc (not_and_or.mpr hne)⟩⟩

/-- A code that decodes is not a reserved one. -/
theorem decodeSeq_ok_le {w : BitVec 4} {i : Instr} (h : decodeSeq w = .ok i) : w.toNat ≤ 13 := by
  by_contra hc
  have key : ∀ w : BitVec 4, 13 < w.toNat → decodeSeq w = .error .reservedOperation := by decide
  rw [key w (Nat.lt_of_not_le hc)] at h
  cases h

theorem sequencerTurn_busy {s : State} {i : Instr} (hbusy : s.callState = .busy) (hi : decodeSeq s.pc.op = .ok i) :
    sequencerTurn s = exec i s := by
  rw [sequencerTurn, if_pos hbusy, hi, runDecoded]

theorem sequencerTurn_stopped {s : State} (hstop : s.callState ≠ .busy) : sequencerTurn s = .next s := if_neg hstop

/-- Where no operation code is reserved, the sequencer's turn is the step. -/
theorem step_of_turn {s : State} (hop : s.pc.op.toNat ≤ 13) (hturn : SequencerHasTurn s) : step s = sequencerTurn s.dequeue := by
  obtain hin | ⟨rest, hin⟩ := hturn
  · have hs : s.dequeue = s := by rw [State.dequeue, hin]; cases s; cases hin; rfl
    rw [step_of_empty hop hin, hs]
  · rw [step_of_event hop hin, State.dequeue, hin, runEvent, List.tail_cons]

/-- Settles O6: the step is the sequencer's turn (`step_of_empty`, `step_of_event` at a `pass`), by the state of the call. -/
theorem sequencerStepsOnlyWhileBusy : Obligations.SequencerStepsOnlyWhileBusy := by
  intro s
  refine ⟨fun i hbusy hi => ⟨fun hin => ?_, fun rest hin => ?_⟩, fun hstop hop => ⟨fun hin => ?_, fun rest hin => ?_⟩⟩
  · exact (step_of_empty (decodeSeq_ok_le hi) hin).trans (sequencerTurn_busy hbusy hi)
  · exact (step_of_event (decodeSeq_ok_le hi) hin).trans (sequencerTurn_busy hbusy hi)
  · exact (step_of_empty hop hin).trans (sequencerTurn_stopped hstop)
  · exact (step_of_event hop hin).trans (sequencerTurn_stopped hstop)

theorem irq_iff (s : State) : s.irq = true ↔ s.irqEn = true ∧ (s.callState = .done ∨ s.callState = .fail) := by
  unfold State.irq
  cases s.callState <;> simp

/-- Settles O15: the level by `irq_iff`; `CMD.ACK` leaves `IDLE` or `BUSY`, `TEARDOWN` leaves `DONE` or `FAIL` and `IRQ_EN` as it was. -/
theorem irqIsLevel : Obligations.IrqIsLevel := by
  intro s t
  refine ⟨irq_iff s, fun h => ?_, fun h => ?_⟩
  · cases h
    obtain ⟨-, hs⟩ | ⟨hbusy, hs⟩ := acknowledge_cases s
    · rw [hs]; rfl
    · rw [hs, State.irq, setIllcmd_callState, hbusy]
  · obtain ⟨-, rfl⟩ | ⟨-, rfl⟩ := execTeardown_cases h
    · rfl
    · rfl

/-- A reset inside a `WRITEBACK` whose output is held (70_reset_and_hazards.md R221). -/
theorem resetAt_writeback {s : State} (n : Nat) (hwb : s.callState = .busy ∧ s.pc.op = opWriteback) (hdst : dstReady s s.pc.pli = true) :
    resetAt n s = .next (hardReset (writeBack s ((rectPositions s).take n)).1 s) := by
  rw [resetAt, if_pos hwb, if_pos hdst]

/-- A reset anywhere else (70_reset_and_hazards.md R220). -/
theorem resetAt_other {s : State} (n : Nat) (hwb : ¬ (s.callState = .busy ∧ s.pc.op = opWriteback)) :
    resetAt n s = .next (hardReset s.mem s) := if_neg hwb

/-- Settles O39: the step is the reset (`resetAt`), which keeps memory outside a `WRITEBACK`; inside one the first samples are written, and
`writeBack_read_other` says what that leaves. -/
theorem resetAbandonsCall : Obligations.ResetAbandonsCall := by
  intro s n rest hop hin hready
  have hstep := step_of_event hop hin
  by_cases hwb : s.callState = .busy ∧ s.pc.op = opWriteback
  · have hdst : dstReady s s.pc.pli = true := by
      by_contra hc
      exact hready ⟨hwb.1, hwb.2, Bool.eq_false_of_not_eq_true hc⟩
    refine ⟨_, hstep.trans (resetAt_writeback n hwb hdst), rfl, fun hother => absurd hwb hother, fun a ha => ?_⟩
    refine writeBack_read_other _ _ fun q hq => ?_
    obtain ⟨hr, hc⟩ := mem_rowMajor.mp (List.mem_of_mem_take hq)
    exact ha q.1 q.2 hr hc
  · exact ⟨_, hstep.trans (resetAt_other n hwb), rfl, fun _ => rfl, fun _ _ => rfl⟩

end Sys2Proof.Machine
end

section
/-! SUPPORT. The invariant of a machine that runs from reset (10_state.md R13, R14, R20, 44_superblock_loop.md R160): what it says at each stretch of
the call, that every operation and every move of the host keeps it, and that the sequencer never stops where it holds. -/

namespace Sys2Proof.Machine

/-! Where the sequencer is. -/

theorem atOps_of {s : State} {op : BitVec 4} {lo hi : Nat} (hbusy : s.callState = .busy) (hop : s.pc.op = op) (hlo : lo ≤ op.toNat := by decide)
    (hhi : op.toNat ≤ hi := by decide) : AtOps s lo hi := by
  subst hop
  exact ⟨hbusy, hlo, hhi⟩

theorem AtOps.mono {s : State} {lo hi lo' hi' : Nat} (h : AtOps s lo hi) (hlo : lo' ≤ lo := by decide)
    (hhi : hi ≤ hi' := by decide) : AtOps s lo' hi' :=
  ⟨h.1, hlo.trans h.2.1, h.2.2.trans hhi⟩

theorem not_atOps {s : State} {op : BitVec 4} {lo hi : Nat} (hop : s.pc.op = op) (h : op.toNat < lo ∨ hi < op.toNat) : ¬ AtOps s lo hi := by
  subst hop
  rintro ⟨-, hlo, hhi⟩
  omega

/-! The invariant by stretches of the call: stopped, before `ALLOC` has acquired scratch, `STAGE` and `FLATTEN`, the superblock loop, `TEARDOWN`. -/

/-- A stopped machine (10_state.md R14). -/
theorem callInv_of_stopped {s : State} (hstop : s.callState ≠ .busy)
    (hfree : s.pc.op = opIdle ∧ s.bskipAlloc = false ∧ ∀ p, s.wbufAlloc.get p = false)
    (hended : (s.callState = .done → s.err = .noError) ∧ (s.callState = .fail → s.err ≠ .noError))
    (hdir : ∀ i : Fin 64, s.dir[i] < 2 ^ s.params.dirBits) : CallInv s where
  stopped _ := hfree
  ended := hended
  running hb := absurd hb hstop
  pending ha := absurd ha.1 hstop
  latched ha := absurd ha.1 hstop
  start ha := absurd ha.1 hstop
  owned ha := absurd ha.1 hstop
  plane ha := absurd ha.1 hstop
  staged ha := absurd ha.1 hstop
  flattened ha := absurd ha.1 hstop
  inLoop ha := absurd ha.1 hstop
  extent ha := absurd ha.1 hstop
  level ha := absurd ha.1 hstop
  threshold ha := absurd ha.1 hstop
  output ha := absurd ha.1 hstop
  dirBits := hdir

/-- A call at `PLANEACT` or `ALLOC`. -/
theorem callInv_of_starting {s : State} (op : BitVec 4) (hbusy : s.callState = .busy) (hop : s.pc.op = op)
    (herr : s.err = .noError) (hpend : s.work.errPend = .noError) (hlatched : 2 ≤ op.toNat → Latched s)
    (hstart : s.pc.sbr = 0#13 ∧ s.pc.sbc = 0#13 ∧ s.pc.pli = 0 ∧ s.bskipAlloc = false ∧ ∀ p, s.wbufAlloc.get p = false)
    (hdir : ∀ i : Fin 64, s.dir[i] < 2 ^ s.params.dirBits)
    (hlo : 1 ≤ op.toNat := by decide) (hhi : op.toNat ≤ 2 := by decide) : CallInv s :=
  have later : ∀ {lo hi : Nat} {P : Prop}, 3 ≤ lo → AtOps s lo hi → P := fun hlo' ha =>
    absurd ha (not_atOps hop (.inl (Nat.lt_of_le_of_lt hhi hlo')))
  { stopped := fun hstop => absurd hbusy hstop
    ended := by rw [hbusy]; exact ⟨nofun, nofun⟩
    running := fun _ => ⟨atOps_of hbusy hop hlo (hhi.trans (by decide)), herr⟩
    pending := fun _ => hpend
    latched := fun ha => hlatched (hop ▸ ha.2.1)
    start := fun _ => hstart
    owned := later (by decide)
    plane := later (by decide)
    staged := later (by decide)
    flattened := later (by decide)
    inLoop := later (by decide)
    extent := later (by decide)
    level := later (by decide)
    threshold := later (by decide)
    output := later (by decide)
    dirBits := hdir }

/-- A call at `TEARDOWN`. -/
theorem callInv_of_teardown {s : State} (hbusy : s.callState = .busy) (hop : s.pc.op = opTeardown) (herr : s.err = .noError) (hlatched : Latched s)
    (hdir : ∀ i : Fin 64, s.dir[i] < 2 ^ s.params.dirBits) : CallInv s :=
  have earlier : ∀ {lo hi : Nat} {P : Prop}, hi < opTeardown.toNat → AtOps s lo hi → P := fun hhi ha => absurd ha (not_atOps hop (.inr hhi))
  { stopped := fun hstop => absurd hbusy hstop
    ended := by rw [hbusy]; exact ⟨nofun, nofun⟩
    running := fun _ => ⟨atOps_of hbusy hop, herr⟩
    pending := earlier (by decide)
    latched := fun _ => hlatched
    start := earlier (by decide)
    owned := earlier (by decide)
    plane := earlier (by decide)
    staged := earlier (by decide)
    flattened := earlier (by decide)
    inLoop := earlier (by decide)
    extent := earlier (by decide)
    level := earlier (by decide)
    threshold := earlier (by decide)
    output := earlier (by decide)
    dirBits := hdir }

/-- What holds from `STAGE` to `NEXTSB`: the call owns its scratch (43_frame_setup.md R123). -/
structure OwningCall (s : State) : Prop where
  busy       : s.callState = .busy
  err        : s.err = .noError
  errPend    : s.work.errPend = .noError
  latched    : Latched s
  capacity   : overCapacity s.params s.cfg = false
  bskipOwned : s.bskipAlloc = true
  wbufOwned  : ∀ p, s.wbufAlloc.get p = decide (p.val < s.work.nplanes.toNat)
  plane      : s.pc.pli.val < s.work.nplanes.toNat
  dirBits    : ∀ i : Fin 64, s.dir[i] < 2 ^ s.params.dirBits

/-- What holds in the superblock loop beside that: everything is staged and the position lies in the frame (44_superblock_loop.md R160). -/
structure LoopCall (s : State) : Prop extends OwningCall s where
  staged    : ∀ p, p.val < s.work.nplanes.toNat → stagedReady s p = true
  flattened : ∀ r c, r < s.cfg.miRows.toNat → c < s.cfg.miCols.toNat → s.bskip.holds (bskipIndex s r c) = true
  inLoop    : s.pc.sbr.toNat < s.work.nvsb.toNat ∧ s.pc.sbc.toNat < s.work.nhsb.toNat

/-- `nhb` and `nvb` are the superblock's extent (44_superblock_loop.md R141). -/
def ExtentSet (s : State) : Prop :=
  s.work.nhb.toNat = min 8 (s.cfg.miCols.toNat - 8 * s.pc.sbc.toNat) ∧ s.work.nvb.toNat = min 8 (s.cfg.miRows.toNat - 8 * s.pc.sbr.toNat)

/-- The level is not 0 and below `MAX_LEVEL` (41_level_mapper.md R100). -/
def LevelSet (s : State) : Prop := 1 ≤ s.work.level.toNat ∧ s.work.level.toNat < maxLevel s.params

theorem CallInv.owning {s : State} (h : CallInv s) (hat : AtOps s 3 12) : OwningCall s where
  busy := hat.1
  err := (h.running hat.1).2
  errPend := h.pending hat.mono
  latched := h.latched hat.mono
  capacity := (h.owned hat).1
  bskipOwned := (h.owned hat).2.1
  wbufOwned := (h.owned hat).2.2
  plane := h.plane hat
  dirBits := h.dirBits

theorem CallInv.loop {s : State} (h : CallInv s) (hat : AtOps s 5 12) : LoopCall s where
  toOwningCall := h.owning hat.mono
  staged p hp := h.staged hat.mono p hp fun hop => absurd hat (not_atOps hop (.inl (by decide)))
  flattened := h.flattened hat
  inLoop := h.inLoop hat

/-- A call at `STAGE` or `FLATTEN`. -/
theorem callInv_of_owning {s : State} (op : BitVec 4) (h : OwningCall s) (hop : s.pc.op = op)
    (hstaged : ∀ p, p.val < s.work.nplanes.toNat → (op = opStage → p.val < s.pc.pli.val) → stagedReady s p = true)
    (hlo : 3 ≤ op.toNat := by decide) (hhi : op.toNat ≤ 4 := by decide) : CallInv s :=
  have later : ∀ {lo hi : Nat} {P : Prop}, 5 ≤ lo → AtOps s lo hi → P := fun hlo' ha =>
    absurd ha (not_atOps hop (.inl (Nat.lt_of_le_of_lt hhi hlo')))
  { stopped := fun hstop => absurd h.busy hstop
    ended := by rw [h.busy]; exact ⟨nofun, nofun⟩
    running := fun _ => ⟨atOps_of h.busy hop (le_trans (by decide) hlo) (hhi.trans (by decide)), h.err⟩
    pending := fun _ => h.errPend
    latched := fun _ => h.latched
    start := fun ha => absurd ha (not_atOps hop (.inr hlo))
    owned := fun _ => ⟨h.capacity, h.bskipOwned, h.wbufOwned⟩
    plane := fun _ => h.plane
    staged := fun _ p hp hlt => hstaged p hp fun hst => hlt (hop.trans hst)
    flattened := later (by decide)
    inLoop := later (by decide)
    extent := later (by decide)
    level := later (by decide)
    threshold := later (by decide)
    output := later (by decide)
    dirBits := h.dirBits }

/-- A call in the superblock loop. -/
theorem callInv_of_loop {s : State} (op : BitVec 4) (h : LoopCall s) (hop : s.pc.op = op)
    (hextent : 6 ≤ op.toNat → ExtentSet s := by exact fun ha => absurd ha (by decide))
    (hlevel : 7 ≤ op.toNat ∧ op.toNat ≤ 11 → LevelSet s := by exact fun ha => absurd ha (by decide))
    (hthreshold : 9 ≤ op.toNat ∧ op.toNat ≤ 10 → 1 ≤ s.work.threshold.toNat := by exact fun ha => absurd ha (by decide))
    (houtput : op = opWriteback → dstReady s s.pc.pli = true := by exact fun ha => absurd ha (by decide))
    (hlo : 5 ≤ op.toNat := by decide) (hhi : op.toNat ≤ 12 := by decide) : CallInv s where
  stopped hstop := absurd h.busy hstop
  ended := by rw [h.busy]; exact ⟨nofun, nofun⟩
  running _ := ⟨atOps_of h.busy hop (le_trans (by decide) hlo) (hhi.trans (by decide)), h.err⟩
  pending _ := h.errPend
  latched _ := h.latched
  start ha := absurd ha (not_atOps hop (.inr (Nat.lt_of_lt_of_le (by decide) hlo)))
  owned _ := ⟨h.capacity, h.bskipOwned, h.wbufOwned⟩
  plane _ := h.plane
  staged _ p hp _ := h.staged p hp
  flattened _ := h.flattened
  inLoop _ := h.inLoop
  extent ha := hextent (hop ▸ ha.2.1)
  level ha := hlevel (hop ▸ ha.2)
  threshold ha := hthreshold (hop ▸ ha.2)
  output ha := houtput (hop ▸ BitVec.eq_of_toNat_eq (le_antisymm ha.2.2 ha.2.1))
  dirBits := h.dirBits

/-! Updates that keep what holds. -/

/-- `Latched` speaks of the configuration and the registers that `PLANEACT` writes. -/
theorem Latched.update {s : State} (h : Latched s) {irqEn : Bool} {callState : CallState} {illcmd : Bool} {err : ErrCode} {pc : Pos} {nhb nvb : BitVec 4}
    {level : BitVec 8} {allSkip : Bool} {threshold : BitVec 16} {errPend : ErrCode} {failop : BitVec 4} {wbuf : PerPlane (Scratch 16)}
    {bskip : Scratch 1} {dir : Vector Nat 64} {dst : Scratch 16} {bskipAlloc : Bool} {wbufAlloc : PerPlane Bool} {mem : Memory}
    {inbox : List Event} {rdata : Word} :
    Latched { s with
      irqEn, callState, illcmd, err, pc, wbuf, bskip, dir, dst, bskipAlloc, wbufAlloc, mem, inbox, rdata
      work := { s.work with nhb, nvb, level, allSkip, threshold, errPend, failop } } :=
  ⟨h.nplanes, h.nvsb, h.nhsb, h.coeffShift, h.bw, h.bh, h.wstride⟩

/-- The invariant says nothing of `CTRL`, `ILLCMD`, system memory, the pending events and the value last read. -/
theorem CallInv.update {s : State} (h : CallInv s) (irqEn illcmd : Bool) (mem : Memory) (inbox : List Event) (rdata : Word) :
    CallInv { s with irqEn, illcmd, mem, inbox, rdata } :=
  ⟨h.stopped, h.ended, h.running, h.pending, fun hat => (h.latched hat).update, h.start, h.owned, h.plane, h.staged, h.flattened, h.inLoop,
    h.extent, h.level, h.threshold, h.output, h.dirBits⟩

theorem CallInv.dequeue {s : State} (h : CallInv s) : CallInv s.dequeue := h.update ..

/-- A fault after `PLANEACT` leads to `TEARDOWN` in good order (60_exceptions.md R195). -/
theorem CallInv.raiseFault {s : State} (h : CallInv s) (hat : AtOps s 2 12) (code : ErrCode) (op : BitVec 4) (wbuf : PerPlane (Scratch 16))
    (bskip : Scratch 1) (mem : Memory) : CallInv (raiseFault code op { s with wbuf, bskip, mem }) :=
  callInv_of_teardown hat.1 rfl (h.running hat.1).2 (h.latched hat.mono).update h.dirBits

/-- A call that owns its scratch still does when its position, its working scratch and the registers of the superblock change. -/
theorem OwningCall.update {s : State} (h : OwningCall s) {pc : Pos} {nhb nvb : BitVec 4} {level : BitVec 8} {allSkip : Bool} {threshold : BitVec 16}
    {wbuf : PerPlane (Scratch 16)} {bskip : Scratch 1} {dir : Vector Nat 64} {dst : Scratch 16} {mem : Memory}
    (hplane : pc.pli.val < s.work.nplanes.toNat) (hdir : ∀ i : Fin 64, dir[i] < 2 ^ s.params.dirBits) :
    OwningCall { s with pc, wbuf, bskip, dir, dst, mem, work := { s.work with nhb, nvb, level, allSkip, threshold } } where
  busy := h.busy
  err := h.err
  errPend := h.errPend
  latched := h.latched.update
  capacity := h.capacity
  bskipOwned := h.bskipOwned
  wbufOwned := h.wbufOwned
  plane := hplane
  dirBits := hdir

/-- The same inside the superblock loop, where the position stays in the frame and the staged scratch is only read. -/
theorem LoopCall.update {s : State} (h : LoopCall s) {pc : Pos} {nhb nvb : BitVec 4} {level : BitVec 8} {allSkip : Bool} {threshold : BitVec 16}
    {dir : Vector Nat 64} {dst : Scratch 16} {mem : Memory} (hplane : pc.pli.val < s.work.nplanes.toNat)
    (hin : pc.sbr.toNat < s.work.nvsb.toNat ∧ pc.sbc.toNat < s.work.nhsb.toNat) (hdir : ∀ i : Fin 64, dir[i] < 2 ^ s.params.dirBits) :
    LoopCall { s with pc, dir, dst, mem, work := { s.work with nhb, nvb, level, allSkip, threshold } } where
  toOwningCall := h.toOwningCall.update hplane hdir
  staged := h.staged
  flattened := h.flattened
  inLoop := hin

/-- An operation that keeps the position's place and the direction table keeps what holds in the loop. -/
theorem LoopCall.keepPlace {s : State} (h : LoopCall s) {op nhb nvb : BitVec 4} {level : BitVec 8} {allSkip : Bool}
    {threshold : BitVec 16} {mem : Memory} :
    LoopCall ({ s with mem, work := { s.work with nhb, nvb, level, allSkip, threshold } }.goOn op) :=
  h.update (pc := { s.pc with op }) h.plane h.inLoop h.dirBits

/-! Numbers the invariant gives. -/

theorem Latched.nplanes_pos {s : State} (h : Latched s) : 0 < s.work.nplanes.toNat := by
  rw [h.nplanes]
  obtain hn | hn := activePlanes_toNat_cases s.cfg
  · omega
  · omega

theorem Latched.unitH_le {s : State} (h : Latched s) (p : Plane) : unitH s p ≤ 8 := by
  rw [unitH, h.bh]
  exact (unitSpan_le _).2

theorem Latched.unitW_le {s : State} (h : Latched s) (p : Plane) : unitW s p ≤ 8 := by
  rw [unitW, h.bw]
  exact (unitSpan_le _).2

theorem Latched.wstride_toNat {s : State} (h : Latched s) : s.work.wstride.toNat = 8 * s.cfg.miCols.toNat := by
  rw [h.wstride, workStride_toNat]

theorem Latched.planeW_le {s : State} (h : Latched s) (p : Plane) : planeW s p ≤ s.work.wstride.toNat := by
  rw [h.wstride_toNat]
  exact Nat.mul_le_mul_right _ (h.unitW_le p)

theorem Latched.planeH_le {s : State} (h : Latched s) (p : Plane) : planeH s p ≤ 8 * s.cfg.miRows.toNat :=
  Nat.mul_le_mul_right _ (h.unitH_le p)

/-- A superblock of the loop begins inside the frame (44_superblock_loop.md R142). -/
theorem LoopCall.origin_lt {s : State} (h : LoopCall s) : sbRow s < s.cfg.miRows.toNat ∧ sbCol s < s.cfg.miCols.toNat := by
  obtain ⟨hr, hc⟩ := h.inLoop
  rw [h.latched.nvsb, superblocks_toNat] at hr
  rw [h.latched.nhsb, superblocks_toNat] at hc
  simp only [sbRow, sbCol, maxMibSize]
  omega

theorem overCapacity_eq_false {p : Params} {c : Cfg} (h : overCapacity p c = false) :
    c.miRows.toNat * c.miCols.toNat ≤ p.skipCap ∧ c.miRows.toNat * c.miCols.toNat * 64 ≤ p.wbufCap := by
  rw [overCapacity, Bool.or_eq_false_iff, decide_eq_false_iff_not, decide_eq_false_iff_not, Nat.not_lt, Nat.not_lt] at h
  exact h

/-! What the operations that fill scratch establish. -/

theorem stagedReady_iff {s : State} {p : Plane} :
    stagedReady s p = true ↔ ∀ r c, r < planeH s p → c < planeW s p → (s.wbuf.get p).holds (wbufIndex s r c) = true := all_rowMajor

theorem skipReady_iff {s : State} :
    skipReady s = true ↔
      ∀ r c, r < s.work.nvb.toNat → c < s.work.nhb.toNat → s.bskip.holds (bskipIndex s (sbRow s + r) (sbCol s + c)) = true := all_rowMajor

theorem dstReady_iff {s : State} {p : Plane} :
    dstReady s p = true ↔ ∀ r c, r < rectH s p → c < rectW s p → s.dst.holds (dstIndex r c) = true := all_rowMajor

/-- Filling one plane's buffer leaves what is staged of the others. -/
theorem stagedReady_set_other {s : State} {p q : Plane} (buf : Scratch 16) (hne : p ≠ q) (h : stagedReady s p = true) :
    stagedReady { s with wbuf := s.wbuf.set q buf } p = true := by
  rw [stagedReady_iff] at h ⊢
  intro r c hr hc
  show ((s.wbuf.set q buf).get p).holds (wbufIndex s r c) = true
  rw [PerPlane.get_set_other _ _ hne]
  exact h r c hr hc

/-- A plane staged without a fault is staged. -/
theorem stagedReady_stagePlane {s : State} {q : Plane} (hok : (stagePlane s q).2 = true) :
    stagedReady { s with wbuf := s.wbuf.set q (stagePlane s q).1 } q = true := by
  rw [stagedReady_iff]
  intro r c hr hc
  show ((s.wbuf.set q (stagePlane s q).1).get q).holds (wbufIndex s r c) = true
  rw [PerPlane.get_set_same]
  exact gather_holds _ _ hok (q := (r, c)) (mem_rowMajor.mpr ⟨hr, hc⟩)

/-- A grid flattened without a fault is flattened. -/
theorem flattenGrid_holds {s : State} (hok : (flattenGrid s).2 = true) {r c : Nat} (hr : r < s.cfg.miRows.toNat) (hc : c < s.cfg.miCols.toNat) :
    (flattenGrid s).1.holds (bskipIndex s r c) = true :=
  gather_holds _ _ hok (q := (r, c)) (mem_rowMajor.mpr ⟨hr, hc⟩)

/-- The kernel's output stands over the rectangle it was written to. -/
theorem storeOut_holds {s : State} {p : Plane} {out : Nat → Nat → Sample} (hw : rectW s p ≤ 64) {r c : Nat} (hr : r < rectH s p)
    (hc : c < rectW s p) : (storeOut s p out).holds (dstIndex r c) = true :=
  (Scratch.holds_iff _ _).mpr ⟨_, storeOut_get hw hr hc⟩

/-! Every operation keeps the invariant. -/

section keeps
variable {s t : State} (h : CallInv s) (hbusy : s.callState = .busy)
include h hbusy

theorem planeact_callInv (hop : s.pc.op = opPlaneact) (he : exec .planeact s = .next t) : CallInv t := by
  obtain ⟨-, -, -, hfree⟩ := h.start (atOps_of hbusy hop)
  have hpend := h.pending (atOps_of hbusy hop)
  cases he
  exact callInv_of_starting opAlloc hbusy rfl (h.running hbusy).2 hpend
    (fun _ => ⟨rfl, rfl, rfl, rfl, PerPlane.get_ofFn _, PerPlane.get_ofFn _, rfl⟩) ⟨rfl, rfl, rfl, hfree⟩ h.dirBits

theorem alloc_callInv (hop : s.pc.op = opAlloc) (he : exec .alloc s = .next t) : CallInv t := by
  obtain ⟨-, -, -, -, hwbuf⟩ := h.start (atOps_of hbusy hop)
  have hl := h.latched (atOps_of hbusy hop)
  obtain ⟨-, hn⟩ | ⟨hcap, hn⟩ := execAlloc_cases s
  · cases hn.symm.trans he
    exact h.raiseFault (atOps_of hbusy hop) ..
  · cases hn.symm.trans he
    refine callInv_of_owning opStage ⟨hbusy, (h.running hbusy).2, h.pending (atOps_of hbusy hop),
      hl.update, hcap, rfl, fun p => ?_, hl.nplanes_pos, h.dirBits⟩ rfl fun p _ hlt => absurd (hlt rfl) (Nat.not_lt_zero _)
    exact (PerPlane.get_ofFn _ p).trans ((congrArg _ (hwbuf p)).trans (Bool.or_false _))

theorem stage_callInv (hop : s.pc.op = opStage) (he : exec .stage s = .next t) : CallInv t := by
  have hat : AtOps s 3 12 := atOps_of hbusy hop
  have ho := h.owning hat
  have before : ∀ p : Plane, p.val < s.pc.pli.val → stagedReady s p = true := fun p hp =>
    h.staged hat p (hp.trans ho.plane) fun _ => hp
  obtain ⟨-, ⟨hok, rfl⟩ | ⟨-, rfl⟩⟩ := execStage_next he
  · have upTo : ∀ p : Plane, p.val ≤ s.pc.pli.val →
        stagedReady { s with wbuf := s.wbuf.set s.pc.pli (stagePlane s s.pc.pli).1 } p = true := by
      intro p hp
      by_cases hpp : p = s.pc.pli
      · rw [hpp]; exact stagedReady_stagePlane hok
      · exact stagedReady_set_other _ hpp (before p (lt_of_le_of_ne hp (Fin.val_ne_of_ne hpp)))
    obtain ⟨q, hq, hqn, ha⟩ | ⟨hlast, ha⟩ := afterStage_cases { s with wbuf := s.wbuf.set s.pc.pli (stagePlane s s.pc.pli).1 }
    · rw [ha]
      refine callInv_of_owning opStage (ho.update (pc := ⟨opStage, 0#13, 0#13, q⟩) hqn ho.dirBits) rfl fun p _ hlt => upTo p ?_
      exact Nat.le_of_lt_succ (Nat.lt_of_lt_of_eq (hlt rfl) hq)
    · rw [ha]
      refine callInv_of_owning opFlatten (ho.update (pc := ⟨opFlatten, 0#13, 0#13, s.pc.pli⟩) ho.plane ho.dirBits) rfl fun p hp _ => upTo p ?_
      change p.val < s.work.nplanes.toNat at hp
      change ¬ s.pc.pli.val + 1 < s.work.nplanes.toNat at hlast
      omega
  · exact h.raiseFault hat.mono ..

theorem flatten_callInv (hop : s.pc.op = opFlatten) (he : exec .flatten s = .next t) : CallInv t := by
  have hat : AtOps s 3 12 := atOps_of hbusy hop
  have ho := h.owning hat
  have hl := ho.latched
  obtain ⟨-, ⟨hok, rfl⟩ | ⟨-, rfl⟩⟩ := execFlatten_next he
  · obtain ⟨-, ha⟩ | ⟨hne, ha⟩ := afterFlatten_cases { s with bskip := (flattenGrid s).1 }
    · rw [ha]
      exact callInv_of_teardown hbusy rfl ho.err hl.update ho.dirBits
    · rw [ha]
      obtain ⟨hv, hw⟩ := not_or.mp hne
      have hin : 0 < s.work.nvsb.toNat ∧ 0 < s.work.nhsb.toNat :=
        ⟨Nat.pos_of_ne_zero fun h0 => hv (BitVec.eq_of_toNat_eq h0), Nat.pos_of_ne_zero fun h0 => hw (BitVec.eq_of_toNat_eq h0)⟩
      have hready : ∀ p, p.val < s.work.nplanes.toNat → stagedReady s p = true := fun p hp =>
        h.staged hat p hp fun hst => absurd (hop.symm.trans hst) (by decide)
      exact callInv_of_loop opSbsetup
        ⟨ho.update (pc := ⟨opSbsetup, 0#13, 0#13, 0⟩) hl.nplanes_pos ho.dirBits, hready, fun _ _ => flattenGrid_holds hok, hin⟩ rfl
  · exact h.raiseFault hat.mono ..

theorem sbsetup_callInv (hop : s.pc.op = opSbsetup) (he : exec .sbsetup s = .next t) : CallInv t := by
  have hl := h.loop (atOps_of hbusy hop)
  obtain ⟨-, -, rfl⟩ := execSbsetup_next he
  have hext : ∀ n : Nat, (BitVec.ofNat 4 (min maxMibSize n)).toNat = min 8 n := by
    intro n
    rw [BitVec.toNat_ofNat, maxMibSize]
    omega
  exact callInv_of_loop opLevel hl.keepPlace rfl (fun _ => ⟨hext _, hext _⟩)

theorem level_callInv (hop : s.pc.op = opLevel) (he : exec .level s = .next t) : CallInv t := by
  have hat : AtOps s 6 6 := atOps_of hbusy hop
  have hl := h.loop hat.mono
  have hext : ExtentSet s := h.extent hat.mono
  obtain ⟨-, hn⟩ | ⟨-, lvl, hlvl, hn⟩ := execLevel_cases s
  · cases hn.symm.trans he
    exact h.raiseFault hat.mono ..
  · cases hn.symm.trans he
    by_cases h0 : lvl = 0
    · rw [if_pos h0]
      exact callInv_of_loop opNextsb hl.keepPlace rfl (fun _ => hext)
    · rw [if_neg h0]
      have hlt : lvl < maxLevel s.params := hlvl ▸ levelMapper_lt (maxLevel_bounds s.params).1 _
      have hval : (BitVec.ofNat 8 lvl).toNat = lvl := by
        have hmax := (maxLevel_bounds s.params).2
        rw [BitVec.toNat_ofNat]
        omega
      have hset : 1 ≤ (BitVec.ofNat 8 lvl).toNat ∧ (BitVec.ofNat 8 lvl).toNat < maxLevel s.params := by
        rw [hval]
        exact ⟨Nat.pos_of_ne_zero h0, hlt⟩
      exact callInv_of_loop opSkipdet hl.keepPlace rfl (fun _ => hext) fun _ => hset

theorem skipdet_callInv (hop : s.pc.op = opSkipdet) (he : exec .skipdet s = .next t) : CallInv t := by
  have hat : AtOps s 7 7 := atOps_of hbusy hop
  have hl := h.loop hat.mono
  have hext : ExtentSet s := h.extent hat.mono
  have hlevel : LevelSet s := h.level hat.mono
  obtain ⟨-, -, ⟨-, rfl⟩ | ⟨-, rfl⟩ | ⟨-, rfl⟩⟩ := execSkipdet_next he
  · exact h.raiseFault hat.mono ..
  · exact callInv_of_loop opNextsb hl.keepPlace rfl (fun _ => hext)
  · have hzero : ∀ i : Fin 64, (Vector.replicate 64 0)[i] < 2 ^ s.params.dirBits := fun i => by simp
    exact callInv_of_loop opThresh (hl.update (pc := ⟨opThresh, s.pc.sbr, s.pc.sbc, 0⟩) hl.latched.nplanes_pos hl.inLoop hzero)
      rfl (fun _ => hext) (fun _ => hlevel)

theorem thresh_callInv (hop : s.pc.op = opThresh) (he : exec .thresh s = .next t) : CallInv t := by
  have hat : AtOps s 8 8 := atOps_of hbusy hop
  have hl := h.loop hat.mono
  have hext : ExtentSet s := h.extent hat.mono
  have hlevel : LevelSet s := h.level hat.mono
  cases he
  by_cases h0 : thresholdOf s.pc.pli s.work.level.toNat s.work.coeffShift.toNat = 0
  · dsimp only
    rw [if_pos h0]
    exact callInv_of_loop opNextpl hl.keepPlace rfl (fun _ => hext) (fun _ => hlevel)
  · dsimp only
    rw [if_neg h0]
    have hset : 1 ≤ (BitVec.ofNat 16 (thresholdOf s.pc.pli s.work.level.toNat s.work.coeffShift.toNat)).toNat := by
      rw [BitVec.toNat_ofNat, Nat.mod_eq_of_lt (thresholdOf_lt _ s.work.level.isLt s.work.coeffShift.isLt)]
      exact Nat.pos_of_ne_zero h0
    exact callInv_of_loop opKernel hl.keepPlace rfl (fun _ => hext) (fun _ => hlevel) fun _ => hset

theorem kernel_callInv (hop : s.pc.op = opKernel) (he : exec .kernel s = .next t) : CallInv t := by
  have hat : AtOps s 9 9 := atOps_of hbusy hop
  have hl := h.loop hat.mono
  have hext : ExtentSet s := h.extent hat.mono
  have hlevel : LevelSet s := h.level hat.mono
  have hthreshold := h.threshold hat.mono
  obtain ⟨-, hw, -, -, rfl⟩ := kernelWith_next he
  exact callInv_of_loop opWriteback
    (hl.update (pc := { s.pc with op := opWriteback }) hl.plane hl.inLoop (storeDir_lt s.params _)) rfl
    (fun _ => hext) (fun _ => hlevel) (fun _ => hthreshold) fun _ => dstReady_iff.mpr fun _ _ => storeOut_holds hw

theorem writeback_callInv (hop : s.pc.op = opWriteback) (he : exec .writeback s = .next t) : CallInv t := by
  have hat : AtOps s 10 10 := atOps_of hbusy hop
  have hl := h.loop hat.mono
  have hext : ExtentSet s := h.extent hat.mono
  have hlevel : LevelSet s := h.level hat.mono
  obtain ⟨-, ⟨-, rfl⟩ | ⟨-, rfl⟩⟩ := execWriteback_next he
  · exact callInv_of_loop opNextpl hl.keepPlace rfl (fun _ => hext) (fun _ => hlevel)
  · exact h.raiseFault hat.mono ..

theorem nextpl_callInv (hop : s.pc.op = opNextpl) (he : exec .nextpl s = .next t) : CallInv t := by
  have hat : AtOps s 11 11 := atOps_of hbusy hop
  have hl := h.loop hat.mono
  have hext : ExtentSet s := h.extent hat.mono
  have hlevel : LevelSet s := h.level hat.mono
  obtain ⟨q, -, hq, hn⟩ | ⟨-, hn⟩ := execNextpl_cases s
  · cases hn.symm.trans he
    exact callInv_of_loop opThresh (hl.update (pc := ⟨opThresh, s.pc.sbr, s.pc.sbc, q⟩) hq hl.inLoop hl.dirBits) rfl (fun _ => hext) (fun _ => hlevel)
  · cases hn.symm.trans he
    exact callInv_of_loop opNextsb hl.keepPlace rfl (fun _ => hext)

theorem nextsb_callInv (hop : s.pc.op = opNextsb) (he : exec .nextsb s = .next t) : CallInv t := by
  have hl := h.loop (atOps_of hbusy hop)
  have next : ∀ r c : BitVec 13, r.toNat < s.work.nvsb.toNat ∧ c.toNat < s.work.nhsb.toNat → CallInv (s.goTo opSbsetup r c 0) := fun r c hin =>
    callInv_of_loop opSbsetup (hl.update (pc := ⟨opSbsetup, r, c, 0⟩) hl.latched.nplanes_pos hin hl.dirBits) rfl
  have succ : ∀ b : BitVec 13, b.toNat + 1 < 2 ^ 13 → (b + 1#13).toNat = b.toNat + 1 := fun b hb => by
    rw [BitVec.toNat_add, BitVec.toNat_ofNat]
    omega
  obtain ⟨hr, hc⟩ := hl.inLoop
  obtain ⟨hc', hfit, rfl⟩ | ⟨-, hr', hfit, rfl⟩ | ⟨-, -, rfl⟩ := execNextsb_next he
  · exact next _ _ ⟨hr, (succ _ hfit).trans_lt hc'⟩
  · exact next _ _ ⟨(succ _ hfit).trans_lt hr', Nat.zero_lt_of_lt hc⟩
  · exact callInv_of_teardown hbusy rfl hl.err hl.latched.update hl.dirBits

end keeps

theorem teardown_callInv {s t : State} (h : CallInv s) (he : exec .teardown s = .next t) : CallInv t := by
  obtain ⟨hp, rfl⟩ | ⟨hp, rfl⟩ := execTeardown_cases he
  · exact callInv_of_stopped nofun ⟨rfl, rfl, PerPlane.get_const false⟩ ⟨fun _ => hp, nofun⟩ h.dirBits
  · exact callInv_of_stopped nofun ⟨rfl, rfl, PerPlane.get_const false⟩ ⟨nofun, fun _ => hp⟩ h.dirBits

/-- Every operation of the sequencer keeps the invariant. -/
theorem exec_operation_callInv {s t : State} {i : Instr} (h : CallInv s) (hbusy : s.callState = .busy) (hi : decodeSeq s.pc.op = .ok i)
    (he : exec i s = .next t) : CallInv t := by
  have henc := decodeSeq_ok hi
  cases i with
  | rd | wr | cmdNop | cmdStart | cmdAck => cases henc
  | planeact => exact planeact_callInv h hbusy (CodeWord.seq.inj henc).symm he
  | alloc => exact alloc_callInv h hbusy (CodeWord.seq.inj henc).symm he
  | stage => exact stage_callInv h hbusy (CodeWord.seq.inj henc).symm he
  | flatten => exact flatten_callInv h hbusy (CodeWord.seq.inj henc).symm he
  | sbsetup => exact sbsetup_callInv h hbusy (CodeWord.seq.inj henc).symm he
  | level => exact level_callInv h hbusy (CodeWord.seq.inj henc).symm he
  | skipdet => exact skipdet_callInv h hbusy (CodeWord.seq.inj henc).symm he
  | thresh => exact thresh_callInv h hbusy (CodeWord.seq.inj henc).symm he
  | kernel => exact kernel_callInv h hbusy (CodeWord.seq.inj henc).symm he
  | writeback => exact writeback_callInv h hbusy (CodeWord.seq.inj henc).symm he
  | nextpl => exact nextpl_callInv h hbusy (CodeWord.seq.inj henc).symm he
  | nextsb => exact nextsb_callInv h hbusy (CodeWord.seq.inj henc).symm he
  | teardown => exact teardown_callInv h he

/-! Every move of the host keeps the invariant. -/

theorem startCall_callInv {s : State} (h : CallInv s) : CallInv (startCall s) := by
  obtain ⟨hidle, hs⟩ | ⟨-, hs⟩ := startCall_cases s
  · rw [hs]
    obtain ⟨-, hfree⟩ := h.stopped (by rw [hidle]; decide)
    exact callInv_of_starting opPlaneact rfl rfl rfl rfl (fun ha => absurd ha (by decide)) ⟨rfl, rfl, rfl, hfree⟩ h.dirBits
  · rw [hs]
    exact h.update ..

theorem acknowledge_callInv {s : State} (h : CallInv s) : CallInv (acknowledge s) := by
  obtain ⟨hstop, hs⟩ | ⟨-, hs⟩ := acknowledge_cases s
  · rw [hs]
    exact callInv_of_stopped nofun (h.stopped hstop) ⟨nofun, nofun⟩ h.dirBits
  · rw [hs]
    exact h.update ..

theorem exec_transaction_callInv {w : BitVec 41} {i : Instr} {s t : State} (h : CallInv s) (hi : decodeTransaction w = .ok i)
    (he : exec i s = .next t) : CallInv t := by
  obtain ⟨-, rfl⟩ | ⟨-, rfl⟩ | rfl | ⟨hstop, _, rfl⟩ | ⟨_, _, rfl⟩ := exec_transaction_cases hi he
  · exact startCall_callInv h
  · exact acknowledge_callInv h
  · exact h.update ..
  · exact callInv_of_stopped hstop (h.stopped hstop) h.ended h.dirBits
  · exact h.update ..

/-- After a hardware reset the invariant holds, whatever the parameters and memory. -/
theorem hardReset_callInv (mem : Memory) (s : State) : CallInv (hardReset mem s) :=
  callInv_of_stopped nofun ⟨rfl, rfl, PerPlane.get_const false⟩ ⟨nofun, nofun⟩ fun i => by simp [State.reset]

theorem resetAt_callInv {n : Nat} {s t : State} (he : resetAt n s = .next t) : CallInv t := by
  obtain rfl | ⟨-, -, -, rfl⟩ := resetAt_next he
  · exact hardReset_callInv ..
  · exact hardReset_callInv ..

/-- Settles O42: by who moved. The operations keep the invariant one by one, the host's moves do not touch what it speaks of or begin a call, a reset
establishes it. -/
theorem callInvKept : Obligations.CallInvKept := by
  intro s t h hstep
  obtain ⟨-, -, rfl⟩ | ⟨-, hbusy, i, hi, he⟩ | ⟨w, rest, i, -, hi, he⟩ | ⟨a, b, rest, -, -, rfl⟩ | ⟨a, rest, -, -, rfl⟩ |
    ⟨n, rest, -, he⟩ := step_cases hstep
  · exact h.dequeue
  · exact exec_operation_callInv h.dequeue hbusy hi he
  · exact exec_transaction_callInv h.dequeue hi he
  · exact h.update ..
  · exact h.update ..
  · exact resetAt_callInv he

/-! The sequencer's turn always answers. -/

theorem rowIndex_lt {r h c stride : Nat} (hr : r < h) (hc : c < stride) : r * stride + c < h * stride :=
  calc r * stride + c < r * stride + stride := Nat.add_lt_add_left hc _
    _ = (r + 1) * stride := (Nat.succ_mul r stride).symm
    _ ≤ h * stride := Nat.mul_le_mul_right _ hr

/-- What `STAGE` writes lies in the buffer (10_state.md R17, 43_frame_setup.md R123). -/
theorem OwningCall.stage_fits {s : State} (h : OwningCall s) (p : Plane) :
    fitsScratch (planeH s p) (planeW s p) s.work.wstride.toNat s.params.wbufCap = true := by
  rw [fitsScratch_iff]
  intro r c hr hc
  calc r * s.work.wstride.toNat + c < planeH s p * s.work.wstride.toNat := rowIndex_lt hr (hc.trans_le (h.latched.planeW_le p))
    _ ≤ 8 * s.cfg.miRows.toNat * (8 * s.cfg.miCols.toNat) := Nat.mul_le_mul (h.latched.planeH_le p) h.latched.wstride_toNat.le
    _ = s.cfg.miRows.toNat * s.cfg.miCols.toNat * 64 := by ring
    _ ≤ s.params.wbufCap := (overCapacity_eq_false h.capacity).2

/-- What `FLATTEN` writes lies in the skip-flag array (10_state.md R18, 43_frame_setup.md R123). -/
theorem OwningCall.flatten_fits {s : State} (h : OwningCall s) :
    fitsScratch s.cfg.miRows.toNat s.cfg.miCols.toNat s.cfg.miCols.toNat s.params.skipCap = true :=
  fitsScratch_iff.mpr fun _ _ hr hc => (rowIndex_lt hr hc).trans_le (overCapacity_eq_false h.capacity).1

/-- The rectangle of a superblock fits the kernel output buffer (10_state.md R20). -/
theorem Latched.rect_le {s : State} (h : Latched s) (hext : ExtentSet s) (p : Plane) : rectH s p ≤ 64 ∧ rectW s p ≤ 64 := by
  obtain ⟨hw, hv⟩ := hext
  exact ⟨Nat.mul_le_mul (h.unitH_le p) (hv ▸ Nat.min_le_left 8 _), Nat.mul_le_mul (h.unitW_le p) (hw ▸ Nat.min_le_left 8 _)⟩

/-- The units of a superblock lie in the frame (44_superblock_loop.md R141). -/
theorem ExtentSet.unit_lt {s : State} (h : ExtentSet s) {r c : Nat} (hr : r < s.work.nvb.toNat) (hc : c < s.work.nhb.toNat) :
    sbRow s + r < s.cfg.miRows.toNat ∧ sbCol s + c < s.cfg.miCols.toNat := by
  obtain ⟨hw, hv⟩ := h
  simp only [sbRow, sbCol, maxMibSize]
  omega

theorem LoopCall.skipReady {s : State} (h : LoopCall s) (hext : ExtentSet s) : skipReady s = true :=
  skipReady_iff.mpr fun _ _ hr hc => h.flattened _ _ (hext.unit_lt hr hc).1 (hext.unit_lt hr hc).2

/-- In a state of the invariant no operation stops. -/
theorem exec_operation_total {s : State} {i : Instr} (h : CallInv s) (hbusy : s.callState = .busy) (hi : decodeSeq s.pc.op = .ok i) :
    ∃ t, exec i s = .next t := by
  have henc := decodeSeq_ok hi
  have owning : 3 ≤ s.pc.op.toNat → s.pc.op.toNat ≤ 12 → OwningCall s := fun hlo hhi => h.owning ⟨hbusy, hlo, hhi⟩
  have loop : 5 ≤ s.pc.op.toNat → s.pc.op.toNat ≤ 12 → LoopCall s := fun hlo hhi => h.loop ⟨hbusy, hlo, hhi⟩
  cases i with
  | rd | wr | cmdNop | cmdStart | cmdAck => cases henc
  | planeact | alloc | level | thresh | nextpl | teardown => exact ⟨_, rfl⟩
  | stage =>
    rw [← CodeWord.seq.inj henc] at owning
    exact ⟨_, if_pos ((owning (by decide) (by decide)).stage_fits _)⟩
  | flatten =>
    rw [← CodeWord.seq.inj henc] at owning
    exact ⟨_, if_pos (owning (by decide) (by decide)).flatten_fits⟩
  | sbsetup =>
    rw [← CodeWord.seq.inj henc] at loop
    obtain ⟨hr, hc⟩ := (loop (by decide) (by decide)).origin_lt
    exact ⟨_, exec_sbsetup_inside ⟨hc.le, hr.le⟩⟩
  | skipdet =>
    rw [← CodeWord.seq.inj henc] at loop
    exact ⟨_, if_pos (loop (by decide) (by decide)).origin_lt⟩
  | kernel =>
    rw [← CodeWord.seq.inj henc] at loop
    have hl := loop (by decide) (by decide)
    have hext : ExtentSet s := h.extent (atOps_of hbusy (CodeWord.seq.inj henc).symm)
    exact ⟨_, exec_kernel_ready (hl.latched.rect_le hext _) (hl.staged _ hl.plane) (hl.skipReady hext)⟩
  | writeback => exact ⟨_, if_pos (h.output (atOps_of hbusy (CodeWord.seq.inj henc).symm))⟩
  | nextsb =>
    rw [← CodeWord.seq.inj henc] at loop
    have hlatched := (loop (by decide) (by decide)).latched
    have hcols : s.work.nhsb.toNat ≤ 2 ^ 13 := hlatched.nhsb ▸ superblocks_le _
    have hrows : s.work.nvsb.toNat ≤ 2 ^ 13 := hlatched.nvsb ▸ superblocks_le _
    by_cases hc : s.pc.sbc.toNat + 1 < s.work.nhsb.toNat
    · exact ⟨_, exec_nextsb_column hc (hc.trans_le hcols)⟩
    · by_cases hr : s.pc.sbr.toNat + 1 < s.work.nvsb.toNat
      · exact ⟨_, exec_nextsb_row hc hr (hr.trans_le hrows)⟩
      · exact ⟨_, exec_nextsb_last hc hr⟩

theorem CallInv.op_le {s : State} (h : CallInv s) : s.pc.op.toNat ≤ 13 := by
  by_cases hbusy : s.callState = .busy
  · obtain ⟨⟨-, -, hle⟩, -⟩ := h.running hbusy
    exact hle
  · rw [(h.stopped hbusy).1]
    decide

/-- Settles O43: a stopped sequencer's turn changes nothing; a running one is at an operation, and in a state of the invariant no operation stops. -/
theorem sequencerNeverStops : Obligations.SequencerNeverStops := by
  intro s h hturn
  rw [step_of_turn h.op_le hturn]
  by_cases hbusy : s.callState = .busy
  · obtain ⟨-, hlo, hhi⟩ := (h.running hbusy).1
    obtain ⟨i, hi⟩ := decodeSeq_of_range hlo hhi
    obtain ⟨t, ht⟩ := exec_operation_total h.dequeue hbusy hi
    exact ⟨t, (sequencerTurn_busy (s := s.dequeue) hbusy hi).trans ht⟩
  · exact ⟨_, sequencerTurn_stopped hbusy⟩

/-! Reset. -/

theorem readReg_reset (r : Reg) : readReg State.reset r = 0#32 := by
  cases r with
  | planeBase p | planeStride p | planeSs p => fin_cases p <;> rfl
  | _ => rfl

/-- Settles O38: the fields of `State.reset`; the invariant is that of a machine just reset. -/
theorem resetStopsTheMachine : Obligations.ResetStopsTheMachine := by
  have canonical : Canonical State.reset := by simp [Canonical, Memory.wf, State.reset, rising]
  exact ⟨rfl, rfl, rfl, rfl, rfl, rfl, readReg_reset, rfl, rfl, rfl, rfl, PerPlane.get_const 0#4, PerPlane.get_const 0#4, rfl, rfl, rfl, rfl,
    rfl, rfl, rfl, rfl, rfl, PerPlane.get_const false, canonical, hardReset_callInv [] State.reset⟩

end Sys2Proof.Machine
end

section
/-! SUPPORT. Nothing an earlier call left influences a call (10_state.md R11, 44_superblock_loop.md R163 item 3): two machines that differ in
leftovers only go through the same course. -/

namespace Sys2Proof.Machine

/-! Two machines on the same course. -/

/-- The machine that is in its call where `s` is and holds, of everything a call overwrites before it reads it or never reads, what `u` holds. -/
def State.withLeftovers (s u : State) : State :=
  { u with
    params := s.params, cfg := s.cfg, callState := s.callState, err := s.err, pc := s.pc, mem := s.mem, inbox := s.inbox
    work :=
      { u.work with
        nplanes := s.work.nplanes, nvsb := s.work.nvsb, nhsb := s.work.nhsb, coeffShift := s.work.coeffShift, bw := s.work.bw
        bh := s.work.bh, wstride := s.work.wstride, errPend := s.work.errPend } }

/-- The staged samples of plane `p` are the same (10_state.md R17). -/
def StagedAlike (s t : State) (p : Plane) : Prop :=
  ∀ r c, r < planeH s p → c < planeW s p → (t.wbuf.get p).get (wbufIndex s r c) = (s.wbuf.get p).get (wbufIndex s r c)

/-- Every plane's staged samples and the skip flags of the frame are the same (10_state.md R17, R18). -/
structure LoopAlike (s t : State) : Prop where
  staged : ∀ p, p.val < s.work.nplanes.toNat → StagedAlike s t p
  flags  : ∀ r c, r < s.cfg.miRows.toNat → c < s.cfg.miCols.toNat → t.bskip.get (bskipIndex s r c) = s.bskip.get (bskipIndex s r c)

/-- The kernel's output for the current rectangle is the same (10_state.md R20). -/
def OutputAlike (s t : State) : Prop :=
  ∀ r c, r < rectH s s.pc.pli → c < rectW s s.pc.pli → t.dst.get (dstIndex r c) = s.dst.get (dstIndex r c)

/-- `s` and `t` differ at most in what the rest of the call does not read: each working register and each scratch entry is the same from the operation
that writes it to the last that reads it. -/
structure SameCourse (s t : State) : Prop where
  rest      : t = s.withLeftovers t
  staged    : AtOps s 3 12 → ∀ p, p.val < s.work.nplanes.toNat → (s.pc.op = opStage → p.val < s.pc.pli.val) → StagedAlike s t p
  loop      : AtOps s 5 12 → LoopAlike s t
  extent    : AtOps s 6 12 → t.work.nhb = s.work.nhb ∧ t.work.nvb = s.work.nvb
  level     : AtOps s 7 11 → t.work.level = s.work.level
  dir       : AtOps s 8 11 → t.dir = s.dir
  threshold : AtOps s 9 10 → t.work.threshold = s.work.threshold
  output    : AtOps s 10 10 → OutputAlike s t

theorem SameCourse.leftovers {s t : State} (h : SameCourse s t) : ∃ u, t = s.withLeftovers u := ⟨t, h.rest⟩

/-- Outside `STAGE` to `NEXTSB` no scratch and no register of the superblock is still to be read. -/
theorem sameCourse_of_outside {s t : State} (op : BitVec 4) (hrest : t = s.withLeftovers t) (hop : s.pc.op = op)
    (hout : op.toNat < 3 ∨ 12 < op.toNat := by decide) : SameCourse s t :=
  have outside : ∀ {P : Prop}, AtOps s 3 12 → P := fun ha => absurd ha (not_atOps hop hout)
  { rest := hrest
    staged := outside
    loop := fun hat => outside hat.mono
    extent := fun hat => outside hat.mono
    level := fun hat => outside hat.mono
    dir := fun hat => outside hat.mono
    threshold := fun hat => outside hat.mono
    output := fun hat => outside hat.mono }

/-- Before the superblock loop only the planes already staged are. -/
theorem sameCourse_of_staging {s t : State} (op : BitVec 4) (hrest : t = s.withLeftovers t) (hop : s.pc.op = op)
    (hstaged : ∀ p, p.val < s.work.nplanes.toNat → (op = opStage → p.val < s.pc.pli.val) → StagedAlike s t p)
    (hout : op.toNat < 5 ∨ 12 < op.toNat := by decide) : SameCourse s t :=
  have outside : ∀ {P : Prop}, AtOps s 5 12 → P := fun ha => absurd ha (not_atOps hop hout)
  { rest := hrest
    staged := fun _ p hp hlt => hstaged p hp fun hst => hlt (hop.trans hst)
    loop := outside
    extent := fun hat => outside hat.mono
    level := fun hat => outside hat.mono
    dir := fun hat => outside hat.mono
    threshold := fun hat => outside hat.mono
    output := fun hat => outside hat.mono }

/-- In the superblock loop the operation tells which registers are, beside all that is staged. -/
theorem sameCourse_of_loop {s t : State} (op : BitVec 4) (hrest : t = s.withLeftovers t) (hloop : LoopAlike s t) (hop : s.pc.op = op)
    (hextent : 6 ≤ op.toNat → t.work.nhb = s.work.nhb ∧ t.work.nvb = s.work.nvb := by exact fun ha => absurd ha (by decide))
    (hlevel : 7 ≤ op.toNat ∧ op.toNat ≤ 11 → t.work.level = s.work.level := by exact fun ha => absurd ha (by decide))
    (hdir : 8 ≤ op.toNat ∧ op.toNat ≤ 11 → t.dir = s.dir := by exact fun ha => absurd ha (by decide))
    (hthreshold : 9 ≤ op.toNat ∧ op.toNat ≤ 10 → t.work.threshold = s.work.threshold := by exact fun ha => absurd ha (by decide))
    (houtput : op = opWriteback → OutputAlike s t := by exact fun ha => absurd ha (by decide)) : SameCourse s t where
  rest := hrest
  staged _ p hp _ := hloop.staged p hp
  loop _ := hloop
  extent hat := hextent (hop ▸ hat.2.1)
  level hat := hlevel (hop ▸ hat.2)
  dir hat := hdir (hop ▸ hat.2)
  threshold hat := hthreshold (hop ▸ hat.2)
  output hat := houtput (hop ▸ BitVec.eq_of_toNat_eq (le_antisymm hat.2.2 hat.2.1))

/-! The loops of the operations do the same on both. -/

/-- Whether a `gather` comes to its end does not depend on what it fills. -/
theorem gather_flag_congr {w : Nat} {read : Nat → Nat → Option (BitVec w)} {index : Nat → Nat → Nat} (l : List (Nat × Nat)) (m m' : Scratch w) :
    (gather read index l m).2 = (gather read index l m').2 :=
  Bool.eq_iff_iff.mpr ((gather_ok_iff l m).trans (gather_ok_iff l m').symm)

/-- A `gather` over a rectangle that comes to its end leaves the same entries whatever it fills. -/
theorem gather_get_congr {w h width stride : Nat} {read : Nat → Nat → Option (BitVec w)} {m m' : Scratch w} (hstride : width ≤ stride)
    (hok : (gather read (fun r c => r * stride + c) (rowMajor h width) m).2 = true) {r c : Nat} (hr : r < h) (hc : c < width) :
    (gather read (fun r c => r * stride + c) (rowMajor h width) m').1.get (r * stride + c) =
      (gather read (fun r c => r * stride + c) (rowMajor h width) m).1.get (r * stride + c) := by
  have hinj : ∀ q ∈ rowMajor h width, ∀ q' ∈ rowMajor h width, q.1 * stride + q.2 = q'.1 * stride + q'.2 → q = q' := by
    intro q hq q' hq' heq
    obtain ⟨h1, h2⟩ := index_injective hstride (mem_rowMajor.mp hq).2 (mem_rowMajor.mp hq').2 heq
    exact Prod.ext h1 h2
  have read_of : ∀ m : Scratch w, (gather read (fun r c => r * stride + c) (rowMajor h width) m).2 = true →
      (gather read (fun r c => r * stride + c) (rowMajor h width) m).1.get (r * stride + c) = read r c := fun m hm =>
    gather_get _ m hm (rowMajor_nodup h width) hinj (q := (r, c)) (mem_rowMajor.mpr ⟨hr, hc⟩)
  exact (read_of m' ((gather_flag_congr _ _ _).trans hok)).trans (read_of m hok).symm

/-- Two writers that do the same at every position do the same in a `scatter`. -/
theorem scatter_congr {write write' : Memory → Nat → Nat → Option Memory} (l : List (Nat × Nat)) (m : Memory)
    (h : ∀ m, ∀ q ∈ l, write' m q.1 q.2 = write m q.1 q.2) : scatter write' l m = scatter write l m := by
  induction l generalizing m with
  | nil => rfl
  | cons q rest ih =>
    obtain ⟨r, c⟩ := q
    rw [scatter, scatter, h m (r, c) List.mem_cons_self]
    cases write m r c with
    | none => rfl
    | some m' => exact ih m' fun m q hq => h m q (List.mem_cons_of_mem _ hq)

/-! Each operation keeps the course. -/

theorem planeact_sameCourse {s t s' : State} (hparams : s.params = t.params) (hcfg : s.cfg = t.cfg) (hmem : s.mem = t.mem)
    (hcall : s.callState = t.callState) (herr : s.err = t.err) (hpend : s.work.errPend = t.work.errPend) (hinbox : s.inbox = t.inbox)
    (he : exec .planeact s = .next s') : ∃ t', exec .planeact t = .next t' ∧ SameCourse s' t' := by
  cases he
  refine ⟨_, rfl, sameCourse_of_outside opAlloc ?_ rfl⟩
  simp only [State.withLeftovers, State.goTo, hparams, hcfg, hmem, hcall, herr, hpend, hinbox]

section keeps
variable {s t s' : State} (hst : SameCourse s t)
include hst

theorem alloc_sameCourse (he : exec .alloc s = .next s') : ∃ t', exec .alloc t = .next t' ∧ SameCourse s' t' := by
  obtain ⟨u, rfl⟩ := hst.leftovers
  obtain ⟨hcap, hn⟩ | ⟨hcap, hn⟩ := execAlloc_cases s
  · cases hn.symm.trans he
    exact ⟨_, exec_alloc_fault (s := s.withLeftovers u) hcap, sameCourse_of_outside opTeardown rfl rfl⟩
  · cases hn.symm.trans he
    exact ⟨_, exec_alloc_fits (s := s.withLeftovers u) hcap, sameCourse_of_staging opStage rfl rfl
      fun p _ hlt => absurd (hlt rfl) (Nat.not_lt_zero _)⟩

theorem stage_sameCourse (h : CallInv s) (hat : AtOps s 3 3) (he : exec .stage s = .next s') :
    ∃ t', exec .stage t = .next t' ∧ SameCourse s' t' := by
  have hl := (h.owning hat.mono).latched
  have hplane := h.plane hat.mono
  obtain ⟨u, rfl⟩ := hst.leftovers
  obtain ⟨hfits, ⟨hok, -⟩ | ⟨hok, rfl⟩⟩ := execStage_next he
  · have hok' : (stagePlane (s.withLeftovers u) s.pc.pli).2 = true := (gather_flag_congr _ _ _).trans hok
    have upTo : ∀ p : Plane, p.val ≤ s.pc.pli.val →
        StagedAlike { s with wbuf := s.wbuf.set s.pc.pli (stagePlane s s.pc.pli).1 }
          { s.withLeftovers u with wbuf := u.wbuf.set s.pc.pli (stagePlane (s.withLeftovers u) s.pc.pli).1 } p := by
      intro p hp r c hr hc
      dsimp only
      by_cases hpp : p = s.pc.pli
      · rw [hpp, PerPlane.get_set_same, PerPlane.get_set_same]
        rw [hpp] at hr hc
        exact gather_get_congr (hl.planeW_le _) hok hr hc
      · rw [PerPlane.get_set_other _ _ hpp, PerPlane.get_set_other _ _ hpp]
        have hlt := lt_of_le_of_ne hp (Fin.val_ne_of_ne hpp)
        exact hst.staged hat.mono p (hlt.trans hplane) (fun _ => hlt) r c hr hc
    cases hq : nextPlane s.pc.pli s.work.nplanes with
    | some q =>
      cases (exec_stage_more hfits hok hq).symm.trans he
      exact ⟨_, exec_stage_more (s := s.withLeftovers u) hfits hok' hq, sameCourse_of_staging opStage rfl rfl
        fun p _ hlt => upTo p (Nat.le_of_lt_succ ((hlt rfl).trans_eq (nextPlane_eq_some hq).1))⟩
    | none =>
      have hlast := nextPlane_eq_none.mp hq
      cases (exec_stage_last hfits hok hq).symm.trans he
      exact ⟨_, exec_stage_last (s := s.withLeftovers u) hfits hok' hq,
        sameCourse_of_staging opFlatten rfl rfl
          fun p hp _ => upTo p (Nat.le_of_lt_succ (Nat.lt_of_lt_of_le hp (Nat.not_lt.mp hlast)))⟩
  · have hok' : (stagePlane (s.withLeftovers u) s.pc.pli).2 = false := (gather_flag_congr _ _ _).trans hok
    exact ⟨_, exec_stage_fault (s := s.withLeftovers u) hfits hok',
      sameCourse_of_outside opTeardown rfl rfl⟩

theorem flatten_sameCourse (hat : AtOps s 4 4) (he : exec .flatten s = .next s') :
    ∃ t', exec .flatten t = .next t' ∧ SameCourse s' t' := by
  obtain ⟨u, rfl⟩ := hst.leftovers
  obtain ⟨hfits, ⟨hok, -⟩ | ⟨hok, rfl⟩⟩ := execFlatten_next he
  · have hok' : (flattenGrid (s.withLeftovers u)).2 = true := (gather_flag_congr _ _ _).trans hok
    by_cases hempty : s.work.nvsb = 0#14 ∨ s.work.nhsb = 0#14
    · cases (exec_flatten_empty hfits hok hempty).symm.trans he
      exact ⟨_, exec_flatten_empty (s := s.withLeftovers u) hfits hok' hempty,
        sameCourse_of_outside opTeardown rfl rfl⟩
    · have hstaged : ∀ p, p.val < s.work.nplanes.toNat → StagedAlike s (s.withLeftovers u) p := fun p hp =>
        hst.staged hat.mono p hp fun hop => absurd hat (not_atOps hop (.inl (by decide)))
      cases (exec_flatten_loop hfits hok hempty).symm.trans he
      exact ⟨_, exec_flatten_loop (s := s.withLeftovers u) hfits hok' hempty,
        sameCourse_of_loop opSbsetup rfl ⟨hstaged, fun _ _ hr hc => gather_get_congr (Nat.le_refl _) hok hr hc⟩ rfl⟩
  · have hok' : (flattenGrid (s.withLeftovers u)).2 = false := (gather_flag_congr _ _ _).trans hok
    exact ⟨_, exec_flatten_fault (s := s.withLeftovers u) hfits hok',
      sameCourse_of_outside opTeardown rfl rfl⟩

theorem sbsetup_sameCourse (hat : AtOps s 5 5) (he : exec .sbsetup s = .next s') :
    ∃ t', exec .sbsetup t = .next t' ∧ SameCourse s' t' := by
  obtain ⟨staged, flags⟩ := hst.loop hat.mono
  obtain ⟨u, rfl⟩ := hst.leftovers
  obtain ⟨hc, hr, rfl⟩ := execSbsetup_next he
  exact ⟨_, exec_sbsetup_inside (s := s.withLeftovers u) ⟨hc, hr⟩,
    sameCourse_of_loop opLevel rfl ⟨staged, flags⟩ rfl fun _ => ⟨rfl, rfl⟩⟩

theorem level_sameCourse (hat : AtOps s 6 6) (he : exec .level s = .next s') : ∃ t', exec .level t = .next t' ∧ SameCourse s' t' := by
  obtain ⟨staged, flags⟩ := hst.loop hat.mono
  have hext := hst.extent hat.mono
  obtain ⟨u, rfl⟩ := hst.leftovers
  obtain ⟨ha, hn⟩ | ⟨ha, lvl, hlvl, hn⟩ := execLevel_cases s
  · cases hn.symm.trans he
    exact ⟨_, exec_level_fault (s := s.withLeftovers u) ha, sameCourse_of_outside opTeardown rfl rfl⟩
  · cases hn.symm.trans he
    refine ⟨_, exec_level_acceptable (s := s.withLeftovers u) ha hlvl, ?_⟩
    by_cases h0 : lvl = 0
    · rw [if_pos h0]
      exact sameCourse_of_loop opNextsb rfl ⟨staged, flags⟩ rfl (fun _ => hext)
    · rw [if_neg h0]
      exact sameCourse_of_loop opSkipdet rfl ⟨staged, flags⟩ rfl (fun _ => hext) (fun _ => rfl)

theorem skipdet_sameCourse (hat : AtOps s 7 7) (he : exec .skipdet s = .next s') :
    ∃ t', exec .skipdet t = .next t' ∧ SameCourse s' t' := by
  obtain ⟨staged, flags⟩ := hst.loop hat.mono
  have hext := hst.extent hat.mono
  have hlevel := hst.level hat.mono
  obtain ⟨u, rfl⟩ := hst.leftovers
  obtain ⟨hr, hc, ⟨hd, rfl⟩ | ⟨hd, rfl⟩ | ⟨hd, rfl⟩⟩ := execSkipdet_next he
  · exact ⟨_, exec_skipdet_fault (s := s.withLeftovers u) ⟨hr, hc⟩ hd,
      sameCourse_of_outside opTeardown rfl rfl⟩
  · exact ⟨_, exec_skipdet_all (s := s.withLeftovers u) ⟨hr, hc⟩ hd, sameCourse_of_loop opNextsb rfl ⟨staged, flags⟩ rfl (fun _ => hext)⟩
  · exact ⟨_, exec_skipdet_some (s := s.withLeftovers u) ⟨hr, hc⟩ hd, sameCourse_of_loop opThresh rfl ⟨staged, flags⟩ rfl (fun _ => hext)
      (fun _ => hlevel) (fun _ => rfl)⟩

theorem thresh_sameCourse (hat : AtOps s 8 8) (he : exec .thresh s = .next s') :
    ∃ t', exec .thresh t = .next t' ∧ SameCourse s' t' := by
  obtain ⟨staged, flags⟩ := hst.loop hat.mono
  have hext := hst.extent hat.mono
  have hlevel := hst.level hat.mono
  have hdir := hst.dir hat.mono
  obtain ⟨u, rfl⟩ := hst.leftovers
  obtain ⟨v, hv⟩ : ∃ v, thresholdOf s.pc.pli s.work.level.toNat s.work.coeffShift.toNat = v := ⟨_, rfl⟩
  have hv' : thresholdOf s.pc.pli (s.withLeftovers u).work.level.toNat s.work.coeffShift.toNat = v := by rw [hlevel, hv]
  cases (exec_thresh hv).symm.trans he
  refine ⟨_, exec_thresh (s := s.withLeftovers u) hv', ?_⟩
  by_cases h0 : v = 0
  · rw [if_pos h0]
    exact sameCourse_of_loop opNextpl rfl ⟨staged, flags⟩ rfl (fun _ => hext) (fun _ => hlevel) (fun _ => hdir)
  · rw [if_neg h0]
    exact sameCourse_of_loop opKernel rfl ⟨staged, flags⟩ rfl (fun _ => hext) (fun _ => hlevel) (fun _ => hdir) (fun _ => rfl)

/-- The rectangle of the superblock is the same on both. -/
theorem SameCourse.rect_eq (hat : AtOps s 6 12) (p : Plane) : rectH t p = rectH s p ∧ rectW t p = rectW s p := by
  obtain ⟨hw, hv⟩ := hst.extent hat
  obtain ⟨u, rfl⟩ := hst.leftovers
  exact ⟨congrArg (fun n : BitVec 4 => unitH s p * n.toNat) hv, congrArg (fun n : BitVec 4 => unitW s p * n.toNat) hw⟩

/-- What the FilterKernel is given is the same on both (45_kernel_interface.md R172). -/
theorem SameCourse.kernelArgs_eq (h : CallInv s) (hat : AtOps s 9 9) : kernelArgs t s.pc.pli = kernelArgs s s.pc.pli := by
  have hplane := h.plane hat.mono
  have hunit : ExtentSet s := h.extent hat.mono
  obtain ⟨staged, flags⟩ := hst.loop hat.mono
  obtain ⟨hw, hv⟩ := hst.extent hat.mono
  have hdir := hst.dir hat.mono
  have hthreshold := hst.threshold hat.mono
  obtain ⟨u, rfl⟩ := hst.leftovers
  have hsrc : (kernelArgs (s.withLeftovers u) s.pc.pli).src = (kernelArgs s s.pc.pli).src := by
    funext r c
    by_cases hrc : r < planeH s s.pc.pli ∧ c < planeW s s.pc.pli
    · exact (if_pos hrc).trans ((congrArg (Option.getD · 0#16) (staged _ hplane r c hrc.1 hrc.2)).trans (if_pos hrc).symm)
    · exact (if_neg hrc).trans (if_neg hrc).symm
  have hskip : (kernelArgs (s.withLeftovers u) s.pc.pli).skip = (kernelArgs s s.pc.pli).skip := by
    funext r c
    dsimp only [kernelArgs]
    rw [hv, hw]
    by_cases hrc : r < s.work.nvb.toNat ∧ c < s.work.nhb.toNat
    · obtain ⟨hr, hc⟩ := hunit.unit_lt hrc.1 hrc.2
      rw [if_pos hrc, if_pos hrc]
      exact congrArg (fun v => decide (v = some 1#1)) (flags _ _ hr hc)
    · rw [if_neg hrc, if_neg hrc]
  have hdir' : (kernelArgs (s.withLeftovers u) s.pc.pli).dir = (kernelArgs s s.pc.pli).dir := by
    dsimp only [kernelArgs]
    rw [hdir]
  calc kernelArgs (s.withLeftovers u) s.pc.pli
    _ = { kernelArgs s s.pc.pli with
          src := (kernelArgs (s.withLeftovers u) s.pc.pli).src, skip := (kernelArgs (s.withLeftovers u) s.pc.pli).skip
          dir := (kernelArgs (s.withLeftovers u) s.pc.pli).dir, nhb := (s.withLeftovers u).work.nhb.toNat
          nvb := (s.withLeftovers u).work.nvb.toNat, threshold := (s.withLeftovers u).work.threshold.toNat } := rfl
    _ = kernelArgs s s.pc.pli := by rw [hsrc, hskip, hdir', hw, hv, hthreshold]; rfl

theorem kernel_sameCourse (h : CallInv s) (ht : CallInv t) (hat : AtOps s 9 9) (he : exec .kernel s = .next s') :
    ∃ t', exec .kernel t = .next t' ∧ SameCourse s' t' := by
  obtain ⟨staged, flags⟩ := hst.loop hat.mono
  have hext := hst.extent hat.mono
  have hlevel := hst.level hat.mono
  have hthreshold := hst.threshold hat.mono
  have hargs := hst.kernelArgs_eq h hat
  obtain ⟨hrectH, hrectW⟩ := hst.rect_eq hat.mono s.pc.pli
  obtain ⟨u, rfl⟩ := hst.leftovers
  have hat' : AtOps (s.withLeftovers u) 9 9 := hat
  have hl := ht.loop hat'.mono
  have hunit : ExtentSet (s.withLeftovers u) := ht.extent hat'.mono
  obtain ⟨-, hw, -, -, rfl⟩ := kernelWith_next he
  have houtput : ∀ r c, r < rectH s s.pc.pli → c < rectW s s.pc.pli →
      (storeOut (s.withLeftovers u) s.pc.pli (Config.filterKernel (kernelArgs (s.withLeftovers u) s.pc.pli)).out).get (dstIndex r c) =
        (storeOut s s.pc.pli (Config.filterKernel (kernelArgs s s.pc.pli)).out).get (dstIndex r c) := by
    intro r c hr hc
    rw [storeOut_get (hrectW.trans_le hw) (hr.trans_eq hrectH.symm) (hc.trans_eq hrectW.symm), storeOut_get hw hr hc, hargs]
  exact ⟨_, exec_kernel_ready (hl.latched.rect_le hunit _) (hl.staged _ hl.plane) (hl.skipReady hunit),
    sameCourse_of_loop opWriteback rfl ⟨staged, flags⟩ rfl (fun _ => hext) (fun _ => hlevel)
      (fun _ => congrArg (fun a => storeDir s.params (Config.filterKernel a).dir) hargs) (fun _ => hthreshold) fun _ => houtput⟩

/-- A `WRITEBACK` writes the same on both. -/
theorem SameCourse.writeBack_eq (hat : AtOps s 10 10) : writeBack t (rectPositions t) = writeBack s (rectPositions s) := by
  have houtput := hst.output hat
  obtain ⟨hrectH, hrectW⟩ := hst.rect_eq hat.mono s.pc.pli
  obtain ⟨u, rfl⟩ := hst.leftovers
  have hpos : rectPositions (s.withLeftovers u) = rectPositions s := congrArg₂ rowMajor hrectH hrectW
  rw [hpos]
  refine scatter_congr _ _ fun m q hq => ?_
  obtain ⟨hr, hc⟩ := mem_rowMajor.mp hq
  exact congrArg (fun v => writeSample s.params s.cfg m s.pc.pli (rectRow s s.pc.pli + q.1) (rectCol s s.pc.pli + q.2) (Option.getD v 0#16))
    (houtput _ _ hr hc)

theorem writeback_sameCourse (ht : CallInv t) (hat : AtOps s 10 10) (he : exec .writeback s = .next s') :
    ∃ t', exec .writeback t = .next t' ∧ SameCourse s' t' := by
  obtain ⟨staged, flags⟩ := hst.loop hat.mono
  have hext := hst.extent hat.mono
  have hlevel := hst.level hat.mono
  have hdir := hst.dir hat.mono
  have hsame := hst.writeBack_eq hat
  obtain ⟨u, rfl⟩ := hst.leftovers
  have hready := ht.output hat
  obtain ⟨-, ⟨hok, rfl⟩ | ⟨hok, rfl⟩⟩ := execWriteback_next he
  · refine ⟨_, exec_writeback_done hready (by rw [hsame]; exact hok), ?_⟩
    rw [hsame]
    exact sameCourse_of_loop opNextpl rfl ⟨staged, flags⟩ rfl (fun _ => hext) (fun _ => hlevel) (fun _ => hdir)
  · refine ⟨_, exec_writeback_fault hready (by rw [hsame]; exact hok), ?_⟩
    rw [hsame]
    exact sameCourse_of_outside opTeardown rfl rfl

theorem nextpl_sameCourse (hat : AtOps s 11 11) (he : exec .nextpl s = .next s') :
    ∃ t', exec .nextpl t = .next t' ∧ SameCourse s' t' := by
  obtain ⟨staged, flags⟩ := hst.loop hat.mono
  have hext := hst.extent hat.mono
  have hlevel := hst.level hat.mono
  have hdir := hst.dir hat.mono
  obtain ⟨u, rfl⟩ := hst.leftovers
  cases hq : nextPlane s.pc.pli s.work.nplanes with
  | some q =>
    cases (exec_nextpl_some hq).symm.trans he
    exact ⟨_, exec_nextpl_some (s := s.withLeftovers u) hq, sameCourse_of_loop opThresh rfl ⟨staged, flags⟩ rfl (fun _ => hext) (fun _ => hlevel)
      (fun _ => hdir)⟩
  | none =>
    cases (exec_nextpl_none hq).symm.trans he
    exact ⟨_, exec_nextpl_none (s := s.withLeftovers u) hq, sameCourse_of_loop opNextsb rfl ⟨staged, flags⟩ rfl (fun _ => hext)⟩

theorem nextsb_sameCourse (hat : AtOps s 12 12) (he : exec .nextsb s = .next s') :
    ∃ t', exec .nextsb t = .next t' ∧ SameCourse s' t' := by
  obtain ⟨staged, flags⟩ := hst.loop hat.mono
  obtain ⟨u, rfl⟩ := hst.leftovers
  have next : ∀ r c : BitVec 13, SameCourse (s.goTo opSbsetup r c 0) ((s.withLeftovers u).goTo opSbsetup r c 0) := fun r c =>
    sameCourse_of_loop opSbsetup rfl ⟨staged, flags⟩ rfl
  obtain ⟨hc, hfit, rfl⟩ | ⟨hc, hr, hfit, rfl⟩ | ⟨hc, hr, rfl⟩ := execNextsb_next he
  · exact ⟨_, exec_nextsb_column (s := s.withLeftovers u) hc hfit, next _ _⟩
  · exact ⟨_, exec_nextsb_row (s := s.withLeftovers u) hc hr hfit, next _ _⟩
  · exact ⟨_, exec_nextsb_last (s := s.withLeftovers u) hc hr, sameCourse_of_outside opTeardown rfl rfl⟩

theorem teardown_sameCourse (he : exec .teardown s = .next s') : ∃ t', exec .teardown t = .next t' ∧ SameCourse s' t' := by
  obtain ⟨u, rfl⟩ := hst.leftovers
  cases he
  exact ⟨_, rfl, sameCourse_of_outside opIdle rfl rfl⟩

end keeps

/-- Every operation keeps the course. -/
theorem exec_operation_sameCourse {s t s' : State} {i : Instr} (h : CallInv s) (ht : CallInv t) (hst : SameCourse s t) (hbusy : s.callState = .busy)
    (hi : decodeSeq s.pc.op = .ok i) (he : exec i s = .next s') : ∃ t', exec i t = .next t' ∧ SameCourse s' t' := by
  have henc := decodeSeq_ok hi
  have hat : ∀ op : BitVec 4, encode i = .seq op → AtOps s op.toNat op.toNat := fun op ho =>
    atOps_of hbusy (CodeWord.seq.inj (henc.symm.trans ho)) (Nat.le_refl _) (Nat.le_refl _)
  cases i with
  | rd | wr | cmdNop | cmdStart | cmdAck => cases henc
  | planeact =>
    obtain ⟨u, rfl⟩ := hst.leftovers
    exact planeact_sameCourse (s := s) rfl rfl rfl rfl rfl rfl rfl he
  | alloc => exact alloc_sameCourse hst he
  | stage => exact stage_sameCourse hst h (hat opStage rfl) he
  | flatten => exact flatten_sameCourse hst (hat opFlatten rfl) he
  | sbsetup => exact sbsetup_sameCourse hst (hat opSbsetup rfl) he
  | level => exact level_sameCourse hst (hat opLevel rfl) he
  | skipdet => exact skipdet_sameCourse hst (hat opSkipdet rfl) he
  | thresh => exact thresh_sameCourse hst (hat opThresh rfl) he
  | kernel => exact kernel_sameCourse hst h ht (hat opKernel rfl) he
  | writeback => exact writeback_sameCourse hst ht (hat opWriteback rfl) he
  | nextpl => exact nextpl_sameCourse hst (hat opNextpl rfl) he
  | nextsb => exact nextsb_sameCourse hst (hat opNextsb rfl) he
  | teardown => exact teardown_sameCourse hst he

/-! The course of a call. -/

/-- With no event pending a running machine performs the operation at its position. -/
theorem step_of_operation {s : State} {i : Instr} (hin : s.inbox = []) (hbusy : s.callState = .busy) (hi : decodeSeq s.pc.op = .ok i) :
    step s = exec i s := ((sequencerStepsOnlyWhileBusy s).1 i hbusy hi).1 hin

/-- One step of both machines. -/
theorem step_sameCourse {s t : State} (h : CallInv s) (ht : CallInv t) (hst : SameCourse s t) (hin : s.inbox = []) :
    ∃ s' t', step s = .next s' ∧ step t = .next t' ∧ SameCourse s' t' ∧ s'.inbox = [] := by
  have hin' : t.inbox = [] := by rw [hst.rest]; exact hin
  have hcall : t.callState = s.callState := by rw [hst.rest]; rfl
  have hop : t.pc = s.pc := by rw [hst.rest]; rfl
  by_cases hbusy : s.callState = .busy
  · obtain ⟨-, hlo, hhi⟩ := (h.running hbusy).1
    obtain ⟨i, hi⟩ := decodeSeq_of_range hlo hhi
    obtain ⟨s', hs'⟩ := exec_operation_total h hbusy hi
    obtain ⟨t', ht', hst'⟩ := exec_operation_sameCourse h ht hst hbusy hi hs'
    have hstep' := step_of_operation hin' (hcall.trans hbusy) (hop ▸ hi)
    exact ⟨s', t', (step_of_operation hin hbusy hi).trans hs', hstep'.trans ht', hst', (exec_operation_hostSideKept hi hs').inbox.trans hin⟩
  · have hstop := ((sequencerStepsOnlyWhileBusy s).2 hbusy h.op_le).1 hin
    have hstop' := ((sequencerStepsOnlyWhileBusy t).2 (hcall ▸ hbusy) ht.op_le).1 hin'
    exact ⟨s, t, hstop, hstop', hst, hin⟩

theorem run_succ {s t : State} (n : Nat) (h : step s = .next t) : core.run (n + 1) s = core.run n t := by
  have hcore : core.step s = .next t := h
  simp only [Host.Core.run, hcore]

/-- Any number of steps of both machines. -/
theorem run_sameCourse (n : Nat) {s t : State} (h : CallInv s) (ht : CallInv t) (hst : SameCourse s t) (hin : s.inbox = []) :
    ∃ s' t', core.run n s = .next s' ∧ core.run n t = .next t' ∧ SameCourse s' t' := by
  induction n generalizing s t with
  | zero => exact ⟨s, t, rfl, rfl, hst⟩
  | succ n ih =>
    obtain ⟨s₁, t₁, hs, ht₁, hst₁, hin₁⟩ := step_sameCourse h ht hst hin
    rw [run_succ n hs, run_succ n ht₁]
    exact ih (callInvKept s s₁ h hs) (callInvKept t t₁ ht ht₁) hst₁ hin₁

/-- Settles O54: `PLANEACT` puts the two machines on the same course (`planeact_sameCourse`), which every later step keeps; machines on the same
course agree on what the statement names. -/
theorem historyDoesNotMatter : Obligations.HistoryDoesNotMatter := by
  intro s t h ht hbusy hbusy' hop hop' hin hin' hparams hcfg hmem n
  have hat : AtOps s 1 1 := atOps_of hbusy hop
  have hat' : AtOps t 1 1 := atOps_of hbusy' hop'
  have herr : s.err = t.err := (h.running hbusy).2.trans (ht.running hbusy').2.symm
  cases n with
  | zero =>
    obtain ⟨hr, hc, hp, -⟩ := h.start hat.mono
    obtain ⟨hr', hc', hp', -⟩ := ht.start hat'.mono
    have hpc : s.pc = t.pc := Pos.mk.injEq .. ▸ ⟨hop.trans hop'.symm, hr.trans hr'.symm, hc.trans hc'.symm, hp.trans hp'.symm⟩
    exact ⟨s, t, rfl, rfl, hmem, hbusy.trans hbusy'.symm, herr, hpc⟩
  | succ n =>
    have hpend : s.work.errPend = t.work.errPend :=
      (h.pending hat.mono).trans (ht.pending hat'.mono).symm
    have hdecode : decodeSeq s.pc.op = .ok .planeact := by rw [hop]; rfl
    have hdecode' : decodeSeq t.pc.op = .ok .planeact := by rw [hop']; rfl
    obtain ⟨s₁, hs₁⟩ := exec_operation_total h hbusy hdecode
    obtain ⟨t₁, ht₁, hst₁⟩ := planeact_sameCourse hparams hcfg hmem (hbusy.trans hbusy'.symm) herr hpend (hin.trans hin'.symm) hs₁
    have hstep := (step_of_operation hin hbusy hdecode).trans hs₁
    have hstep' := (step_of_operation hin' hbusy' hdecode').trans ht₁
    obtain ⟨s', t', hrun, hrun', hst⟩ := run_sameCourse n (callInvKept s s₁ h hstep) (callInvKept t t₁ ht hstep') hst₁
      ((exec_operation_hostSideKept hdecode hs₁).inbox.trans hin)
    refine ⟨s', t', (run_succ n hstep).trans hrun, (run_succ n hstep').trans hrun', ?_⟩
    rw [hst.rest]
    exact ⟨rfl, rfl, rfl, rfl⟩

end Sys2Proof.Machine
end

section
/-! SUPPORT. The memory port and the canonical form (20_memory.md): the 2-byte accesses by what they meet, a sample written back, and that every step keeps the
canonical form of system memory and of the scratch memories. -/

namespace Sys2Proof.Machine

/-! The canonical form under the updates that steps are made of. -/

section canonical
variable {s : State} (h : Canonical s)
include h

theorem Canonical.mem_wf : s.mem.wf := h.1

theorem Canonical.wbuf_rising (p : Plane) : rising (s.wbuf.get p) := by
  obtain ⟨-, h0, h1, h2, -, -⟩ := h
  fin_cases p
  · exact h0
  · exact h1
  · exact h2

theorem Canonical.bskip_rising : rising s.bskip := by
  obtain ⟨-, -, -, -, hbskip, -⟩ := h
  exact hbskip

theorem Canonical.dst_rising : rising s.dst := by
  obtain ⟨-, -, -, -, -, hdst⟩ := h
  exact hdst

/-- An update of anything but the memories is not seen by the canonical form. -/
theorem Canonical.update (cfg : Cfg) (irqEn : Bool) (callState : CallState) (illcmd : Bool) (err : ErrCode) (pc : Pos) (work : Work)
    (dir : Vector Nat 64) (bskipAlloc : Bool) (wbufAlloc : PerPlane Bool) (inbox : List Event) (rdata : Word) :
    Canonical { s with cfg, irqEn, callState, illcmd, err, pc, work, dir, bskipAlloc, wbufAlloc, inbox, rdata } := h

theorem Canonical.setMem {mem : Memory} (hmem : mem.wf) : Canonical { s with mem } := ⟨hmem, h.2⟩

theorem Canonical.setWbuf (p : Plane) {buf : Scratch 16} (hbuf : rising buf) : Canonical { s with wbuf := s.wbuf.set p buf } := by
  obtain ⟨hmem, h0, h1, h2, hbskip, hdst⟩ := h
  fin_cases p
  · exact ⟨hmem, hbuf, h1, h2, hbskip, hdst⟩
  · exact ⟨hmem, h0, hbuf, h2, hbskip, hdst⟩
  · exact ⟨hmem, h0, h1, hbuf, hbskip, hdst⟩

theorem Canonical.setBskip {bskip : Scratch 1} (hbskip : rising bskip) : Canonical { s with bskip } := by
  obtain ⟨hmem, h0, h1, h2, -, hdst⟩ := h
  exact ⟨hmem, h0, h1, h2, hbskip, hdst⟩

theorem Canonical.setDst {dst : Scratch 16} (hdst : rising dst) : Canonical { s with dst } := by
  obtain ⟨hmem, h0, h1, h2, hbskip, -⟩ := h
  exact ⟨hmem, h0, h1, h2, hbskip, hdst⟩

/-- What `STAGE` stores (43_frame_setup.md R125). -/
theorem Canonical.stagePlane (p : Plane) : Canonical { s with wbuf := s.wbuf.set p (stagePlane s p).1 } :=
  h.setWbuf p (gather_rising _ (h.wbuf_rising p))

/-- What `FLATTEN` stores (43_frame_setup.md R127). -/
theorem Canonical.flattenGrid : Canonical { s with bskip := (flattenGrid s).1 } :=
  h.setBskip (gather_rising _ h.bskip_rising)

/-- What `KERNEL` stores (44_superblock_loop.md R146). -/
theorem Canonical.storeOut (p : Plane) (out : Nat → Nat → Sample) : Canonical { s with dst := storeOut s p out } :=
  h.setDst (storeOut_rising h.dst_rising)

/-- What a `WRITEBACK` through the positions `l` stores (44_superblock_loop.md R148). -/
theorem Canonical.writeBack (l : List (Nat × Nat)) : Canonical { s with mem := (writeBack s l).1 } :=
  h.setMem (writeBack_wf s l h.mem_wf)

theorem Canonical.afterStage : Canonical (afterStage s) := by
  obtain ⟨_, -, -, hs⟩ | ⟨-, hs⟩ := afterStage_cases s
  · rw [hs]; exact h.update ..
  · rw [hs]; exact h.update ..

theorem Canonical.afterFlatten : Canonical (afterFlatten s) := by
  obtain ⟨-, hs⟩ | ⟨-, hs⟩ := afterFlatten_cases s
  · rw [hs]; exact h.update ..
  · rw [hs]; exact h.update ..

theorem Canonical.startCall : Canonical (startCall s) := by
  obtain ⟨-, hs⟩ | ⟨-, hs⟩ := startCall_cases s
  · rw [hs]; exact h.update ..
  · rw [hs]; exact h.update ..

theorem Canonical.acknowledge : Canonical (acknowledge s) := by
  obtain ⟨-, hs⟩ | ⟨-, hs⟩ := acknowledge_cases s
  · rw [hs]; exact h.update ..
  · rw [hs]; exact h.update ..

end canonical

/-- A hardware reset empties the scratch memories and leaves system memory. -/
theorem hardReset_canonical {mem : Memory} (hmem : mem.wf) (s : State) : Canonical (hardReset mem s) :=
  ⟨hmem, .nil, .nil, .nil, .nil, .nil⟩

/-! Every move keeps the canonical form. -/

/-- `STAGE`, `FLATTEN`, `KERNEL` and `WRITEBACK` each store into one memory and keep its form; the other operations store into none. -/
theorem exec_operation_canonical {w : BitVec 4} {i : Instr} {s t : State} (h : Canonical s) (hi : decodeSeq w = .ok i) (he : exec i s = .next t) :
    Canonical t := by
  have henc := decodeSeq_ok hi
  cases i with
  | rd | wr | cmdNop | cmdStart | cmdAck => cases henc
  | planeact | thresh | teardown => cases he; exact h.update ..
  | alloc =>
    obtain ⟨-, hn⟩ | ⟨-, hn⟩ := execAlloc_cases s
    · cases hn.symm.trans he; exact h.update ..
    · cases hn.symm.trans he; exact h.update ..
  | stage =>
    obtain ⟨-, ⟨-, rfl⟩ | ⟨-, rfl⟩⟩ := execStage_next he
    · exact (h.stagePlane _).afterStage
    · exact (h.stagePlane _).update ..
  | flatten =>
    obtain ⟨-, ⟨-, rfl⟩ | ⟨-, rfl⟩⟩ := execFlatten_next he
    · exact h.flattenGrid.afterFlatten
    · exact h.flattenGrid.update ..
  | sbsetup =>
    obtain ⟨-, -, rfl⟩ := execSbsetup_next he
    exact h.update ..
  | level =>
    obtain ⟨-, hn⟩ | ⟨-, _, -, hn⟩ := execLevel_cases s
    · cases hn.symm.trans he; exact h.update ..
    · cases hn.symm.trans he; exact h.update ..
  | skipdet =>
    obtain ⟨-, -, ⟨-, rfl⟩ | ⟨-, rfl⟩ | ⟨-, rfl⟩⟩ := execSkipdet_next he
    · exact h.update ..
    · exact h.update ..
    · exact h.update ..
  | kernel =>
    obtain ⟨-, -, -, -, rfl⟩ := kernelWith_next he
    have hstored := h.storeOut s.pc.pli (Config.filterKernel (kernelArgs s s.pc.pli)).out
    exact hstored.update ..
  | writeback =>
    obtain ⟨-, ⟨-, rfl⟩ | ⟨-, rfl⟩⟩ := execWriteback_next he
    · exact (h.writeBack _).update ..
    · exact (h.writeBack _).update ..
  | nextpl =>
    obtain ⟨_, -, -, hn⟩ | ⟨-, hn⟩ := execNextpl_cases s
    · cases hn.symm.trans he; exact h.update ..
    · cases hn.symm.trans he; exact h.update ..
  | nextsb =>
    obtain ⟨-, -, rfl⟩ | ⟨-, -, -, rfl⟩ | ⟨-, -, rfl⟩ := execNextsb_next he
    · exact h.update ..
    · exact h.update ..
    · exact h.update ..

theorem exec_transaction_canonical {w : BitVec 41} {i : Instr} {s t : State} (h : Canonical s) (hi : decodeTransaction w = .ok i)
    (he : exec i s = .next t) : Canonical t := by
  obtain ⟨-, rfl⟩ | ⟨-, rfl⟩ | rfl | ⟨-, _, rfl⟩ | ⟨_, _, rfl⟩ := exec_transaction_cases hi he
  · exact h.startCall
  · exact h.acknowledge
  · exact h.update ..
  · exact h.update ..
  · exact h.update ..

theorem resetAt_canonical {n : Nat} {s t : State} (h : Canonical s) (he : resetAt n s = .next t) : Canonical t := by
  obtain rfl | ⟨-, -, -, rfl⟩ := resetAt_next he
  · exact hardReset_canonical h.mem_wf s
  · exact hardReset_canonical (h.writeBack _).mem_wf s

/-- Settles O41: by who moved (`step_cases`). The operations keep the form memory by memory, a transaction touches no memory, the host's own write is at an address
of the 32-bit space, a reset empties the scratch memories. -/
theorem canonicalKept : Obligations.CanonicalKept := by
  intro s t h hstep
  obtain ⟨-, -, rfl⟩ | ⟨-, -, i, hi, he⟩ | ⟨w, rest, i, -, hi, he⟩ | ⟨a, b, rest, -, -, rfl⟩ | ⟨a, rest, -, -, rfl⟩ |
    ⟨n, rest, -, he⟩ := step_cases hstep
  · exact h.update ..
  · exact exec_operation_canonical (h.update ..) hi he
  · exact exec_transaction_canonical (h.update ..) hi he
  · exact (h.setMem (Memory.wf_write h.mem_wf a.isLt b)).update ..
  · exact h.update ..
  · exact resetAt_canonical (h.update ..) he

/-! The accesses of the memory port, by what they meet (20_memory.md R42 to R45). -/

section port
variable {p : Params} {m : Memory} {a : Nat}

theorem memRead2_of_acceptable (h : acceptable p a = true) (h' : acceptable p (a + 1) = true) :
    memRead2 p m a = some (m.read (a + 1) ++ m.read a) :=
  if_pos (Bool.and_eq_true_iff.mpr ⟨h, h'⟩)

theorem memWrite2_of_acceptable (h : acceptable p a = true) (h' : acceptable p (a + 1) = true) (v : BitVec 16) :
    memWrite2 p m a v = some ((m.write a (v.extractLsb' 0 8)).write (a + 1) (v.extractLsb' 8 8)) :=
  if_pos (Bool.and_eq_true_iff.mpr ⟨h, h'⟩)

/-- An unacceptable byte refuses a 2-byte access whole. -/
theorem not_both_acceptable (h : acceptable p a = false ∨ acceptable p (a + 1) = false) :
    ¬ (acceptable p a && acceptable p (a + 1)) = true :=
  Bool.eq_false_iff.mp (Bool.and_eq_false_iff.mpr h)

theorem memRead1_eq_some {b : Byte} (h : memRead1 p m a = some b) : acceptable p a = true ∧ b = m.read a := by
  rw [memRead1, Option.ite_none_right_eq_some] at h
  obtain ⟨ha, hb⟩ := h
  exact ⟨ha, (Option.some.inj hb).symm⟩

theorem memRead2_eq_some {v : BitVec 16} (h : memRead2 p m a = some v) :
    acceptable p a = true ∧ acceptable p (a + 1) = true ∧ v = m.read (a + 1) ++ m.read a := by
  rw [memRead2, Option.ite_none_right_eq_some, Bool.and_eq_true] at h
  obtain ⟨⟨ha, ha'⟩, hv⟩ := h
  exact ⟨ha, ha', (Option.some.inj hv).symm⟩

/-- The lower byte of a 2-byte write (20_memory.md R44). -/
theorem memWrite2_read_low {m' : Memory} {v : BitVec 16} (h : memWrite2 p m a v = some m') : m'.read a = v.extractLsb' 0 8 := by
  obtain ⟨-, -, rfl⟩ := memWrite2_eq_some h
  rw [Memory.read_write_other _ _ (Nat.ne_of_lt (Nat.lt_succ_self a)), Memory.read_write_same]

/-- The upper byte of a 2-byte write (20_memory.md R44). -/
theorem memWrite2_read_high {m' : Memory} {v : BitVec 16} (h : memWrite2 p m a v = some m') : m'.read (a + 1) = v.extractLsb' 8 8 := by
  obtain ⟨-, -, rfl⟩ := memWrite2_eq_some h
  rw [Memory.read_write_same]

theorem memWrite2_read_other {m' : Memory} {v : BitVec 16} (h : memWrite2 p m a v = some m') {b : Nat} (hb : b ≠ a) (hb' : b ≠ a + 1) :
    m'.read b = m.read b := by
  obtain ⟨-, -, rfl⟩ := memWrite2_eq_some h
  rw [Memory.read_write_other _ _ hb', Memory.read_write_other _ _ hb]

/-- A 2-byte read after the 2-byte write gives the value written. -/
theorem memRead2_after_memWrite2 {m' : Memory} {v : BitVec 16} (h : memWrite2 p m a v = some m') : memRead2 p m' a = some v := by
  obtain ⟨ha, ha', -⟩ := memWrite2_eq_some h
  rw [memRead2_of_acceptable ha ha', memWrite2_read_low h, memWrite2_read_high h, BitVec.extractLsb'_append_extractLsb']

end port

/-! A value written back where it was read. -/

/-- A byte widened to a sample and narrowed again is the byte (20_memory.md R48, R49). -/
theorem extractLsb'_setWidth_byte (b : Byte) : (b.setWidth 16).extractLsb' 0 8 = b := by
  rw [← BitVec.setWidth_eq_extractLsb' (by decide), BitVec.setWidth_setWidth_of_le b (by decide), BitVec.setWidth_eq]

/-- In canonical form, writing the byte just read changes nothing. -/
theorem memWrite1_of_memRead1 {p : Params} {m : Memory} {a : Nat} {b : Byte} (hm : m.wf) (h : memRead1 p m a = some b) :
    memWrite1 p m a b = some m := by
  obtain ⟨ha, rfl⟩ := memRead1_eq_some h
  rw [memWrite1, if_pos ha, Memory.write_read hm]

/-- In canonical form, writing the two bytes just read changes nothing: each is written where it was read. -/
theorem memWrite2_of_memRead2 {p : Params} {m : Memory} {a : Nat} {v : BitVec 16} (hm : m.wf) (h : memRead2 p m a = some v) :
    memWrite2 p m a v = some m := by
  obtain ⟨ha, ha', rfl⟩ := memRead2_eq_some h
  rw [memWrite2_of_acceptable ha ha', BitVec.extractLsb'_append_eq_right, BitVec.extractLsb'_append_eq_left, Memory.write_read hm,
    Memory.write_read hm]

/-! The statements. -/

/-- Settles O36: the rules of the two accesses, and what an accepted write leaves at each byte. -/
theorem twoByteAccess : Obligations.TwoByteAccess := by
  intro prm m a v
  refine ⟨fun ha ha' => ?_, fun h => ⟨if_neg (not_both_acceptable h), if_neg (not_both_acceptable h)⟩⟩
  have hwrite := memWrite2_of_acceptable (m := m) ha ha' v
  exact ⟨memRead2_of_acceptable ha ha', _, hwrite, memRead2_after_memWrite2 hwrite, memWrite2_read_low hwrite, memWrite2_read_high hwrite,
    fun _ hb hb' => memWrite2_read_other hwrite hb hb', fun hm => memWrite2_wf hm hwrite⟩

/-- Settles O37: by the container. An 8-bit sample is a byte widened, of which the write takes the lower byte back; a 16-bit one is its two bytes. -/
theorem writeOfReadIsIdentity : Obligations.WriteOfReadIsIdentity := by
  intro prm c m p row col v hm hread
  by_cases hbd : c.hbd = 0#1
  · rw [readSample, if_pos hbd, Option.map_eq_some_iff] at hread
    obtain ⟨b, hb, rfl⟩ := hread
    rw [writeSample, if_pos hbd, extractLsb'_setWidth_byte]
    exact memWrite1_of_memRead1 hm hb
  · rw [readSample, if_neg hbd] at hread
    rw [writeSample, if_neg hbd]
    exact memWrite2_of_memRead2 hm hread

/-- Settles O8: both instructions ask for `off[1:0] = 0` first (`offsetAligned_iff`). -/
theorem misalignedTransactionRefused : Obligations.MisalignedTransactionRefused := by
  intro s off data hoff
  have hmis : ¬ offsetAligned off = true := fun h => hoff ((offsetAligned_iff off).mp h)
  exact ⟨if_neg hmis, if_neg hmis⟩

end Sys2Proof.Machine
end

section
/-! SUPPORT. The encodings (30_encoding.md): what each of the three decoders answers, that no step leads to a reserved operation code, and the statements about the
code words. -/

namespace Sys2Proof

/-! Format `BUS`. -/

/-- A transaction decodes exactly when its offset is a multiple of 4; the bit `we` then tells the direction (30_encoding.md R61). -/
theorem decodeBus_eq_ok {w : BitVec 41} {i : Instr} :
    decodeBus w = .ok i ↔ offsetAligned (busOff w) = true ∧
      (busWe w = 1#1 ∧ i = .wr (busOff w) (busData w) ∨ busWe w = 0#1 ∧ i = .rd (busOff w)) := by
  by_cases ha : offsetAligned (busOff w) = true
  · obtain hwe | hwe := BitVec.eq_zero_or_eq_one (busWe w)
    · simp [decodeBus, ha, hwe, eq_comm]
    · simp [decodeBus, ha, hwe, eq_comm]
  · simp [decodeBus, ha]

/-- Some instruction for exactly the aligned transactions. -/
theorem exists_decodeBus_eq_ok {w : BitVec 41} : (∃ i, decodeBus w = .ok i) ↔ offsetAligned (busOff w) = true := by
  refine ⟨fun ⟨_, h⟩ => (decodeBus_eq_ok.mp h).1, fun ha => ?_⟩
  obtain hwe | hwe := BitVec.eq_zero_or_eq_one (busWe w)
  · exact ⟨_, decodeBus_eq_ok.mpr ⟨ha, .inr ⟨hwe, rfl⟩⟩⟩
  · exact ⟨_, decodeBus_eq_ok.mpr ⟨ha, .inl ⟨hwe, rfl⟩⟩⟩

/-- An aligned read decodes to itself, whatever its data bits. -/
theorem decodeBus_busWord_read {off : BitVec 8} (h : offsetAligned off = true) (data : Word) :
    decodeBus (busWord 0#1 off data) = .ok (.rd off) := by
  simp [decodeBus_eq_ok, h]

theorem decodeBus_busWord_write {off : BitVec 8} (h : offsetAligned off = true) (data : Word) :
    decodeBus (busWord 1#1 off data) = .ok (.wr off data) := by
  simp [decodeBus_eq_ok, h]

/-! Format `CMD`. -/

/-- The three commands and their words (30_encoding.md R62, R63). -/
theorem decodeCmd_eq_ok {w : Word} {i : Instr} :
    decodeCmd w = .ok i ↔ w = 0#32 ∧ i = .cmdNop ∨ w = 1#32 ∧ i = .cmdStart ∨ w = 2#32 ∧ i = .cmdAck := by
  constructor
  · intro h
    unfold decodeCmd at h
    split at h
    · next h0 => cases h; exact .inl ⟨h0, rfl⟩
    · split at h
      · next h1 => cases h; exact .inr (.inl ⟨h1, rfl⟩)
      · split at h
        · next h2 => cases h; exact .inr (.inr ⟨h2, rfl⟩)
        · cases h
  · rintro (⟨rfl, rfl⟩ | ⟨rfl, rfl⟩ | ⟨rfl, rfl⟩)
    · rfl
    · rfl
    · rfl

/-- Some command for exactly the words 0, 1 and 2. -/
theorem exists_decodeCmd_eq_ok {w : Word} : (∃ i, decodeCmd w = .ok i) ↔ w.toNat < 3 := by
  constructor
  · rintro ⟨i, h⟩
    obtain ⟨rfl, -⟩ | ⟨rfl, -⟩ | ⟨rfl, -⟩ := decodeCmd_eq_ok.mp h
    · decide
    · decide
    · decide
  · intro h
    have hw : w = 0#32 ∨ w = 1#32 ∨ w = 2#32 := by bv_omega
    obtain rfl | rfl | rfl := hw
    · exact ⟨_, rfl⟩
    · exact ⟨_, rfl⟩
    · exact ⟨_, rfl⟩

/-! Format `SEQ`. -/

/-- A sequencer operation has no field that could be wrong. -/
theorem wellFormed_of_encode_seq {i : Instr} {w : BitVec 4} (h : encode i = .seq w) : WellFormed i = true := by
  cases i with
  | rd | wr => cases h
  | _ => rfl

/-- The reserved operation codes (30_encoding.md R65). -/
theorem op_reserved_iff {op : BitVec 4} : 13 < op.toNat ↔ op = 0xE#4 ∨ op = 0xF#4 := by
  revert op; decide

end Sys2Proof

namespace Sys2Proof.Machine

/-- Code 0, `IDLE`, is no operation (30_encoding.md R64). -/
theorem decodeSeq_ok_pos {w : BitVec 4} {i : Instr} (h : decodeSeq w = .ok i) : 1 ≤ w.toNat := by
  by_contra hc
  have hw : w = 0#4 := by bv_omega
  subst hw
  cases h

/-! No step leads to a reserved operation code. -/

theorem State.goTo_op_le (s : State) {op : BitVec 4} (r c : BitVec 13) (p : Plane) (h : op.toNat ≤ 13 := by decide) :
    (s.goTo op r c p).pc.op.toNat ≤ 13 := h

theorem State.goOn_op_le (s : State) {op : BitVec 4} (h : op.toNat ≤ 13 := by decide) : (s.goOn op).pc.op.toNat ≤ 13 := h

theorem raiseFault_op_le (code : ErrCode) (op : BitVec 4) (s : State) : (raiseFault code op s).pc.op.toNat ≤ 13 :=
  (by decide : opTeardown.toNat ≤ 13)

theorem afterStage_op_le (s : State) : (afterStage s).pc.op.toNat ≤ 13 := by
  obtain ⟨_, -, -, h⟩ | ⟨-, h⟩ := afterStage_cases s
  · rw [h]; exact State.goTo_op_le ..
  · rw [h]; exact State.goTo_op_le ..

theorem afterFlatten_op_le (s : State) : (afterFlatten s).pc.op.toNat ≤ 13 := by
  obtain ⟨-, h⟩ | ⟨-, h⟩ := afterFlatten_cases s
  · rw [h]; exact State.goTo_op_le ..
  · rw [h]; exact State.goTo_op_le ..

/-- Whatever an operation meets, it names `IDLE` or an operation next. -/
theorem exec_operation_op_le {w : BitVec 4} {i : Instr} {s t : State} (hi : decodeSeq w = .ok i) (h : exec i s = .next t) :
    t.pc.op.toNat ≤ 13 := by
  have henc := decodeSeq_ok hi
  cases i with
  | rd | wr | cmdNop | cmdStart | cmdAck => cases henc
  | planeact => cases h; exact State.goTo_op_le ..
  | alloc =>
    obtain ⟨-, he⟩ | ⟨-, he⟩ := execAlloc_cases s
    · cases he.symm.trans h; exact raiseFault_op_le ..
    · cases he.symm.trans h; exact State.goTo_op_le ..
  | stage =>
    obtain ⟨-, ⟨-, rfl⟩ | ⟨-, rfl⟩⟩ := execStage_next h
    · exact afterStage_op_le _
    · exact raiseFault_op_le ..
  | flatten =>
    obtain ⟨-, ⟨-, rfl⟩ | ⟨-, rfl⟩⟩ := execFlatten_next h
    · exact afterFlatten_op_le _
    · exact raiseFault_op_le ..
  | sbsetup =>
    obtain ⟨-, -, rfl⟩ := execSbsetup_next h
    exact State.goOn_op_le _
  | level =>
    obtain ⟨-, he⟩ | ⟨-, lvl, -, he⟩ := execLevel_cases s
    · cases he.symm.trans h; exact raiseFault_op_le ..
    · cases he.symm.trans h
      refine State.goOn_op_le _ ?_
      split
      · decide
      · decide
  | skipdet =>
    obtain ⟨-, -, ⟨-, rfl⟩ | ⟨-, rfl⟩ | ⟨-, rfl⟩⟩ := execSkipdet_next h
    · exact raiseFault_op_le ..
    · exact State.goOn_op_le _
    · exact State.goTo_op_le ..
  | thresh =>
    cases h
    refine State.goOn_op_le _ ?_
    split
    · decide
    · decide
  | kernel =>
    obtain ⟨-, -, -, -, rfl⟩ := kernelWith_next h
    exact State.goOn_op_le _
  | writeback =>
    obtain ⟨-, ⟨-, rfl⟩ | ⟨-, rfl⟩⟩ := execWriteback_next h
    · exact State.goOn_op_le _
    · exact raiseFault_op_le ..
  | nextpl =>
    obtain ⟨_, -, -, he⟩ | ⟨-, he⟩ := execNextpl_cases s
    · cases he.symm.trans h; exact State.goTo_op_le ..
    · cases he.symm.trans h; exact State.goOn_op_le _
  | nextsb =>
    obtain ⟨-, -, rfl⟩ | ⟨-, -, -, rfl⟩ | ⟨-, -, rfl⟩ := execNextsb_next h
    · exact State.goTo_op_le ..
    · exact State.goTo_op_le ..
    · exact State.goOn_op_le _
  | teardown => cases h; exact State.goOn_op_le _

/-- A transaction moves the position only to begin a call, at `PLANEACT`. -/
theorem exec_transaction_op_le {w : BitVec 41} {i : Instr} {s t : State} (hop : s.pc.op.toNat ≤ 13) (hi : decodeTransaction w = .ok i)
    (h : exec i s = .next t) : t.pc.op.toNat ≤ 13 := by
  obtain ⟨-, rfl⟩ | ⟨-, rfl⟩ | rfl | ⟨-, _, rfl⟩ | ⟨_, _, rfl⟩ := exec_transaction_cases hi h
  · obtain ⟨-, hs⟩ | ⟨-, hs⟩ := startCall_cases s
    · rw [hs]; exact (by decide : opPlaneact.toNat ≤ 13)
    · rw [hs]; exact hop
  · obtain ⟨-, hs⟩ | ⟨-, hs⟩ := acknowledge_cases s
    · rw [hs]; exact hop
    · rw [hs]; exact hop
  · exact hop
  · exact hop
  · exact hop

/-- A reset leaves `pc.OP` at 0 (10_state.md R30). -/
theorem resetAt_pc {n : Nat} {s t : State} (h : resetAt n s = .next t) : t.pc = State.reset.pc := by
  obtain rfl | ⟨-, -, -, rfl⟩ := resetAt_next h
  · exact hardReset_pc ..
  · exact hardReset_pc ..

/-- By who moved: an operation names the next one, a transaction at most begins a call, a reset leads to `IDLE`, and no other move of the host touches the
position. -/
theorem step_op_le {s t : State} (h : step s = .next t) : t.pc.op.toNat ≤ 13 := by
  have hop := step_position h
  obtain ⟨-, -, rfl⟩ | ⟨-, -, i, hi, he⟩ | ⟨w, rest, i, -, hi, he⟩ | ⟨a, b, rest, -, -, rfl⟩ | ⟨a, rest, -, -, rfl⟩ |
    ⟨n, rest, -, he⟩ := step_cases h
  · exact hop
  · exact exec_operation_op_le hi he
  · exact exec_transaction_op_le (s := s.dequeue) hop hi he
  · exact hop
  · exact hop
  · rw [resetAt_pc he]; decide

/-! A command written to `CMD`. -/

/-- A write to `CMD` is accepted and runs its data word (40_host_commands.md R81). -/
theorem exec_wr_cmd (data : Word) (s : State) : exec (.wr 0x00#8 data) s = .next (runCommand data s) := rfl

/-- A command word runs as the command it decodes to (30_encoding.md R62). -/
theorem runCommand_of_decodeCmd {data : Word} {c : Instr} (h : decodeCmd data = .ok c) (s : State) : .next (runCommand data s) = exec c s := by
  obtain ⟨rfl, rfl⟩ | ⟨rfl, rfl⟩ | ⟨rfl, rfl⟩ := decodeCmd_eq_ok.mp h
  · rfl
  · rfl
  · rfl

/-! The statements. -/

/-- Settles O2: by the instruction. A transaction is put together and taken apart again; every other instruction has one code word. -/
theorem decodeOfEncode : Obligations.DecodeOfEncode := by
  intro i hwf
  cases i with
  | rd off => exact decodeBus_busWord_read hwf 0#32
  | wr off data => exact decodeBus_busWord_write hwf data
  | _ => rfl

/-- Settles O3: by the format. A write is its three fields and a read only two of them; a command and an operation are their whole words. -/
theorem encodeOfDecode : Obligations.EncodeOfDecode := by
  intro c i h
  cases c with
  | bus w =>
    obtain ⟨ha, ⟨hwe, rfl⟩ | ⟨hwe, rfl⟩⟩ := decodeBus_eq_ok.mp h
    · refine ⟨ha, .inl ?_⟩
      rw [encode, ← hwe, busWord_fields]
    · exact ⟨ha, .inr ⟨w, _, rfl, hwe, rfl, rfl⟩⟩
  | cmd w =>
    obtain ⟨rfl, rfl⟩ | ⟨rfl, rfl⟩ | ⟨rfl, rfl⟩ := decodeCmd_eq_ok.mp h
    · exact ⟨rfl, .inl rfl⟩
    · exact ⟨rfl, .inl rfl⟩
    · exact ⟨rfl, .inl rfl⟩
  | seq w =>
    have henc := decodeSeq_ok h
    exact ⟨wellFormed_of_encode_seq henc, .inl henc⟩

/-- Settles O55: the refusal is `step_reserved`, the unreachability `step_op_le`, and the decoder's range bounds the codes. -/
theorem reservedCodesNeverArise : Obligations.ReservedCodesNeverArise := by
  refine ⟨fun s h => step_reserved (op_reserved_iff.mpr h), rfl, fun s t h => ?_, fun w i h => ⟨decodeSeq_ok_pos h, decodeSeq_ok_le h⟩⟩
  exact not_or.mp fun hc => Nat.not_lt.mpr (step_op_le h) (op_reserved_iff.mpr hc)

/-- Settles O1, by running the decoders on the spec's words. -/
theorem specWordsDecode : Obligations.SpecWordsDecode := by
  unfold Obligations.SpecWordsDecode
  decide

/-- Settles O4: the range of each decoder. -/
theorem reservedEncodingsRejected : Obligations.ReservedEncodingsRejected :=
  ⟨fun _ => ⟨fun ⟨_, h⟩ => ⟨decodeSeq_ok_pos h, decodeSeq_ok_le h⟩, fun ⟨h1, h13⟩ => decodeSeq_of_range h1 h13⟩,
    fun _ => exists_decodeCmd_eq_ok, fun w => exists_decodeBus_eq_ok.trans (offsetAligned_iff (busOff w))⟩

/-- Settles O11: a command runs as what it decodes to, a reserved word sets the one flag (`runCommand_reserved`). -/
theorem cmdWriteRunsCommand : Obligations.CmdWriteRunsCommand := by
  refine fun s data => ⟨fun c hc => (exec_wr_cmd data s).trans (runCommand_of_decodeCmd hc s), fun hres => ?_⟩
  rw [exec_wr_cmd, runCommand_reserved hres, setIllcmd]

end Sys2Proof.Machine
end

section
/-! SUPPORT. The register port (40_host_commands.md): what each register's fields cover and how a write and a later read of them meet, the numbers `STATUS` and
`SEQPOS` show; and the statements about `RD`, `WR` and the three commands. -/

namespace Sys2Proof

/-! The address map (10_state.md R12). -/

/-- The byte offset of a register (10_state.md R12), the way back from `regAt`; of the reserved offsets only 0xFC. -/
def Reg.offset : Reg → BitVec 8
  | .cmd => 0x00#8
  | .status => 0x04#8
  | .seqpos => 0x08#8
  | .ctrl => 0x0C#8
  | .glevel => 0x10#8
  | .miRows => 0x14#8
  | .miCols => 0x18#8
  | .miStride => 0x1C#8
  | .miBase => 0x20#8
  | .frameFmt => 0x24#8
  | .planeBase p => BitVec.ofNat 8 (0x30 + 0x10 * p.val)
  | .planeStride p => BitVec.ofNat 8 (0x34 + 0x10 * p.val)
  | .planeSs p => BitVec.ofNat 8 (0x38 + 0x10 * p.val)
  | .reserved => 0xFC#8

/-- The bits that the fields of a configuration register cover; none for a register outside the group (10_state.md R12). -/
def Reg.fieldMask : Reg → Option Word
  | .glevel => some 0xFF#32
  | .miRows | .miCols | .miStride => some 0xFFFF#32
  | .miBase | .planeBase _ | .planeStride _ => some 0xFFFFFFFF#32
  | .frameFmt => some 0x10F#32
  | .planeSs _ => some 3#32
  | .cmd | .status | .seqpos | .ctrl | .reserved => none

theorem offset_regAt {off : BitVec 8} (h : regAt off ≠ .reserved) : (regAt off).offset = off := by
  revert off; decide

/-- A listed offset has its register to itself. -/
theorem regAt_inj {off off' : BitVec 8} (h : regAt off ≠ .reserved) (heq : regAt off' = regAt off) : off' = off := by
  calc off' = (regAt off').offset := (offset_regAt (heq ▸ h)).symm
    _ = (regAt off).offset := by rw [heq]
    _ = off := offset_regAt h

theorem regAt_of_unlisted {off : BitVec 8} (h : OffsetUnlisted off) : regAt off = .reserved := by
  unfold OffsetUnlisted at h
  revert off; decide

/-- The masks by offset are those of the registers there. -/
theorem configMask_eq (off : BitVec 8) : configMask off = (regAt off).fieldMask := by
  revert off; decide

theorem offsetAligned_of_configMask {off : BitVec 8} (h : configMask off ≠ none) : offsetAligned off = true := by
  revert off; decide

/-! The fields of a word, as the bits a mask keeps. -/

/-- The low `n` bits of a word, widened again. -/
theorem setWidth_extractLsb'_zero (d : Word) {n : Nat} (hn : n ≤ 32) :
    (d.extractLsb' 0 n).setWidth 32 = d &&& BitVec.ofNat 32 (2 ^ n - 1) := by
  apply BitVec.eq_of_toNat_eq
  have hmask : 2 ^ n - 1 < 2 ^ 32 := (Nat.sub_lt (Nat.two_pow_pos n) Nat.one_pos).trans_le (Nat.pow_le_pow_right Nat.two_pos hn)
  rw [BitVec.toNat_setWidth_of_le hn, BitVec.toNat_and, BitVec.toNat_ofNat, Nat.mod_eq_of_lt hmask, Nat.and_two_pow_sub_one_eq_mod,
    BitVec.extractLsb'_toNat, Nat.shiftRight_zero]

/-- The fields of `FRAMEFMT`, [8] and [3:0]: the word and the mask are cut at the same places. -/
theorem frameFmt_fields (d : Word) : (0#23 ++ d.extractLsb' 8 1 ++ 0#4 ++ d.extractLsb' 0 4 : Word) = d &&& 0x10F#32 := by
  have hd : (d.extractLsb' 9 23 ++ d.extractLsb' 8 1 ++ d.extractLsb' 4 4 ++ d.extractLsb' 0 4 : BitVec (23 + 1 + 4 + 4)) = d := by
    rw [BitVec.extractLsb'_append_extractLsb'_eq_extractLsb' (rfl : 9 = 8 + 1),
      BitVec.extractLsb'_append_extractLsb'_eq_extractLsb' (rfl : 8 = 4 + 4),
      BitVec.extractLsb'_append_extractLsb'_eq_extractLsb' (rfl : 4 = 0 + 4)]
    exact BitVec.extractLsb'_eq_self
  calc (0#23 ++ d.extractLsb' 8 1 ++ 0#4 ++ d.extractLsb' 0 4 : BitVec (23 + 1 + 4 + 4))
      = (d.extractLsb' 9 23 ++ d.extractLsb' 8 1 ++ d.extractLsb' 4 4 ++ d.extractLsb' 0 4) &&&
          (0#23 ++ BitVec.allOnes 1 ++ 0#4 ++ BitVec.allOnes 4) := by
        simp only [BitVec.and_append, BitVec.and_zero, BitVec.and_allOnes]
    _ = d &&& 0x10F#32 := congrArg (· &&& 0x10F#32) hd

/-- The fields of a plane's subsampling register, [1] and [0], in the same way. -/
theorem planeSs_fields (d : Word) : (0#30 ++ d.extractLsb' 1 1 ++ d.extractLsb' 0 1 : Word) = d &&& 3#32 := by
  have hd : (d.extractLsb' 2 30 ++ d.extractLsb' 1 1 ++ d.extractLsb' 0 1 : BitVec (30 + 1 + 1)) = d := by
    rw [BitVec.extractLsb'_append_extractLsb'_eq_extractLsb' (rfl : 2 = 1 + 1),
      BitVec.extractLsb'_append_extractLsb'_eq_extractLsb' (rfl : 1 = 0 + 1)]
    exact BitVec.extractLsb'_eq_self
  calc (0#30 ++ d.extractLsb' 1 1 ++ d.extractLsb' 0 1 : BitVec (30 + 1 + 1))
      = (d.extractLsb' 2 30 ++ d.extractLsb' 1 1 ++ d.extractLsb' 0 1) &&& (0#30 ++ BitVec.allOnes 1 ++ BitVec.allOnes 1) := by
        simp only [BitVec.and_append, BitVec.and_zero, BitVec.and_allOnes]
    _ = d &&& 3#32 := congrArg (· &&& 3#32) hd

/-- Two bit vectors side by side, as a number. -/
theorem toNat_append_add {m n : Nat} (x : BitVec m) (y : BitVec n) : (x ++ y).toNat = x.toNat * 2 ^ n + y.toNat := by
  rw [BitVec.toNat_append, ← Nat.shiftLeft_add_eq_or_of_lt y.isLt, Nat.shiftLeft_eq]

end Sys2Proof

namespace Sys2Proof.Machine

/-! What a configuration write does to each field (40_host_commands.md R81). -/

section
variable (c : Cfg) (r : Reg) (d : Word)

@[simp] theorem Cfg.writeReg_gl : (c.writeReg r d).gl = if r = .glevel then d.extractLsb' 0 8 else c.gl := by
  cases r <;> rfl

@[simp] theorem Cfg.writeReg_miRows : (c.writeReg r d).miRows = if r = .miRows then d.extractLsb' 0 16 else c.miRows := by
  cases r <;> rfl

@[simp] theorem Cfg.writeReg_miCols : (c.writeReg r d).miCols = if r = .miCols then d.extractLsb' 0 16 else c.miCols := by
  cases r <;> rfl

@[simp] theorem Cfg.writeReg_miStride : (c.writeReg r d).miStride = if r = .miStride then d.extractLsb' 0 16 else c.miStride := by
  cases r <;> rfl

@[simp] theorem Cfg.writeReg_miBase : (c.writeReg r d).miBase = if r = .miBase then d else c.miBase := by
  cases r <;> rfl

@[simp] theorem Cfg.writeReg_bitDepth : (c.writeReg r d).bitDepth = if r = .frameFmt then d.extractLsb' 0 4 else c.bitDepth := by
  cases r <;> rfl

@[simp] theorem Cfg.writeReg_hbd : (c.writeReg r d).hbd = if r = .frameFmt then d.extractLsb' 8 1 else c.hbd := by
  cases r <;> rfl

/-- The fields of plane `q`: only the three registers of that plane reach them. -/
@[simp] theorem Cfg.writeReg_plane (q : Plane) :
    (c.writeReg r d).planes.get q =
      { base := if r = .planeBase q then d else (c.planes.get q).base
        stride := if r = .planeStride q then d else (c.planes.get q).stride
        ssX := if r = .planeSs q then d.extractLsb' 0 1 else (c.planes.get q).ssX
        ssY := if r = .planeSs q then d.extractLsb' 1 1 else (c.planes.get q).ssY } := by
  cases r with
  | planeBase p | planeStride p | planeSs p =>
    obtain rfl | hq := eq_or_ne q p
    · simp [Cfg.writeReg]
    · simp [Cfg.writeReg, PerPlane.get_set_other _ _ hq, hq.symm]
  | _ => rfl

end

/-! A read after a configuration write. -/

section
variable {s : State} {r : Reg}

/-- The register written shows the bits its fields cover. -/
theorem readReg_writeReg_same {mask : Word} (h : r.fieldMask = some mask) (d : Word) :
    readReg { s with cfg := s.cfg.writeReg r d } r = d &&& mask := by
  cases r with
  | cmd | status | seqpos | ctrl | reserved => cases h
  | glevel | miRows | miCols | miStride =>
    cases h
    simp [readReg, setWidth_extractLsb'_zero]
  | miBase | planeBase | planeStride =>
    cases h
    simpa [readReg] using (BitVec.and_allOnes (x := d)).symm
  | frameFmt =>
    cases h
    simp [readReg, frameFmt_fields]
  | planeSs p =>
    cases h
    simp [readReg, planeSs_fields]

/-- Every other register shows what it showed: none of its fields is written, or it shows no configuration. -/
theorem readReg_writeReg_other {r' : Reg} (h : r' ≠ r) (d : Word) : readReg { s with cfg := s.cfg.writeReg r d } r' = readReg s r' := by
  cases r' with
  | cmd | status | seqpos | ctrl | reserved => rfl
  | _ => simp [readReg, h.symm]

end

/-! The two transactions. -/

section
variable {s : State} {off : BitVec 8}

theorem exec_rd_aligned (h : offsetAligned off = true) : exec (.rd off) s = .next { s with rdata := readReg s (regAt off) } :=
  if_pos h

theorem exec_wr_aligned (h : offsetAligned off = true) (d : Word) : exec (.wr off d) s = .next (writePort (regAt off) d s) :=
  if_pos h

/-- A write to a register of the configuration group is a configuration write. -/
theorem writePort_config {r : Reg} (h : r.fieldMask ≠ none) (d : Word) (s : State) : writePort r d s = writeConfig r d s := by
  cases r with
  | cmd | status | seqpos | ctrl | reserved => exact absurd rfl h
  | _ => rfl

theorem exec_wr_config_busy (h : configMask off ≠ none) (hbusy : s.callState = .busy) (d : Word) : exec (.wr off d) s = .next s := by
  rw [exec_wr_aligned (offsetAligned_of_configMask h), writePort_config (configMask_eq off ▸ h), writeConfig, if_pos hbusy]

theorem exec_wr_config (h : configMask off ≠ none) (hbusy : s.callState ≠ .busy) (d : Word) :
    exec (.wr off d) s = .next { s with cfg := s.cfg.writeReg (regAt off) d } := by
  rw [exec_wr_aligned (offsetAligned_of_configMask h), writePort_config (configMask_eq off ▸ h), writeConfig, if_neg hbusy]

theorem exec_wr_unlisted (ha : offsetAligned off = true) (h : OffsetUnlisted off) (d : Word) : exec (.wr off d) s = .next s := by
  rw [exec_wr_aligned ha, regAt_of_unlisted h, writePort]

theorem exec_wr_ctrl (d : Word) : exec (.wr 0x0C#8 d) s = .next { s with irqEn := d.getLsbD 0 } := rfl

end

/-! The fields a register shows, as numbers (10_state.md R12). -/

theorem statusWord_toNat (s : State) :
    (statusWord s).toNat =
      s.callState.code.toNat + s.illcmd.toNat * 4 + s.err.code.toNat * 2 ^ 4 + (statusOp s).toNat * 2 ^ 8 + s.work.nplanes.toNat * 2 ^ 12 := by
  simp only [statusWord, toNat_append_add, BitVec.toNat_ofBool, BitVec.toNat_ofNat]
  omega

theorem seqposWord_toNat (s : State) : (seqposWord s).toNat = s.pc.sbc.toNat + s.pc.sbr.toNat * 2 ^ 16 + s.pc.pli.val * 2 ^ 30 := by
  simp only [seqposWord, toNat_append_add, BitVec.toNat_ofNat]
  omega

theorem readReg_ctrl_toNat (s : State) : (readReg s .ctrl).toNat = if s.irqEn = true then 1 else 0 := by
  rw [readReg]
  cases s.irqEn <;> rfl

theorem readReg_frameFmt_toNat (s : State) : (readReg s .frameFmt).toNat = s.cfg.bitDepth.toNat + s.cfg.hbd.toNat * 2 ^ 8 := by
  simp only [readReg, toNat_append_add, BitVec.toNat_ofNat]
  omega

theorem readReg_planeSs_toNat (s : State) (p : Plane) :
    (readReg s (.planeSs p)).toNat = (s.cfg.planes.get p).ssX.toNat + (s.cfg.planes.get p).ssY.toNat * 2 := by
  simp only [readReg, toNat_append_add, BitVec.toNat_ofNat]
  omega

/-! The statements. -/

/-- Settles O7: an aligned read shows `readReg`; fields side by side add up, each at its place (`toNat_append_add`), and `STATUS` is compared field by field. -/
theorem registerReadReturnsFields : Obligations.RegisterReadReturnsFields := by
  intro s off ha
  refine ⟨_, exec_rd_aligned ha, rfl, ?cmd, ?status, ?seqpos, ?ctrl, ?glevel, ?miRows, ?miCols, ?miStride, ?miBase, ?frameFmt, ?base0, ?stride0,
    ?ss0, ?base1, ?stride1, ?ss1, ?base2, ?stride2, ?ss2, ?unlisted⟩
  case cmd | miBase | base0 | stride0 | base1 | stride1 | base2 | stride2 =>
    rintro rfl
    rfl
  case glevel | miRows | miCols | miStride =>
    rintro rfl
    exact BitVec.toNat_setWidth_of_le (by decide)
  case ctrl =>
    rintro rfl
    exact readReg_ctrl_toNat s
  case frameFmt =>
    rintro rfl
    exact readReg_frameFmt_toNat s
  case ss0 | ss1 | ss2 =>
    rintro rfl
    exact readReg_planeSs_toNat s _
  case seqpos =>
    rintro rfl
    exact seqposWord_toNat s
  case status =>
    rintro rfl
    refine (statusWord_toNat s).trans (congrArg (· + s.work.nplanes.toNat * 2 ^ 12) ?_)
    refine congrArg₂ (· + ·) (congrArg₂ (· + ·) (congrArg₂ (· + ·) ?state ?illcmd) (congrArg (· * 2 ^ 4) ?err)) (congrArg (· * 2 ^ 8) ?op)
    case state => cases s.callState <;> rfl
    case illcmd => cases s.illcmd <;> rfl
    case err => cases s.err <;> rfl
    case op => rw [statusOp]; cases s.callState <;> rfl
  case unlisted => exact fun h => congrArg (readReg s) (regAt_of_unlisted h)

/-- Settles O9: the write is `Cfg.writeReg` of the register at the offset; a read of it is `readReg_writeReg_same`, and a read of another offset is of another
register (`regAt_inj`), which `readReg_writeReg_other` keeps. -/
theorem configWriteStoresFields : Obligations.ConfigWriteStoresFields := by
  intro s off d mask hmask hbusy
  have hcfg : configMask off ≠ none := by simp [hmask]
  have hfield : (regAt off).fieldMask = some mask := (configMask_eq off).symm.trans hmask
  have hlisted : regAt off ≠ .reserved := fun h => by simp [h, Reg.fieldMask] at hfield
  refine ⟨_, exec_wr_config hcfg hbusy d, rfl, ?_, fun off' ha' hne => ⟨_, exec_rd_aligned ha', ?_⟩⟩
  · rw [exec_rd_aligned (offsetAligned_of_configMask hcfg), readReg_writeReg_same hfield]
  · rw [exec_rd_aligned ha', readReg_writeReg_other fun heq => hne (regAt_inj hlisted heq)]

/-- Settles O10: one rule for each way a write is dropped; bit 0 of the data is its parity. -/
theorem writesDroppedOrCtrl : Obligations.WritesDroppedOrCtrl := by
  intro s off d ha
  constructor
  · rintro (⟨hcfg, hbusy⟩ | rfl | rfl | hun)
    · exact exec_wr_config_busy hcfg hbusy d
    · rfl
    · rfl
    · exact exec_wr_unlisted ha hun d
  · rintro rfl
    rw [exec_wr_ctrl, ← BitVec.testBit_toNat, Nat.testBit_zero]

/-- Settles O12: `CMD.NOP` answers the state it is given. -/
theorem nopChangesNothing : Obligations.NopChangesNothing := fun s => ⟨s, rfl, rfl, fun _ => rfl⟩

/-- Settles O13: by the cases of `startCall`. -/
theorem startBeginsCall : Obligations.StartBeginsCall := by
  intro s
  refine ⟨startCall s, rfl, ?_⟩
  obtain ⟨hidle, h⟩ | ⟨hidle, h⟩ := startCall_cases s
  · rw [h]
    exact ⟨fun _ => ⟨rfl, rfl, rfl, rfl, rfl, rfl⟩, fun hne => absurd hidle hne⟩
  · exact ⟨fun heq => absurd heq hidle, fun _ => h⟩

/-- Settles O14: by the cases of `acknowledge`. -/
theorem ackReturnsToIdle : Obligations.AckReturnsToIdle := by
  intro s
  refine ⟨acknowledge s, rfl, ?_⟩
  obtain ⟨hbusy, h⟩ | ⟨hbusy, h⟩ := acknowledge_cases s
  · exact ⟨fun heq => absurd heq hbusy, fun _ => h⟩
  · exact ⟨fun _ => h, fun hne => absurd hbusy hne⟩

end Sys2Proof.Machine
end

section
/-! SUPPORT. The LevelMapper (41_level_mapper.md R101, R103) and `LEVEL` (R102): the mapped level in closed form, and the two statements about them. -/

namespace Sys2Proof.Machine

/-! The gain table and the entry's gain index. -/

theorem gain_eq (g : BitVec 2) :
    gain g = if g.toNat = 0 then 0 else if g.toNat = 1 then 11 else if g.toNat = 2 then 16 else 22 := by
  revert g
  decide

theorem gain_mono {g h : BitVec 2} (hgh : g.toNat ≤ h.toNat) : gain g ≤ gain h := by
  rw [gain_eq, gain_eq]
  split_ifs <;> omega

theorem entryGain_toNat (e : Byte) : (entryGain e).toNat = e.toNat / 2 % 4 := by
  rw [entryGain, BitVec.extractLsb'_toNat, Nat.shiftRight_eq_div_pow]

/-! The mapped level. -/

theorem clamp_eq_max_min (x : Nat) {lo hi : Nat} (h : lo ≤ hi) : clamp x lo hi = max lo (min x hi) := by
  unfold clamp
  split_ifs <;> omega

theorem levelMapper_of_zero (maxLvl : Nat) (g : BitVec 2) : levelMapper maxLvl 0 g = 0 := if_pos rfl

/-- From `MAX_LEVEL` 4 on the clamp's bounds do not cross: a gain index is at most 3 (00_scope.md R5). -/
theorem levelMapper_of_pos {maxLvl gl : Nat} (hmax : 4 ≤ maxLvl) (hgl : 0 < gl) (g : BitVec 2) :
    levelMapper maxLvl gl g = max g.toNat (min ((gl * gain g + 8) / 16) (maxLvl - 1)) := by
  have hg : g.toNat ≤ maxLvl - 1 := by have := g.isLt; omega
  rw [levelMapper, if_neg hgl.ne', clamp_eq_max_min _ hg, Nat.shiftRight_eq_div_pow]

theorem le_levelMapper {maxLvl gl : Nat} (hmax : 4 ≤ maxLvl) (hgl : 0 < gl) (g : BitVec 2) : g.toNat ≤ levelMapper maxLvl gl g :=
  levelMapper_of_pos hmax hgl g ▸ le_max_left _ _

theorem levelMapper_mono {maxLvl gl : Nat} (hmax : 4 ≤ maxLvl) (hgl : 0 < gl) {g h : BitVec 2} (hgh : g.toNat ≤ h.toNat) :
    levelMapper maxLvl gl g ≤ levelMapper maxLvl gl h := by
  rw [levelMapper_of_pos hmax hgl, levelMapper_of_pos hmax hgl]
  have hscaled : (gl * gain g + 8) / 16 ≤ (gl * gain h + 8) / 16 :=
    Nat.div_le_div_right (Nat.add_le_add_right (Nat.mul_le_mul_left gl (gain_mono hgh)) 8)
  exact max_le_max hgh (min_le_min_right _ hscaled)

theorem levelMapper_gainZero {maxLvl : Nat} (hmax : 4 ≤ maxLvl) (gl : Nat) : levelMapper maxLvl gl 0#2 = 0 := by
  obtain rfl | hgl := gl.eq_zero_or_pos
  · exact levelMapper_of_zero ..
  · rw [levelMapper_of_pos hmax hgl]
    simp [gain_eq]

theorem levelMapper_eq_zero_iff {maxLvl gl : Nat} (hmax : 4 ≤ maxLvl) (g : BitVec 2) :
    levelMapper maxLvl gl g = 0 ↔ gl = 0 ∨ g = 0#2 := by
  constructor
  · intro h0
    refine gl.eq_zero_or_pos.imp_right fun hgl => ?_
    have hle : g.toNat ≤ 0 := h0 ▸ le_levelMapper hmax hgl g
    exact BitVec.eq_of_toNat_eq (Nat.le_zero.mp hle)
  · rintro (rfl | rfl)
    · exact levelMapper_of_zero ..
    · exact levelMapper_gainZero hmax gl

/-- `LEVEL`'s register holds every level: `MAX_LEVEL` is at most 256 (00_scope.md R5). -/
theorem ofNat_levelMapper_toNat (p : Params) (gl : Nat) (g : BitVec 2) :
    (BitVec.ofNat 8 (levelMapper (maxLevel p) gl g)).toNat = levelMapper (maxLevel p) gl g := by
  obtain ⟨hmin, hmax⟩ := maxLevel_bounds p
  rw [BitVec.toNat_ofNat, Nat.mod_eq_of_lt ((levelMapper_lt hmin g).trans_le hmax)]

/-- Settles O21: by the closed form `levelMapper_of_pos`, whose bounds are the gain index and `MAX_LEVEL - 1` and whose parts grow with the gain index. -/
theorem levelMapperProperties : Obligations.LevelMapperProperties := by
  intro maxLvl gl hmax _ _
  exact ⟨levelMapper_of_zero maxLvl, fun hgl g => ⟨le_levelMapper hmax hgl g, Nat.le_sub_one_of_lt (levelMapper_lt hmax g)⟩,
    fun hgl _ _ hgh => levelMapper_mono hmax hgl hgh, levelMapper_gainZero hmax gl, levelMapper_eq_zero_iff hmax⟩

/-- Settles O22: `exec_level_acceptable` gives the next state; the register holds the mapped level, which is 0 iff the register is. -/
theorem levelMapsTopLeftGain : Obligations.LevelMapsTopLeftGain := by
  intro s a ha hacc
  subst ha
  obtain ⟨lvl, hlvl⟩ : ∃ lvl, lvl = levelMapper (maxLevel s.params) s.cfg.gl.toNat
    (entryGain (s.mem.read (miAddr s.cfg (sbRow s) (sbCol s)))) := ⟨_, rfl⟩
  have hval : (BitVec.ofNat 8 lvl).toNat = lvl := hlvl ▸ ofNat_levelMapper_toNat ..
  refine ⟨_, exec_level_acceptable hacc hlvl, rfl, fun h0 => ?_, fun hne => ?_, hval.trans (hlvl.trans ?_)⟩
  · have hzero : lvl = 0 := hval.symm.trans (congrArg BitVec.toNat h0)
    rw [if_pos hzero]; rfl
  · have hpos : lvl ≠ 0 := fun hzero => hne (congrArg (BitVec.ofNat 8) hzero)
    rw [if_neg hpos]; rfl
  · split
    next hgl => rw [hgl, levelMapper_of_zero]
    next hgl =>
      rw [levelMapper_of_pos (maxLevel_bounds s.params).1 (Nat.pos_of_ne_zero hgl), gain_eq, entryGain_toNat]
      rfl

end Sys2Proof.Machine
end

section
/-! SUPPORT. The SkipDetector (42_skip_detector.md R111) and `SKIPDET` (R112), and that a call keeps every byte of a superblock it skips (R115,
44_superblock_loop.md R163 item 2). -/

namespace Sys2Proof.Machine

/-! The clipped region of a superblock. -/

/-- `P` holds at every unit of the 8 by 8 region at (`row`, `col`), clipped to the frame (42_skip_detector.md R111). -/
def RegionAll (c : Cfg) (row col : Nat) (P : Nat → Nat → Prop) : Prop :=
  ∀ r k, row ≤ r → r < min (row + 8) c.miRows.toNat → col ≤ k → k < min (col + 8) c.miCols.toNat → P r k

/-- The positions that the SkipDetector visits are the units of the clipped region. -/
theorem forall_mem_region_iff {c : Cfg} {row col : Nat} {P : Nat → Nat → Prop} :
    (∀ q ∈ rowMajor (min (c.miRows.toNat - row) maxMibSize) (min (c.miCols.toNat - col) maxMibSize), P (row + q.1) (col + q.2)) ↔
      RegionAll c row col P := by
  simp only [mem_rowMajor, maxMibSize]
  constructor
  · intro h r k hr hr' hk hk'
    have hq := h (r - row, k - col) ⟨by omega, by omega⟩
    rwa [Nat.add_sub_cancel' hr, Nat.add_sub_cancel' hk] at hq
  · rintro h ⟨r, k⟩ ⟨hr, hk⟩
    exact h _ _ (by omega) (by omega) (by omega) (by omega)

/-! What the SkipDetector answers. -/

theorem miSkip_eq_none_iff {p : Params} {c : Cfg} {m : Memory} {r k : Nat} :
    miSkip p c m r k = none ↔ acceptable p (miAddr c r k) = false := by
  cases h : acceptable p (miAddr c r k)
  · simp [miSkip_eq_none h]
  · simp [miSkip_eq_some h]

/-- The SkipDetector answers iff every entry of the region is acceptable. -/
theorem skipDetector_ne_none_iff {p : Params} {c : Cfg} {m : Memory} {row col : Nat} :
    skipDetector p c m row col ≠ none ↔ RegionAll c row col fun r k => acceptable p (miAddr c r k) = true := by
  rw [← forall_mem_region_iff, skipDetector, Ne, skipScan_eq_none]
  simp [miSkip_eq_none_iff]

/-- Its answer is whether every entry of the region is skip-coded. -/
theorem skipDetector_eq_some {p : Params} {c : Cfg} {m : Memory} {row col : Nat} {b : Bool} (h : skipDetector p c m row col = some b) :
    b = true ↔ RegionAll c row col fun r k => entrySkip (m.read (miAddr c r k)) = 1#1 := by
  have hacc := skipDetector_ne_none_iff.mp (h ▸ Option.some_ne_none b)
  rw [← forall_mem_region_iff] at hacc ⊢
  rw [skipDetector, skipScan_eq_some (flag := fun r k => entrySkip (m.read (miAddr c (row + r) (col + k)))) _ fun q hq =>
    miSkip_eq_some (hacc q hq)] at h
  cases h
  simp only [List.all_eq_true, decide_eq_true_eq]

/-- Settles O23: the entries are acceptable, so the SkipDetector answers, and its answer is `skipDetector_eq_some`; the two answers are the two branches of
`SKIPDET`. -/
theorem skipdetTestsClippedRegion : Obligations.SkipdetTestsClippedRegion := by
  intro s hr hc hacc
  obtain ⟨b, hb⟩ := Option.ne_none_iff_exists'.mp (skipDetector_ne_none_iff (m := s.mem) (row := sbRow s) (col := sbCol s) |>.mpr hacc)
  have hanswer := skipDetector_eq_some hb
  simp only [entrySkip_eq_one] at hanswer
  cases b with
  | true => exact ⟨_, exec_skipdet_all ⟨hr, hc⟩ hb, rfl, hanswer, fun _ => ⟨rfl, rfl⟩, nofun⟩
  | false => exact ⟨_, exec_skipdet_some ⟨hr, hc⟩ hb, rfl, hanswer, nofun, fun _ => ⟨rfl, fun i => by simp⟩⟩

/-- Settles O24: the superblock's origin is not in the frame, which `SKIPDET` asks for first. -/
theorem emptySkipRegionRefused : Obligations.EmptySkipRegionRefused := fun _ h =>
  if_neg fun hin => h.elim (Nat.not_le.mpr hin.1) (Nat.not_le.mpr hin.2)

/-! The rectangles of the superblocks (44_superblock_loop.md R142). -/

/-- Of `n` units of `u` samples each, the samples of the `i`th eight units lie in the extent, and their position tells `i`. -/
theorem sample_in_superblock {u n i r : Nat} (hr : r < u * min 8 (n - 8 * i)) : u * 8 * i + r < u * n ∧ (u * 8 * i + r) / (8 * u) = i := by
  have hu : 0 < u := Nat.pos_of_lt_mul_right hr
  have hclip : r < u * 8 := hr.trans_le (Nat.mul_le_mul_left u (min_le_left ..))
  have hlast : r < u * (n - 8 * i) := hr.trans_le (Nat.mul_le_mul_left u (min_le_right ..))
  have hi : 8 * i ≤ n := Nat.le_of_lt (Nat.lt_of_sub_pos (Nat.pos_of_lt_mul_left hlast))
  constructor
  · calc u * 8 * i + r < u * 8 * i + u * (n - 8 * i) := Nat.add_lt_add_left hlast _
      _ = u * n := by rw [Nat.mul_assoc, ← Nat.mul_add, Nat.add_sub_cancel' hi]
  · rw [Nat.mul_comm u 8, Nat.mul_add_div (Nat.mul_pos (by decide) hu), Nat.div_eq_of_lt (Nat.mul_comm u 8 ▸ hclip), Nat.add_zero]

/-- The samples of the current rectangle are those of the current superblock. -/
theorem rect_superblockByte {s : State} (hl : Latched s) (hext : ExtentSet s) {p : Plane} {r k a : Nat} (hr : r < rectH s p) (hk : k < rectW s p)
    (ha : IsSampleByte s.cfg p (rectRow s p + r) (rectCol s p + k) a) : SuperblockByte s.cfg p s.pc.sbr.toNat s.pc.sbc.toNat a := by
  obtain ⟨hw, hv⟩ := hext
  rw [rectH, unitH, hl.bh, hv] at hr
  rw [rectW, unitW, hl.bw, hw] at hk
  rw [rectRow, rectCol, unitH, unitW, hl.bh, hl.bw] at ha
  obtain ⟨hrow, hsbr⟩ := sample_in_superblock hr
  obtain ⟨hcol, hsbc⟩ := sample_in_superblock hk
  exact ⟨_, _, hrow, hcol, hsbr, hsbc, ha⟩

theorem SuperblockByte.planeByte {c : Cfg} {p : Plane} {i j a : Nat} (h : SuperblockByte c p i j a) : PlaneByte c p a := by
  obtain ⟨r, k, hr, hk, -, -, ha⟩ := h
  exact ⟨r, k, hr, hk, ha⟩

/-- Where rows and regions are apart, a byte belongs to at most one superblock. -/
theorem SuperblockByte.unique {c : Cfg} (hrows : RowsApart c) (hregions : RegionsApart c) {p q : Plane} {i j i' j' a : Nat} (hp : PlaneActive c p)
    (hq : PlaneActive c q) (h : SuperblockByte c p i j a) (h' : SuperblockByte c q i' j' a) : i = i' ∧ j = j' := by
  obtain rfl : q = p := by
    by_contra hne
    exact (hregions p a hp h.planeByte).2 q hq hne h'.planeByte
  obtain ⟨r, k, -, hk, rfl, rfl, ha⟩ := h
  obtain ⟨r', k', -, hk', rfl, rfl, ha'⟩ := h'
  have hstride := hrows.2 q hq
  obtain ⟨rfl, rfl⟩ := sampleByte_injective (hk.trans_le hstride) (hk'.trans_le hstride) ha ha'
  exact ⟨rfl, rfl⟩

/-! What a call that began with memory `m` must keep. -/

/-- `a` is a byte of the grid, or of a superblock that is skipped with the grid that `m` holds. -/
def MustKeep (prm : Params) (c : Cfg) (m : Memory) (a : Nat) : Prop :=
  GridByte c a ∨ ∃ i j p, SuperblockSkipped prm c m i j ∧ PlaneActive c p ∧ SuperblockByte c p i j a

/-- A superblock that is not skipped holds no such byte. -/
theorem not_mustKeep {prm : Params} {c : Cfg} {m : Memory} (hrows : RowsApart c) (hregions : RegionsApart c) {p : Plane} {i j a : Nat}
    (hp : PlaneActive c p) (hskip : ¬ SuperblockSkipped prm c m i j) (ha : SuperblockByte c p i j a) : ¬ MustKeep prm c m a := by
  rintro (hgrid | ⟨i', j', q, hskip', hq, ha'⟩)
  · exact (hregions p a hp ha.planeByte).1 hgrid
  · obtain ⟨rfl, rfl⟩ := ha.unique hrows hregions hp hq ha'
    exact hskip hskip'

/-- Such bytes are as in `m`, and the sequencer is past `LEVEL` only where the level is not 0, past `SKIPDET` only where the superblock is not skipped. -/
structure SkippedKept (m : Memory) (s : State) : Prop where
  kept      : ∀ a, MustKeep s.params s.cfg m a → s.mem.read a = m.read a
  level     : AtOps s 7 7 →
    levelMapper (maxLevel s.params) s.cfg.gl.toNat (entryGain (m.read (miAddr s.cfg (8 * s.pc.sbr.toNat) (8 * s.pc.sbc.toNat)))) ≠ 0
  filtering : AtOps s 8 11 → ¬ SuperblockSkipped s.params s.cfg m s.pc.sbr.toNat s.pc.sbc.toNat

/-- Outside `SKIPDET` to `NEXTPL` nothing is said of the current superblock. -/
theorem skippedKept_of_outside {m : Memory} {s : State} (op : BitVec 4) (hkept : ∀ a, MustKeep s.params s.cfg m a → s.mem.read a = m.read a)
    (hop : s.pc.op = op) (hout : op.toNat < 7 ∨ 11 < op.toNat := by decide) : SkippedKept m s where
  kept := hkept
  level hat := absurd (hat.mono : AtOps s 7 11) (not_atOps hop hout)
  filtering hat := absurd (hat.mono : AtOps s 7 11) (not_atOps hop hout)

/-- In the plane loop the current superblock is not skipped. -/
theorem skippedKept_of_planeLoop {m : Memory} {s : State} (op : BitVec 4) (hkept : ∀ a, MustKeep s.params s.cfg m a → s.mem.read a = m.read a)
    (hskip : ¬ SuperblockSkipped s.params s.cfg m s.pc.sbr.toNat s.pc.sbc.toNat) (hop : s.pc.op = op)
    (hloop : 7 < op.toNat := by decide) : SkippedKept m s where
  kept := hkept
  level hat := absurd hat (not_atOps hop (.inr hloop))
  filtering _ := hskip

/-- The grid is as in `m`. -/
theorem SkippedKept.grid_eq {m : Memory} {s : State} (hk : SkippedKept m s) {r k : Nat} (hr : r < s.cfg.miRows.toNat)
    (hc : k < s.cfg.miCols.toNat) : s.mem.read (miAddr s.cfg r k) = m.read (miAddr s.cfg r k) :=
  hk.kept _ (.inl ⟨r, k, hr, hc, rfl⟩)

section keeps
variable {m : Memory} {s t : State} (h : CallInv s) (hk : SkippedKept m s)
include h hk

theorem level_skippedKept (hat : AtOps s 6 6) (he : exec .level s = .next t) : SkippedKept m t := by
  obtain ⟨hr, hc⟩ := (h.loop hat.mono).origin_lt
  obtain ⟨-, hn⟩ | ⟨-, lvl, hlvl, hn⟩ := execLevel_cases s
  · cases hn.symm.trans he
    exact skippedKept_of_outside opTeardown hk.kept rfl
  · cases hn.symm.trans he
    rw [hk.grid_eq hr hc] at hlvl
    by_cases h0 : lvl = 0
    · rw [if_pos h0]
      exact skippedKept_of_outside opNextsb hk.kept rfl
    · rw [if_neg h0]
      exact ⟨hk.kept, fun _ hzero => h0 (hlvl.trans hzero), fun hat' => absurd hat' (not_atOps (op := opSkipdet) rfl (.inl (by decide)))⟩

omit h in
theorem skipdet_skippedKept (hat : AtOps s 7 7) (he : exec .skipdet s = .next t) : SkippedKept m t := by
  obtain ⟨-, -, ⟨-, rfl⟩ | ⟨-, rfl⟩ | ⟨hd, rfl⟩⟩ := execSkipdet_next he
  · exact skippedKept_of_outside opTeardown hk.kept rfl
  · exact skippedKept_of_outside opNextsb hk.kept rfl
  · have hskip : ¬ SuperblockSkipped s.params s.cfg m s.pc.sbr.toNat s.pc.sbc.toNat := by
      refine not_or.mpr ⟨hk.level hat, fun hall => Bool.false_ne_true ((skipDetector_eq_some hd).mpr fun r k hr hr' hc hc' => ?_)⟩
      have hentry := hk.grid_eq (hr'.trans_le (min_le_right ..)) (hc'.trans_le (min_le_right ..))
      exact (congrArg entrySkip hentry).trans (hall r k hr hr' hc hc')
    exact skippedKept_of_planeLoop opThresh hk.kept hskip rfl

/-- A `WRITEBACK` of a superblock that is not skipped writes no byte that must be kept. -/
theorem writeBack_read_mustKeep (hrows : RowsApart s.cfg) (hregions : RegionsApart s.cfg) (hat : AtOps s 10 10) (a : Nat)
    (ha : MustKeep s.params s.cfg m a) : (writeBack s (rectPositions s)).1.read a = m.read a := by
  have hl := h.loop hat.mono
  have hplane : PlaneActive s.cfg s.pc.pli := hl.plane.trans_eq (congrArg BitVec.toNat hl.latched.nplanes)
  rw [writeBack_read_other s _ fun q hq hbyte => ?_, hk.kept a ha]
  obtain ⟨hr, hc⟩ := mem_rowMajor.mp hq
  exact not_mustKeep hrows hregions hplane (hk.filtering hat.mono) (rect_superblockByte hl.latched (h.extent hat.mono) hr hc hbyte) ha

theorem writeback_skippedKept (hrows : RowsApart s.cfg) (hregions : RegionsApart s.cfg) (hat : AtOps s 10 10)
    (he : exec .writeback s = .next t) : SkippedKept m t := by
  have hkept := writeBack_read_mustKeep h hk hrows hregions hat
  obtain ⟨-, ⟨-, rfl⟩ | ⟨-, rfl⟩⟩ := execWriteback_next he
  · exact skippedKept_of_planeLoop opNextpl hkept (hk.filtering hat.mono) rfl
  · exact skippedKept_of_outside opTeardown hkept rfl

/-- Every operation keeps what must be kept. Only `WRITEBACK` writes memory, and only `LEVEL` and `SKIPDET` lead on to the current superblock's planes. -/
theorem exec_operation_skippedKept {i : Instr} (hrows : RowsApart s.cfg) (hregions : RegionsApart s.cfg) (hbusy : s.callState = .busy)
    (hi : decodeSeq s.pc.op = .ok i) (he : exec i s = .next t) : SkippedKept m t := by
  have henc := decodeSeq_ok hi
  have hat : ∀ op : BitVec 4, encode i = .seq op → AtOps s op.toNat op.toNat := fun op ho =>
    atOps_of hbusy (CodeWord.seq.inj (henc.symm.trans ho)) (Nat.le_refl _) (Nat.le_refl _)
  cases i with
  | rd | wr | cmdNop | cmdStart | cmdAck => cases henc
  | planeact => cases he; exact skippedKept_of_outside opAlloc hk.kept rfl
  | alloc =>
    obtain ⟨-, hn⟩ | ⟨-, hn⟩ := execAlloc_cases s
    · cases hn.symm.trans he; exact skippedKept_of_outside opTeardown hk.kept rfl
    · cases hn.symm.trans he; exact skippedKept_of_outside opStage hk.kept rfl
  | stage =>
    obtain ⟨-, ⟨-, rfl⟩ | ⟨-, rfl⟩⟩ := execStage_next he
    · obtain ⟨q, -, -, ha⟩ | ⟨-, ha⟩ := afterStage_cases { s with wbuf := s.wbuf.set s.pc.pli (stagePlane s s.pc.pli).1 }
      · rw [ha]; exact skippedKept_of_outside opStage hk.kept rfl
      · rw [ha]; exact skippedKept_of_outside opFlatten hk.kept rfl
    · exact skippedKept_of_outside opTeardown hk.kept rfl
  | flatten =>
    obtain ⟨-, ⟨-, rfl⟩ | ⟨-, rfl⟩⟩ := execFlatten_next he
    · obtain ⟨-, ha⟩ | ⟨-, ha⟩ := afterFlatten_cases { s with bskip := (flattenGrid s).1 }
      · rw [ha]; exact skippedKept_of_outside opTeardown hk.kept rfl
      · rw [ha]; exact skippedKept_of_outside opSbsetup hk.kept rfl
    · exact skippedKept_of_outside opTeardown hk.kept rfl
  | sbsetup =>
    obtain ⟨-, -, rfl⟩ := execSbsetup_next he
    exact skippedKept_of_outside opLevel hk.kept rfl
  | level => exact level_skippedKept h hk (hat opLevel rfl) he
  | skipdet => exact skipdet_skippedKept hk (hat opSkipdet rfl) he
  | thresh =>
    have hskip := hk.filtering (hat opThresh rfl).mono
    cases he
    dsimp only
    split
    · exact skippedKept_of_planeLoop opNextpl hk.kept hskip rfl
    · exact skippedKept_of_planeLoop opKernel hk.kept hskip rfl
  | kernel =>
    obtain ⟨-, -, -, -, rfl⟩ := kernelWith_next he
    exact skippedKept_of_planeLoop opWriteback hk.kept (hk.filtering (hat opKernel rfl).mono) rfl
  | writeback => exact writeback_skippedKept h hk hrows hregions (hat opWriteback rfl) he
  | nextpl =>
    obtain ⟨q, -, -, hn⟩ | ⟨-, hn⟩ := execNextpl_cases s
    · cases hn.symm.trans he
      exact skippedKept_of_planeLoop opThresh hk.kept (hk.filtering (hat opNextpl rfl).mono) rfl
    · cases hn.symm.trans he
      exact skippedKept_of_outside opNextsb hk.kept rfl
  | nextsb =>
    obtain ⟨-, -, rfl⟩ | ⟨-, -, -, rfl⟩ | ⟨-, -, rfl⟩ := execNextsb_next he
    · exact skippedKept_of_outside opSbsetup hk.kept rfl
    · exact skippedKept_of_outside opSbsetup hk.kept rfl
    · exact skippedKept_of_outside opTeardown hk.kept rfl
  | teardown => cases he; exact skippedKept_of_outside opIdle hk.kept rfl

end keeps

/-! A machine that the host leaves alone. -/

theorem HostSideKept.refl (s : State) : HostSideKept s s := ⟨rfl, rfl, rfl, rfl, rfl, rfl⟩

/-- With no event pending, what every operation keeps holds after any number of steps from a state of the invariant, none of which stops. -/
theorem run_keeps {P : State → Prop} (n : Nat) {s : State} (h : CallInv s) (hin : s.inbox = []) (hP : P s)
    (hkeep : ∀ {t u : State} {i : Instr}, HostSideKept s t → CallInv t → t.callState = .busy → decodeSeq t.pc.op = .ok i →
      exec i t = .next u → P t → P u) : ∃ t, core.run n s = .next t ∧ HostSideKept s t ∧ P t := by
  induction n generalizing s with
  | zero => exact ⟨s, rfl, .refl s, hP⟩
  | succ n ih =>
    by_cases hbusy : s.callState = .busy
    · obtain ⟨-, hlo, hhi⟩ := (h.running hbusy).1
      obtain ⟨i, hi⟩ := decodeSeq_of_range hlo hhi
      obtain ⟨t, ht⟩ := exec_operation_total h hbusy hi
      have hside := exec_operation_hostSideKept hi ht
      obtain ⟨u, hu, hside', hPu⟩ := ih (exec_operation_callInv h hbusy hi ht) (hside.inbox.trans hin)
        (hkeep (.refl s) h hbusy hi ht hP) fun hs => hkeep (hside.trans hs)
      exact ⟨u, (run_succ n ((step_of_operation hin hbusy hi).trans ht)).trans hu, hside.trans hside', hPu⟩
    · rw [run_succ n (((sequencerStepsOnlyWhileBusy s).2 hbusy h.op_le).1 hin)]
      exact ih h hin hP hkeep

/-- Settles O57: `SkippedKept` holds where a call begins, and every operation keeps it; the configuration and the parameters stay what they were. -/
theorem skippedSuperblockUntouched : Obligations.SkippedSuperblockUntouched := by
  intro s h hbusy hop hin hrows hregions n
  have hstart : SkippedKept s.mem s := skippedKept_of_outside opPlaneact (fun _ _ => rfl) hop
  obtain ⟨t, hrun, hside, hkept⟩ := run_keeps n h hin hstart fun hside ht hbusy hi he hkept =>
    exec_operation_skippedKept ht hkept (hside.cfg ▸ hrows) (hside.cfg ▸ hregions) hbusy hi he
  refine ⟨t, hrun, fun i j p a hskip hp ha => hkept.kept a ?_⟩
  rw [hside.params, hside.cfg]
  exact .inr ⟨i, j, p, hskip, hp, ha⟩

end Sys2Proof.Machine
end

section
/-! SUPPORT. Frame set-up (43_frame_setup.md): what `PLANEACT`, `ALLOC`, `STAGE` and `FLATTEN` latch, acquire and copy, and that no step stores to memory but a
`WRITEBACK`, the host's own write and a reset inside a `WRITEBACK` (R120, 60_exceptions.md R196). -/

namespace Sys2Proof.Machine

/-! What `PLANEACT` derives and `ALLOC` compares. -/

theorem activePlanes_toNat (c : Cfg) :
    (activePlanes c).toNat =
      if (c.planes.get 1).ssX = (c.planes.get 1).ssY ∧ (c.planes.get 2).ssX = (c.planes.get 2).ssY ∧
          (c.planes.get 1).ssX = (c.planes.get 2).ssX ∧ (c.planes.get 1).ssY = (c.planes.get 2).ssY
        then 3 else 1 :=
  apply_ite BitVec.toNat ..

theorem overCapacity_iff {p : Params} {c : Cfg} :
    overCapacity p c = true ↔ p.skipCap < c.miRows.toNat * c.miCols.toNat ∨ p.wbufCap < c.miRows.toNat * c.miCols.toNat * 64 := by
  rw [overCapacity, Bool.or_eq_true, decide_eq_true_iff, decide_eq_true_iff, needSkip, needWbuf]

/-! A `gather` over a rectangle whose rows do not overlap. -/

theorem gather_rowMajor_get {w h width stride : Nat} {read : Nat → Nat → Option (BitVec w)} {m : Scratch w} (hstride : width ≤ stride)
    (hok : (gather read (fun r c => r * stride + c) (rowMajor h width) m).2 = true) {r c : Nat} (hr : r < h) (hc : c < width) :
    (gather read (fun r c => r * stride + c) (rowMajor h width) m).1.get (r * stride + c) = read r c := by
  refine gather_get _ m hok (rowMajor_nodup h width) (fun q hq q' hq' heq => ?_) (q := (r, c)) (mem_rowMajor.mpr ⟨hr, hc⟩)
  obtain ⟨hrow, hcol⟩ := index_injective hstride (mem_rowMajor.mp hq).2 (mem_rowMajor.mp hq').2 heq
  exact Prod.ext hrow hcol

/-! `STAGE`. -/

section stage
variable {s : State} {p : Plane}

theorem stagePlane_ok (hacc : ∀ r c, r < planeH s p → c < planeW s p → SampleAcceptable s.params s.cfg p r c) : (stagePlane s p).2 = true :=
  (gather_ok_iff _ _).mpr fun _ hq => ⟨_, readSample_eq_some (hacc _ _ (mem_rowMajor.mp hq).1 (mem_rowMajor.mp hq).2)⟩

theorem stagePlane_get (hacc : ∀ r c, r < planeH s p → c < planeW s p → SampleAcceptable s.params s.cfg p r c)
    (hstride : planeW s p ≤ s.work.wstride.toNat) {r c : Nat} (hr : r < planeH s p) (hc : c < planeW s p) :
    (stagePlane s p).1.get (wbufIndex s r c) = some (sampleIn s.cfg s.mem p r c) :=
  (gather_rowMajor_get hstride (stagePlane_ok hacc) hr hc).trans (readSample_eq_some (hacc r c hr hc))

theorem stagePlane_get_other {i : Nat} (h : ∀ r c, r < planeH s p → c < planeW s p → i ≠ wbufIndex s r c) :
    (stagePlane s p).1.get i = (s.wbuf.get p).get i :=
  gather_get_other _ _ fun _ hq => (h _ _ (mem_rowMajor.mp hq).1 (mem_rowMajor.mp hq).2).symm

theorem exec_stage_read (hfits : fitsScratch (planeH s s.pc.pli) (planeW s s.pc.pli) s.work.wstride.toNat s.params.wbufCap = true)
    (hok : (stagePlane s s.pc.pli).2 = true) :
    exec .stage s = .next (afterStage { s with wbuf := s.wbuf.set s.pc.pli (stagePlane s s.pc.pli).1 }) :=
  (if_pos hfits).trans (congrArg Host.Outcome.next (if_pos hok))

/-- After `STAGE` only the position is new: the next plane's `STAGE`, or `FLATTEN`. -/
theorem afterStage_position (s : State) :
    ∃ pc, afterStage s = { s with pc } ∧ pc.sbr = 0#13 ∧ pc.sbc = 0#13 ∧
      if s.pc.pli.val + 1 < s.work.nplanes.toNat then pc.op = opStage ∧ pc.pli.val = s.pc.pli.val + 1
      else pc.op = opFlatten ∧ pc.pli = s.pc.pli := by
  obtain ⟨q, hq, hlt, ha⟩ | ⟨hlast, ha⟩ := afterStage_cases s
  · refine ⟨_, ha, rfl, rfl, ?_⟩
    rw [if_pos (hq ▸ hlt)]
    exact ⟨rfl, hq⟩
  · refine ⟨_, ha, rfl, rfl, ?_⟩
    rw [if_neg hlast]
    exact ⟨rfl, rfl⟩

end stage

/-! `FLATTEN`. -/

section flatten
variable {s : State}

theorem flattenGrid_ok (hacc : ∀ a, GridByte s.cfg a → acceptable s.params a = true) : (flattenGrid s).2 = true :=
  (gather_ok_iff _ _).mpr fun q hq =>
    ⟨_, miSkip_eq_some (hacc _ ⟨q.1, q.2, (mem_rowMajor.mp hq).1, (mem_rowMajor.mp hq).2, rfl⟩)⟩

theorem flattenGrid_get (hacc : ∀ a, GridByte s.cfg a → acceptable s.params a = true) {r c : Nat} (hr : r < s.cfg.miRows.toNat)
    (hc : c < s.cfg.miCols.toNat) : (flattenGrid s).1.get (bskipIndex s r c) = some (entrySkip (s.mem.read (miAddr s.cfg r c))) :=
  (gather_rowMajor_get (Nat.le_refl _) (flattenGrid_ok hacc) hr hc).trans (miSkip_eq_some (hacc _ ⟨r, c, hr, hc, rfl⟩))

theorem flattenGrid_get_other {i : Nat} (h : s.cfg.miRows.toNat * s.cfg.miCols.toNat ≤ i) : (flattenGrid s).1.get i = s.bskip.get i :=
  gather_get_other _ _ fun _ hq => ((rowIndex_lt (mem_rowMajor.mp hq).1 (mem_rowMajor.mp hq).2).trans_le h).ne

theorem exec_flatten_read (hfits : fitsScratch s.cfg.miRows.toNat s.cfg.miCols.toNat s.cfg.miCols.toNat s.params.skipCap = true)
    (hok : (flattenGrid s).2 = true) : exec .flatten s = .next (afterFlatten { s with bskip := (flattenGrid s).1 }) :=
  (if_pos hfits).trans (congrArg Host.Outcome.next (if_pos hok))

/-- After `FLATTEN` only the position is new: the first superblock, or `TEARDOWN` of an empty frame. -/
theorem afterFlatten_eq (s : State) :
    afterFlatten s =
      { s with
        pc :=
          if s.work.nvsb.toNat = 0 ∨ s.work.nhsb.toNat = 0 then ⟨opTeardown, 0#13, 0#13, s.pc.pli⟩
          else ⟨opSbsetup, 0#13, 0#13, 0⟩ } := by
  have hempty : (s.work.nvsb = 0#14 ∨ s.work.nhsb = 0#14) ↔ (s.work.nvsb.toNat = 0 ∨ s.work.nhsb.toNat = 0) :=
    or_congr BitVec.toNat_inj.symm BitVec.toNat_inj.symm
  obtain ⟨h, ha⟩ | ⟨h, ha⟩ := afterFlatten_cases s
  · rw [ha, if_pos (hempty.mp h)]; rfl
  · rw [ha, if_neg (mt hempty.mpr h)]; rfl

end flatten

/-! Who stores to memory. -/

@[simp] theorem State.dequeue_mem (s : State) : s.dequeue.mem = s.mem := rfl

theorem afterStage_mem (s : State) : (afterStage s).mem = s.mem := by
  obtain ⟨_, ha, -⟩ := afterStage_position s
  rw [ha]

theorem afterFlatten_mem (s : State) : (afterFlatten s).mem = s.mem := by rw [afterFlatten_eq]

/-- No operation but `WRITEBACK` stores to memory. -/
theorem exec_operation_mem {w : BitVec 4} {i : Instr} {s t : State} (hi : decodeSeq w = .ok i) (hw : w ≠ opWriteback)
    (h : exec i s = .next t) : t.mem = s.mem := by
  have henc := decodeSeq_ok hi
  cases i with
  | rd | wr | cmdNop | cmdStart | cmdAck => cases henc
  | planeact | thresh | teardown => cases h; rfl
  | alloc =>
    obtain ⟨-, he⟩ | ⟨-, he⟩ := execAlloc_cases s
    · cases he.symm.trans h; rfl
    · cases he.symm.trans h; rfl
  | stage =>
    obtain ⟨-, ⟨-, rfl⟩ | ⟨-, rfl⟩⟩ := execStage_next h
    · exact afterStage_mem _
    · rfl
  | flatten =>
    obtain ⟨-, ⟨-, rfl⟩ | ⟨-, rfl⟩⟩ := execFlatten_next h
    · exact afterFlatten_mem _
    · rfl
  | sbsetup =>
    obtain ⟨-, -, rfl⟩ := execSbsetup_next h
    rfl
  | level =>
    obtain ⟨-, he⟩ | ⟨-, _, -, he⟩ := execLevel_cases s
    · cases he.symm.trans h; rfl
    · cases he.symm.trans h; rfl
  | skipdet =>
    obtain ⟨-, -, ⟨-, rfl⟩ | ⟨-, rfl⟩ | ⟨-, rfl⟩⟩ := execSkipdet_next h
    · rfl
    · rfl
    · rfl
  | kernel =>
    obtain ⟨-, -, -, -, rfl⟩ := kernelWith_next h
    rfl
  | writeback => exact absurd (CodeWord.seq.inj henc).symm hw
  | nextpl =>
    obtain ⟨_, -, -, he⟩ | ⟨-, he⟩ := execNextpl_cases s
    · cases he.symm.trans h; rfl
    · cases he.symm.trans h; rfl
  | nextsb =>
    obtain ⟨-, -, rfl⟩ | ⟨-, -, -, rfl⟩ | ⟨-, -, rfl⟩ := execNextsb_next h
    · rfl
    · rfl
    · rfl

/-- No transaction of the register port stores to memory. -/
theorem exec_transaction_mem {w : BitVec 41} {i : Instr} {s t : State} (hi : decodeTransaction w = .ok i) (h : exec i s = .next t) :
    t.mem = s.mem := by
  obtain ⟨-, rfl⟩ | ⟨-, rfl⟩ | rfl | ⟨-, _, rfl⟩ | ⟨_, _, rfl⟩ := exec_transaction_cases hi h
  · obtain ⟨-, hs⟩ | ⟨-, hs⟩ := startCall_cases s
    · rw [hs]
    · rw [hs, setIllcmd_mem]
  · obtain ⟨-, ha⟩ | ⟨-, ha⟩ := acknowledge_cases s
    · rw [ha]
    · rw [ha, setIllcmd_mem]
  · rfl
  · rfl
  · rfl

/-! The statements. -/

/-- Settles O16: `PLANEACT` has one branch; each latched register has its number by the lemma about what it derives. -/
theorem planeactLatchesFrame : Obligations.PlaneactLatchesFrame := by
  intro s
  refine ⟨_, rfl, rfl, activePlanes_toNat _, superblocks_toNat _, superblocks_toNat _, coeffShiftOf_toNat _, fun p => ?_, workStride_toNat _⟩
  simp only [State.goTo_work, PerPlane.get_ofFn, unitSpan_toNat, and_self]

/-- Settles O18: every read is accepted and every index fits, so `STAGE` comes to its end; the buffer is `stagePlane`'s and the position
`afterStage_position`'s. -/
theorem stageCopiesPlane : Obligations.StageCopiesPlane := by
  intro s hsample hstride
  have hacc : ∀ r c, r < planeH s s.pc.pli → c < planeW s s.pc.pli → SampleAcceptable s.params s.cfg s.pc.pli r c :=
    fun r c hr hc => (hsample r c hr hc).1
  have hfits := fitsScratch_iff.mpr fun r c hr hc => (hsample r c hr hc).2
  obtain ⟨pc, hafter, hsbr, hsbc, hnext⟩ := afterStage_position { s with wbuf := s.wbuf.set s.pc.pli (stagePlane s s.pc.pli).1 }
  refine ⟨_, (exec_stage_read hfits (stagePlane_ok hacc)).trans (congrArg Host.Outcome.next hafter), rfl, fun r c hr hc => ?_, fun i hi => ?_,
    fun p hp => PerPlane.get_set_other _ _ hp, hsbr, hsbc, hnext⟩
  · rw [PerPlane.get_set_same, stagePlane_get hacc hstride hr hc]
  · rw [PerPlane.get_set_same, stagePlane_get_other hi]

/-- Settles O19: every entry of the grid is accepted and every index fits, so `FLATTEN` comes to its end; the array is `flattenGrid`'s and the position
`afterFlatten_eq`'s. -/
theorem flattenCopiesSkipFlags : Obligations.FlattenCopiesSkipFlags := by
  intro s hacc hcap
  have hfits := fitsScratch_iff.mpr fun r c (hr : r < s.cfg.miRows.toNat) hc => (rowIndex_lt hr hc).trans_le hcap
  exact ⟨_, (exec_flatten_read hfits (flattenGrid_ok hacc)).trans (congrArg Host.Outcome.next (afterFlatten_eq _)), rfl,
    fun _ _ hr hc => flattenGrid_get hacc hr hc, fun _ hi => flattenGrid_get_other hi, rfl⟩

/-- Settles O48: by who moved (`step_cases`). The operation at the position is not `WRITEBACK`, a transaction stores nothing, the host does not write, and a
reset is not inside a `WRITEBACK`. -/
theorem onlyWritebackStores : Obligations.OnlyWritebackStores := by
  intro s t h hpoke hwb
  obtain ⟨-, -, rfl⟩ | ⟨-, hbusy, i, hi, he⟩ | ⟨w, rest, i, -, hi, he⟩ | ⟨a, b, rest, hin, -, -⟩ | ⟨a, rest, -, -, rfl⟩ |
    ⟨n, rest, -, he⟩ := step_cases h
  · rfl
  · exact (exec_operation_mem hi (fun hop => hwb ⟨hbusy, hop⟩) he).trans s.dequeue_mem
  · exact (exec_transaction_mem hi he).trans s.dequeue_mem
  · exact absurd hin (hpoke a b rest)
  · rfl
  · obtain rfl | ⟨hbusy, hop, -, -⟩ := resetAt_next he
    · rfl
    · exact absurd ⟨hbusy, hop⟩ hwb

/-- Settles O17: the two outcomes of `ALLOC`; `overCapacity_iff` tells which of them each clause's premise leads to. -/
theorem allocAcquiresOrFaults : Obligations.AllocAcquiresOrFaults := by
  intro s
  obtain ⟨hover, he⟩ | ⟨hunder, he⟩ := execAlloc_cases s
  · refine ⟨_, he, fun ⟨hskip, hwbuf⟩ => ?_, fun _ => rfl⟩
    exact ((overCapacity_iff.mp hover).elim (Nat.not_lt.mpr hskip) (Nat.not_lt.mpr hwbuf)).elim
  · refine ⟨_, he, fun _ => ⟨rfl, fun p => ?_⟩, fun hover => absurd (overCapacity_iff.mpr hover) (Bool.eq_false_iff.mp hunder)⟩
    rw [State.goTo_wbufAlloc, PerPlane.get_ofFn, Bool.or_eq_true, decide_eq_true_iff]

end Sys2Proof.Machine
end

section
/-! SUPPORT. The bound of a call (44_superblock_loop.md R161): what `stepsLeft` is at each operation, that every operation counts it down and no transaction
changes it, and the statement that every call ends. -/

namespace Sys2Proof.Machine

/-! What is left at each operation. -/

section stepsLeft
variable {s : State}

theorem stepsLeft_planeact (hop : s.pc.op = opPlaneact) : stepsLeft s = callBound s.cfg := by rw [stepsLeft, hop]; rfl

theorem stepsLeft_alloc (hop : s.pc.op = opAlloc) :
    stepsLeft s = 2 + (activePlanes s.cfg).toNat + (superblockCount s.cfg * superblockSteps s.cfg + 1) := by rw [stepsLeft, hop]; rfl

theorem stepsLeft_stage (hop : s.pc.op = opStage) :
    stepsLeft s = (activePlanes s.cfg).toNat - s.pc.pli.val + 1 + (superblockCount s.cfg * superblockSteps s.cfg + 1) := by
  rw [stepsLeft, hop]; rfl

theorem stepsLeft_flatten (hop : s.pc.op = opFlatten) : stepsLeft s = 1 + (superblockCount s.cfg * superblockSteps s.cfg + 1) := by
  rw [stepsLeft, hop]; rfl

theorem stepsLeft_sbsetup (hop : s.pc.op = opSbsetup) : stepsLeft s = superblockSteps s.cfg + stepsAfterSuperblock s := by
  rw [stepsLeft, hop]; rfl

theorem stepsLeft_level (hop : s.pc.op = opLevel) : stepsLeft s = superblockSteps s.cfg - 1 + stepsAfterSuperblock s := by
  rw [stepsLeft, hop]; rfl

theorem stepsLeft_skipdet (hop : s.pc.op = opSkipdet) : stepsLeft s = superblockSteps s.cfg - 2 + stepsAfterSuperblock s := by
  rw [stepsLeft, hop]; rfl

theorem stepsLeft_thresh (hop : s.pc.op = opThresh) :
    stepsLeft s = 4 * ((activePlanes s.cfg).toNat - s.pc.pli.val) + 1 + stepsAfterSuperblock s := by rw [stepsLeft, hop]; rfl

theorem stepsLeft_kernel (hop : s.pc.op = opKernel) :
    stepsLeft s = 4 * ((activePlanes s.cfg).toNat - s.pc.pli.val) + stepsAfterSuperblock s := by rw [stepsLeft, hop]; rfl

theorem stepsLeft_writeback (hop : s.pc.op = opWriteback) :
    stepsLeft s = 4 * ((activePlanes s.cfg).toNat - s.pc.pli.val) - 1 + stepsAfterSuperblock s := by rw [stepsLeft, hop]; rfl

theorem stepsLeft_nextpl (hop : s.pc.op = opNextpl) :
    stepsLeft s = 4 * ((activePlanes s.cfg).toNat - s.pc.pli.val) - 2 + stepsAfterSuperblock s := by rw [stepsLeft, hop]; rfl

theorem stepsLeft_nextsb (hop : s.pc.op = opNextsb) : stepsLeft s = 1 + stepsAfterSuperblock s := by rw [stepsLeft, hop]; rfl

theorem stepsLeft_teardown (hop : s.pc.op = opTeardown) : stepsLeft s = 1 := by rw [stepsLeft, hop]; rfl

theorem stepsLeft_idle (hop : s.pc.op = opIdle) : stepsLeft s = 0 := by rw [stepsLeft, hop]; rfl

/-- `stepsLeft` speaks of the configuration and the position only. -/
theorem stepsLeft_congr {t : State} (hcfg : t.cfg = s.cfg) (hpc : t.pc = s.pc) : stepsLeft t = stepsLeft s := by
  rw [stepsLeft, stepsLeft, stepsAfterSuperblock, stepsAfterSuperblock, hcfg, hpc]

theorem stepsAfterSuperblock_pos : 1 ≤ stepsAfterSuperblock s := Nat.le_add_left ..

end stepsLeft

/-! Each operation counts down. -/

/-- A 13-bit index that has a successor. -/
theorem toNat_succ_of_lt {b : BitVec 13} (hb : b.toNat + 1 < 2 ^ 13) : (b + 1#13).toNat = b.toNat + 1 := by
  rw [BitVec.toNat_add, BitVec.toNat_ofNat]
  omega

/-- At `SBSETUP` in the frame the operations of this superblock and of all after it in row-major order are left, and `TEARDOWN`. -/
theorem stepsLeft_sbsetup_inside {s : State} (hop : s.pc.op = opSbsetup) (hr : s.pc.sbr.toNat < (superblocks s.cfg.miRows).toNat)
    (hc : s.pc.sbc.toNat < (superblocks s.cfg.miCols).toNat) :
    stepsLeft s =
      (superblockCount s.cfg - (s.pc.sbr.toNat * (superblocks s.cfg.miCols).toNat + s.pc.sbc.toNat)) * superblockSteps s.cfg + 1 := by
  obtain ⟨k, hk⟩ := Nat.exists_eq_succ_of_ne_zero (Nat.sub_pos_of_lt (rowIndex_lt hr hc)).ne'
  rw [stepsLeft_sbsetup hop, stepsAfterSuperblock, superblockCount, Nat.sub_add_eq _ _ 1, hk, Nat.succ_sub_one, Nat.succ_mul, Nat.add_comm,
    Nat.add_right_comm]

section counts
variable {s t : State}

theorem planeact_stepsLeft_lt (hop : s.pc.op = opPlaneact) (he : exec .planeact s = .next t) : stepsLeft t < stepsLeft s := by
  cases he
  rw [stepsLeft_planeact hop, stepsLeft_alloc rfl, callBound]
  simp only [State.goTo_cfg]
  omega

theorem alloc_stepsLeft_lt (hop : s.pc.op = opAlloc) (he : exec .alloc s = .next t) : stepsLeft t < stepsLeft s := by
  rw [stepsLeft_alloc hop]
  obtain ⟨-, hn⟩ | ⟨-, hn⟩ := execAlloc_cases s
  · cases hn.symm.trans he
    rw [stepsLeft_teardown rfl]
    omega
  · cases hn.symm.trans he
    rw [stepsLeft_stage rfl]
    simp only [State.goTo_cfg, State.goTo_pc]
    omega

theorem sbsetup_stepsLeft_lt (hop : s.pc.op = opSbsetup) (he : exec .sbsetup s = .next t) : stepsLeft t < stepsLeft s := by
  obtain ⟨-, -, rfl⟩ := execSbsetup_next he
  rw [stepsLeft_sbsetup hop, stepsLeft_level rfl]
  change superblockSteps s.cfg - 1 + stepsAfterSuperblock s < _
  rw [superblockSteps]
  omega

theorem level_stepsLeft_lt (hop : s.pc.op = opLevel) (he : exec .level s = .next t) : stepsLeft t < stepsLeft s := by
  rw [stepsLeft_level hop]
  obtain ⟨-, hn⟩ | ⟨-, lvl, -, hn⟩ := execLevel_cases s
  · cases hn.symm.trans he
    rw [stepsLeft_teardown rfl, superblockSteps]
    omega
  · cases hn.symm.trans he
    by_cases h0 : lvl = 0
    · rw [if_pos h0, stepsLeft_nextsb rfl]
      change 1 + stepsAfterSuperblock s < _
      rw [superblockSteps]
      omega
    · rw [if_neg h0, stepsLeft_skipdet rfl]
      change superblockSteps s.cfg - 2 + stepsAfterSuperblock s < _
      rw [superblockSteps]
      omega

theorem skipdet_stepsLeft_lt (hop : s.pc.op = opSkipdet) (he : exec .skipdet s = .next t) : stepsLeft t < stepsLeft s := by
  rw [stepsLeft_skipdet hop, superblockSteps]
  obtain ⟨-, -, ⟨-, rfl⟩ | ⟨-, rfl⟩ | ⟨-, rfl⟩⟩ := execSkipdet_next he
  · rw [stepsLeft_teardown rfl]
    omega
  · rw [stepsLeft_nextsb rfl]
    change 1 + stepsAfterSuperblock s < _
    omega
  · rw [stepsLeft_thresh rfl]
    change 4 * (activePlanes s.cfg).toNat + 1 + stepsAfterSuperblock s < _
    omega

theorem teardown_stepsLeft_lt (hop : s.pc.op = opTeardown) (he : exec .teardown s = .next t) : stepsLeft t < stepsLeft s := by
  cases he
  rw [stepsLeft_teardown hop, stepsLeft_idle rfl]
  exact Nat.one_pos

variable (h : CallInv s)
include h

theorem CallInv.plane_lt (hat : AtOps s 3 12) : s.pc.pli.val < (activePlanes s.cfg).toNat :=
  (h.latched hat.mono).nplanes ▸ h.plane hat

variable (hbusy : s.callState = .busy)
include hbusy

theorem stage_stepsLeft_lt (hop : s.pc.op = opStage) (he : exec .stage s = .next t) : stepsLeft t < stepsLeft s := by
  have hplane := h.plane_lt (atOps_of hbusy hop)
  rw [stepsLeft_stage hop]
  obtain ⟨-, ⟨-, rfl⟩ | ⟨-, rfl⟩⟩ := execStage_next he
  · obtain ⟨q, hq, -, ha⟩ | ⟨-, ha⟩ := afterStage_cases { s with wbuf := s.wbuf.set s.pc.pli (stagePlane s s.pc.pli).1 }
    · rw [ha, stepsLeft_stage rfl]
      change q.val = s.pc.pli.val + 1 at hq
      simp only [State.goTo_cfg, State.goTo_pc]
      omega
    · rw [ha, stepsLeft_flatten rfl]
      simp only [State.goTo_cfg]
      omega
  · rw [stepsLeft_teardown rfl]
    omega

theorem flatten_stepsLeft_lt (hop : s.pc.op = opFlatten) (he : exec .flatten s = .next t) : stepsLeft t < stepsLeft s := by
  have hl := h.latched (atOps_of hbusy hop)
  rw [stepsLeft_flatten hop]
  obtain ⟨-, ⟨-, rfl⟩ | ⟨-, rfl⟩⟩ := execFlatten_next he
  · obtain ⟨-, ha⟩ | ⟨hne, ha⟩ := afterFlatten_cases { s with bskip := (flattenGrid s).1 }
    · rw [ha, stepsLeft_teardown rfl]
      omega
    · obtain ⟨hv, hw⟩ := not_or.mp hne
      have hr : 0 < (superblocks s.cfg.miRows).toNat := hl.nvsb ▸ Nat.pos_of_ne_zero fun h0 => hv (BitVec.eq_of_toNat_eq h0)
      have hc : 0 < (superblocks s.cfg.miCols).toNat := hl.nhsb ▸ Nat.pos_of_ne_zero fun h0 => hw (BitVec.eq_of_toNat_eq h0)
      rw [ha, stepsLeft_sbsetup_inside (s := State.goTo { s with bskip := (flattenGrid s).1 } opSbsetup 0#13 0#13 0) rfl hr hc]
      simp only [State.goTo_cfg, State.goTo_pc, BitVec.toNat_zero, Nat.zero_mul, Nat.add_zero, Nat.sub_zero]
      omega
  · rw [stepsLeft_teardown rfl]
    omega

theorem thresh_stepsLeft_lt (hop : s.pc.op = opThresh) (he : exec .thresh s = .next t) : stepsLeft t < stepsLeft s := by
  have hplane := h.plane_lt (atOps_of hbusy hop)
  rw [stepsLeft_thresh hop]
  cases he
  dsimp only
  split
  · rw [stepsLeft_nextpl rfl]
    change 4 * ((activePlanes s.cfg).toNat - s.pc.pli.val) - 2 + stepsAfterSuperblock s < _
    omega
  · rw [stepsLeft_kernel rfl]
    change 4 * ((activePlanes s.cfg).toNat - s.pc.pli.val) + stepsAfterSuperblock s < _
    omega

theorem kernel_stepsLeft_lt (hop : s.pc.op = opKernel) (he : exec .kernel s = .next t) : stepsLeft t < stepsLeft s := by
  have hplane := h.plane_lt (atOps_of hbusy hop)
  obtain ⟨-, -, -, -, rfl⟩ := kernelWith_next he
  rw [stepsLeft_kernel hop, stepsLeft_writeback rfl]
  change 4 * ((activePlanes s.cfg).toNat - s.pc.pli.val) - 1 + stepsAfterSuperblock s < _
  omega

theorem writeback_stepsLeft_lt (hop : s.pc.op = opWriteback) (he : exec .writeback s = .next t) : stepsLeft t < stepsLeft s := by
  have hplane := h.plane_lt (atOps_of hbusy hop)
  rw [stepsLeft_writeback hop]
  obtain ⟨-, ⟨-, rfl⟩ | ⟨-, rfl⟩⟩ := execWriteback_next he
  · rw [stepsLeft_nextpl rfl]
    change 4 * ((activePlanes s.cfg).toNat - s.pc.pli.val) - 2 + stepsAfterSuperblock s < _
    omega
  · rw [stepsLeft_teardown rfl]
    omega

theorem nextpl_stepsLeft_lt (hop : s.pc.op = opNextpl) (he : exec .nextpl s = .next t) : stepsLeft t < stepsLeft s := by
  have hplane := h.plane_lt (atOps_of hbusy hop)
  rw [stepsLeft_nextpl hop]
  obtain ⟨q, hq, hlt, hn⟩ | ⟨-, hn⟩ := execNextpl_cases s
  · cases hn.symm.trans he
    rw [stepsLeft_thresh rfl]
    change 4 * ((activePlanes s.cfg).toNat - q.val) + 1 + stepsAfterSuperblock s < _
    rw [(h.latched (atOps_of hbusy hop)).nplanes] at hlt
    omega
  · cases hn.symm.trans he
    rw [stepsLeft_nextsb rfl]
    change 1 + stepsAfterSuperblock s < _
    omega

theorem nextsb_stepsLeft_lt (hop : s.pc.op = opNextsb) (he : exec .nextsb s = .next t) : stepsLeft t < stepsLeft s := by
  have hl := h.loop (atOps_of hbusy hop)
  obtain ⟨hr, hc⟩ := hl.inLoop
  have hnext := execNextsb_next he
  rw [hl.latched.nhsb] at hc hnext
  rw [hl.latched.nvsb] at hr hnext
  have next : ∀ r c : BitVec 13, r.toNat < (superblocks s.cfg.miRows).toNat → c.toNat < (superblocks s.cfg.miCols).toNat →
      r.toNat * (superblocks s.cfg.miCols).toNat + c.toNat = s.pc.sbr.toNat * (superblocks s.cfg.miCols).toNat + s.pc.sbc.toNat + 1 →
      stepsLeft (s.goTo opSbsetup r c 0) < stepsLeft s := by
    intro r c hr hc hindex
    rw [stepsLeft_nextsb hop, stepsLeft_sbsetup_inside (s := s.goTo opSbsetup r c 0) rfl hr hc]
    simp only [State.goTo_cfg, State.goTo_pc, hindex]
    exact Nat.lt_add_of_pos_left Nat.one_pos
  obtain ⟨hc', hfit, rfl⟩ | ⟨hc', hr', hfit, rfl⟩ | ⟨-, -, rfl⟩ := hnext
  · have hsucc := toNat_succ_of_lt hfit
    exact next _ _ hr (hsucc.trans_lt hc') (by rw [hsucc, Nat.add_assoc])
  · have hsucc := toNat_succ_of_lt hfit
    refine next _ _ (hsucc.trans_lt hr') (Nat.zero_lt_of_lt hc) ?_
    rw [hsucc, Nat.succ_mul, BitVec.toNat_zero]
    omega
  · rw [stepsLeft_nextsb hop, stepsLeft_teardown rfl]
    exact Nat.lt_add_of_pos_right stepsAfterSuperblock_pos

/-- Every operation counts down the bound of R161. -/
theorem exec_operation_stepsLeft_lt {i : Instr} (hi : decodeSeq s.pc.op = .ok i) (he : exec i s = .next t) : stepsLeft t < stepsLeft s := by
  have henc := decodeSeq_ok hi
  have hop : ∀ op : BitVec 4, encode i = .seq op → s.pc.op = op := fun op ho => CodeWord.seq.inj (henc.symm.trans ho)
  cases i with
  | rd | wr | cmdNop | cmdStart | cmdAck => cases henc
  | planeact => exact planeact_stepsLeft_lt (hop _ rfl) he
  | alloc => exact alloc_stepsLeft_lt (hop _ rfl) he
  | stage => exact stage_stepsLeft_lt h hbusy (hop _ rfl) he
  | flatten => exact flatten_stepsLeft_lt h hbusy (hop _ rfl) he
  | sbsetup => exact sbsetup_stepsLeft_lt (hop _ rfl) he
  | level => exact level_stepsLeft_lt (hop _ rfl) he
  | skipdet => exact skipdet_stepsLeft_lt (hop _ rfl) he
  | thresh => exact thresh_stepsLeft_lt h hbusy (hop _ rfl) he
  | kernel => exact kernel_stepsLeft_lt h hbusy (hop _ rfl) he
  | writeback => exact writeback_stepsLeft_lt h hbusy (hop _ rfl) he
  | nextpl => exact nextpl_stepsLeft_lt h hbusy (hop _ rfl) he
  | nextsb => exact nextsb_stepsLeft_lt h hbusy (hop _ rfl) he
  | teardown => exact teardown_stepsLeft_lt (hop _ rfl) he

/-- In a call an operation is left. -/
theorem CallInv.stepsLeft_pos : 1 ≤ stepsLeft s := by
  obtain ⟨-, hlo, hhi⟩ := (h.running hbusy).1
  obtain ⟨i, hi⟩ := decodeSeq_of_range hlo hhi
  obtain ⟨t, ht⟩ := exec_operation_total h hbusy hi
  exact Nat.zero_lt_of_lt (exec_operation_stepsLeft_lt h hbusy hi ht)

end counts

/-! The host does not slow the sequencer down. -/

theorem hasTurn_iff {s : State} : hasTurn s = true ↔ SequencerHasTurn s := by
  unfold hasTurn SequencerHasTurn
  split <;> simp [*]

/-- In a call a transaction changes neither the position nor the configuration, and the call goes on (40_host_commands.md R82, R84, R85). -/
theorem exec_transaction_busy {w : BitVec 41} {i : Instr} {s t : State} (hi : decodeTransaction w = .ok i) (he : exec i s = .next t)
    (hbusy : s.callState = .busy) : t.callState = .busy ∧ t.pc = s.pc ∧ t.cfg = s.cfg ∧ t.inbox = s.inbox := by
  obtain ⟨-, rfl⟩ | ⟨-, rfl⟩ | rfl | ⟨hstop, -⟩ | ⟨_, _, rfl⟩ := exec_transaction_cases hi he
  · obtain ⟨hidle, -⟩ | ⟨-, hs⟩ := startCall_cases s
    · rw [hbusy] at hidle; cases hidle
    · rw [hs]; exact ⟨hbusy, rfl, rfl, rfl⟩
  · obtain ⟨hstop, -⟩ | ⟨-, hs⟩ := acknowledge_cases s
    · exact absurd hbusy hstop
    · rw [hs]; exact ⟨hbusy, rfl, rfl, rfl⟩
  · exact ⟨hbusy, rfl, rfl, rfl⟩
  · exact absurd hbusy hstop
  · exact ⟨hbusy, rfl, rfl, rfl⟩

/-- A step that does not end the call counts down what is left if it was the sequencer's turn, and leaves it otherwise. -/
theorem step_stepsLeft_le {s t : State} (h : CallInv s) (hbusy : s.callState = .busy) (hstep : step s = .next t) (hbusy' : t.callState = .busy) :
    (if hasTurn s then 1 else 0) + stepsLeft t ≤ stepsLeft s := by
  have noTurn : ¬ SequencerHasTurn s → (if hasTurn s then 1 else 0) = 0 := fun hno => if_neg (mt hasTurn_iff.mp hno)
  obtain ⟨-, hstop, -⟩ | ⟨hturn, -, i, hi, he⟩ | ⟨w, rest, i, hin, hi, he⟩ | ⟨a, b, rest, -, hstop, -⟩ | ⟨a, rest, -, hstop, -⟩ |
    ⟨n, rest, -, he⟩ := step_cases hstep
  · exact absurd hbusy hstop
  · rw [if_pos (hasTurn_iff.mpr hturn), Nat.add_comm]
    exact exec_operation_stepsLeft_lt (s := s.dequeue) h.dequeue hbusy hi he
  · obtain ⟨-, hpc, hcfg, -⟩ := exec_transaction_busy hi he hbusy
    rw [noTurn (by simp [SequencerHasTurn, hin]), stepsLeft_congr hcfg hpc]
    exact (Nat.zero_add _).le
  · exact absurd hbusy hstop
  · exact absurd hbusy hstop
  · obtain rfl | ⟨-, -, -, rfl⟩ := resetAt_next he
    · cases hbusy'
    · cases hbusy'

theorem callTurns_stopped {s : State} (hstop : s.callState ≠ .busy) (n : Nat) : callTurns n s = 0 := by
  cases n with
  | zero => rfl
  | succ n => rw [callTurns, if_neg hstop]

/-- A running machine of the invariant performs at most as many operations as are left, by induction on the steps. -/
theorem callTurns_le (n : Nat) {s : State} (h : CallInv s) (hbusy : s.callState = .busy) : callTurns n s ≤ stepsLeft s := by
  induction n generalizing s with
  | zero => exact Nat.zero_le _
  | succ n ih =>
    have hturn : (if hasTurn s then 1 else 0) ≤ stepsLeft s := by
      have hpos := h.stepsLeft_pos hbusy
      split
      · exact hpos
      · exact Nat.zero_le _
    rw [callTurns, if_pos hbusy]
    cases hstep : step s with
    | next t =>
      by_cases hbusy' : t.callState = .busy
      · exact (Nat.add_le_add_left (ih (callInvKept s t h hstep) hbusy') _).trans (step_stepsLeft_le h hbusy hstep hbusy')
      · simpa only [callTurns_stopped hbusy', Nat.add_zero] using hturn
    | fault r => exact hturn
    | refused r => exact hturn

/-! Every call ends. -/

/-- A transaction that decodes has an offset that is a multiple of 4 (30_encoding.md R61). -/
theorem decodeTransaction_wellFormed {w : BitVec 41} {i : Instr} (h : decodeTransaction w = .ok i) : WellFormed i = true := by
  have bus : ∀ j, decodeBus w = .ok j → WellFormed j = true := fun j hj => (encodeOfDecode (.bus w) j hj).1
  unfold decodeTransaction at h
  split at h
  · cases h
  · next off data hb =>
    split at h
    · split at h
      · next c hc => cases h; exact (encodeOfDecode (.cmd data) _ hc).1
      · cases h; exact bus _ hb
    · cases h; exact bus _ hb
  · next hb => cases h; exact bus _ hb

/-- A transaction the port can express runs. -/
theorem exec_transaction_total {w : BitVec 41} {i : Instr} (hi : decodeTransaction w = .ok i) (s : State) : ∃ t, exec i s = .next t := by
  have ha := decodeTransaction_wellFormed hi
  obtain ⟨off, rfl⟩ | ⟨off, d, rfl⟩ | rfl | rfl | rfl := decodeTransaction_ok hi
  · exact ⟨_, exec_rd_aligned ha⟩
  · exact ⟨_, exec_wr_aligned ha d⟩
  · exact ⟨_, rfl⟩
  · exact ⟨_, rfl⟩
  · exact ⟨_, rfl⟩

/-- What is left of a call whose pending events the host may bring about: at most that many steps. -/
theorem step_of_callEvents {s : State} (h : CallInv s) (hbusy : s.callState = .busy) (hev : CallEvents s.inbox) :
    ∃ t, step s = .next t ∧ t.inbox = s.inbox.tail ∧ t.inbox.length + stepsLeft t < s.inbox.length + stepsLeft s ∧
      (t.callState = .busy ∨ t.callState = .done ∨ t.callState = .fail) := by
  by_cases hturn : SequencerHasTurn s
  · obtain ⟨-, hlo, hhi⟩ := (h.running hbusy).1
    obtain ⟨i, hi⟩ := decodeSeq_of_range hlo hhi
    obtain ⟨t, ht⟩ := exec_operation_total h.dequeue hbusy hi
    have hinbox : t.inbox = s.inbox.tail := (exec_operation_hostSideKept hi ht).inbox
    have hlength : t.inbox.length ≤ s.inbox.length := hinbox ▸ (List.tail_sublist _).length_le
    refine ⟨t, (step_of_turn h.op_le hturn).trans ((sequencerTurn_busy (s := s.dequeue) hbusy hi).trans ht), hinbox,
      Nat.add_lt_add_of_le_of_lt hlength (exec_operation_stepsLeft_lt (s := s.dequeue) h.dequeue hbusy hi ht), ?_⟩
    exact (exec_operation_frame hi ht).callState.imp (·.trans hbusy) And.right
  · obtain ⟨e, rest, hin⟩ : ∃ e rest, s.inbox = e :: rest := List.exists_cons_of_ne_nil fun hnil => hturn (.inl hnil)
    obtain rfl | ⟨w, i, rfl, hi⟩ := hev e (hin ▸ List.mem_cons_self)
    · exact absurd (.inr ⟨rest, hin⟩) hturn
    · obtain ⟨t, ht⟩ := exec_transaction_total hi { s with inbox := rest }
      obtain ⟨hbusy', hpc, hcfg, hinbox⟩ := exec_transaction_busy hi ht hbusy
      refine ⟨t, (step_bus h.op_le hin hi).trans ht, by rw [hinbox, hin, List.tail_cons], ?_, .inl hbusy'⟩
      rw [stepsLeft_congr (s := s) hcfg hpc, hinbox, hin]
      exact Nat.add_lt_add_right (Nat.lt_succ_self _) _

/-- A call whose pending events the host may bring about ends within as many steps as there are events pending and operations left, by induction on their
number. -/
theorem call_ends {s : State} (h : CallInv s) (hbusy : s.callState = .busy) (hev : CallEvents s.inbox) :
    ∃ n t, n ≤ s.inbox.length + stepsLeft s ∧ core.run n s = .next t ∧ (t.callState = .done ∨ t.callState = .fail) := by
  induction hk : s.inbox.length + stepsLeft s using Nat.strong_induction_on generalizing s with
  | _ k ih =>
    subst hk
    obtain ⟨t, hstep, hinbox, hlt, hgoes | hends⟩ := step_of_callEvents h hbusy hev
    · have hev' : CallEvents t.inbox := fun e he => hev e (List.mem_of_mem_tail (hinbox ▸ he))
      obtain ⟨n, u, hn, hrun, hend⟩ := ih _ hlt (callInvKept s t h hstep) hgoes hev' rfl
      exact ⟨n + 1, u, hn.trans_lt hlt, (run_succ n hstep).trans hrun, hend⟩
    · exact ⟨1, t, Nat.zero_lt_of_lt hlt, run_succ 0 hstep, hends⟩

/-- Settles O44: every operation counts down what is left (`exec_operation_stepsLeft_lt`) and no transaction changes it, so that `callTurns_le` and
`call_ends` follow by induction; at `PLANEACT` what is left is R161's bound. -/
theorem callEndsWithinBound : Obligations.CallEndsWithinBound :=
  ⟨fun _ h hbusy n => callTurns_le n h hbusy, fun _ => call_ends, fun _ => stepsLeft_planeact⟩

end Sys2Proof.Machine
end

section
/-! SUPPORT. What a call writes (44_superblock_loop.md R148, R163): only bytes of its active planes, and nothing at all when `global_level` is 0. -/

namespace Sys2Proof.Machine

/-! Only active planes are written. -/

/-- A byte of no active plane is none of the current rectangle. -/
theorem writeBack_read_inactive {s : State} (h : CallInv s) (hat : AtOps s 10 10) {l : List (Nat × Nat)} (hl : ∀ q ∈ l, q ∈ rectPositions s) {a : Nat}
    (ha : ∀ p, PlaneActive s.cfg p → ¬ PlaneByte s.cfg p a) : (writeBack s l).1.read a = s.mem.read a := by
  refine writeBack_read_other s l fun q hq hbyte => ?_
  obtain ⟨hr, hc⟩ := mem_rowMajor.mp (hl q hq)
  exact ha s.pc.pli (h.plane_lt hat.mono) (rect_superblockByte (h.latched hat.mono) (h.extent hat.mono) hr hc hbyte).planeByte

theorem writeback_read_inactive {s t : State} (h : CallInv s) (hat : AtOps s 10 10) (he : exec .writeback s = .next t) {a : Nat}
    (ha : ∀ p, PlaneActive s.cfg p → ¬ PlaneByte s.cfg p a) : t.mem.read a = s.mem.read a := by
  have hread := writeBack_read_inactive h hat (fun _ hq => hq) ha
  obtain ⟨-, ⟨-, rfl⟩ | ⟨-, rfl⟩⟩ := execWriteback_next he
  · exact hread
  · exact hread

/-- In a call no step writes a byte of no active plane: of the operations only `WRITEBACK` stores, a reset leaves what an interrupted one has written, and
the host does not write. -/
theorem step_read_inactive {s t : State} (h : CallInv s) (hbusy : s.callState = .busy) (hstep : step s = .next t) {a : Nat}
    (ha : ∀ p, PlaneActive s.cfg p → ¬ PlaneByte s.cfg p a) : t.mem.read a = s.mem.read a := by
  obtain ⟨-, hstop, -⟩ | ⟨-, -, i, hi, he⟩ | ⟨w, rest, i, -, hi, he⟩ | ⟨a, b, rest, -, hstop, -⟩ | ⟨a, rest, -, hstop, -⟩ |
    ⟨n, rest, -, he⟩ := step_cases hstep
  · exact absurd hbusy hstop
  · by_cases hop : s.pc.op = opWriteback
    · have hi' : Except.ok i = .ok Instr.writeback := hi.symm.trans (hop ▸ rfl)
      cases hi'
      exact writeback_read_inactive (s := s.dequeue) h.dequeue (atOps_of hbusy hop) he ha
    · rw [exec_operation_mem hi hop he, State.dequeue_mem]
  · rw [exec_transaction_mem hi he, State.dequeue_mem]
  · exact absurd hbusy hstop
  · exact absurd hbusy hstop
  · obtain rfl | ⟨-, hop, -, rfl⟩ := resetAt_next he
    · rfl
    · exact writeBack_read_inactive (s := s.dequeue) h.dequeue (atOps_of hbusy hop) (fun _ => List.mem_of_mem_take) ha

/-- Settles O47: `step_read_inactive`; where the regions are apart a byte of the grid is of no active plane. -/
theorem onlyActivePlanesWritten : Obligations.OnlyActivePlanesWritten := fun _ _ h hbusy hstep =>
  ⟨fun _ => step_read_inactive h hbusy hstep, fun hregions a hgrid =>
    step_read_inactive h hbusy hstep fun p hp ha => (hregions p a hp ha).1 hgrid⟩

/-! At `global_level` 0 the sequencer never goes past `LEVEL`. -/

/-- Not one of `SKIPDET` to `NEXTPL`, which work on the superblock's planes. -/
abbrev OutsidePlanes (op : BitVec 4) : Prop := op.toNat < 7 ∨ 11 < op.toNat

theorem outsidePlanes_of {s : State} (op : BitVec 4) (hop : s.pc.op = op) (hout : OutsidePlanes op := by decide) : OutsidePlanes s.pc.op :=
  hop ▸ hout

theorem level_outsidePlanes {s t : State} (hgl : s.cfg.gl = 0#8) (he : exec .level s = .next t) : OutsidePlanes t.pc.op := by
  obtain ⟨-, hn⟩ | ⟨-, lvl, hlvl, hn⟩ := execLevel_cases s
  · cases hn.symm.trans he
    exact outsidePlanes_of opTeardown rfl
  · cases hn.symm.trans he
    have hzero : lvl = 0 := by rw [hlvl, hgl]; exact levelMapper_of_zero ..
    rw [if_pos hzero]
    exact outsidePlanes_of opNextsb rfl

/-- From the other operations only `LEVEL` leads to these, and not at `global_level` 0 (41_level_mapper.md R102). -/
theorem exec_operation_outsidePlanes {s t : State} {i : Instr} (hgl : s.cfg.gl = 0#8) (hout : OutsidePlanes s.pc.op)
    (hi : decodeSeq s.pc.op = .ok i) (he : exec i s = .next t) : OutsidePlanes t.pc.op := by
  have henc := decodeSeq_ok hi
  cases i with
  | rd | wr | cmdNop | cmdStart | cmdAck => cases henc
  | planeact => cases he; exact outsidePlanes_of opAlloc rfl
  | alloc =>
    obtain ⟨-, hn⟩ | ⟨-, hn⟩ := execAlloc_cases s
    · cases hn.symm.trans he; exact outsidePlanes_of opTeardown rfl
    · cases hn.symm.trans he; exact outsidePlanes_of opStage rfl
  | stage =>
    obtain ⟨-, ⟨-, rfl⟩ | ⟨-, rfl⟩⟩ := execStage_next he
    · obtain ⟨_, -, -, ha⟩ | ⟨-, ha⟩ := afterStage_cases { s with wbuf := s.wbuf.set s.pc.pli (stagePlane s s.pc.pli).1 }
      · rw [ha]; exact outsidePlanes_of opStage rfl
      · rw [ha]; exact outsidePlanes_of opFlatten rfl
    · exact outsidePlanes_of opTeardown rfl
  | flatten =>
    obtain ⟨-, ⟨-, rfl⟩ | ⟨-, rfl⟩⟩ := execFlatten_next he
    · obtain ⟨-, ha⟩ | ⟨-, ha⟩ := afterFlatten_cases { s with bskip := (flattenGrid s).1 }
      · rw [ha]; exact outsidePlanes_of opTeardown rfl
      · rw [ha]; exact outsidePlanes_of opSbsetup rfl
    · exact outsidePlanes_of opTeardown rfl
  | sbsetup =>
    obtain ⟨-, -, rfl⟩ := execSbsetup_next he
    exact outsidePlanes_of opLevel rfl
  | level => exact level_outsidePlanes hgl he
  | skipdet | thresh | kernel | writeback | nextpl =>
    rw [← CodeWord.seq.inj henc] at hout
    exact absurd hout (by decide)
  | nextsb =>
    obtain ⟨-, -, rfl⟩ | ⟨-, -, -, rfl⟩ | ⟨-, -, rfl⟩ := execNextsb_next he
    · exact outsidePlanes_of opSbsetup rfl
    · exact outsidePlanes_of opSbsetup rfl
    · exact outsidePlanes_of opTeardown rfl
  | teardown => cases he; exact outsidePlanes_of opIdle rfl

/-- The sequencer stays outside the planes and memory as it was in `m`. -/
def PlanesIdle (m : Memory) (s : State) : Prop := OutsidePlanes s.pc.op ∧ s.mem = m

theorem exec_operation_planesIdle {m : Memory} {s t : State} {i : Instr} (hgl : s.cfg.gl = 0#8) (h : PlanesIdle m s)
    (hi : decodeSeq s.pc.op = .ok i) (he : exec i s = .next t) : PlanesIdle m t := by
  obtain ⟨hout, hmem⟩ := h
  have hwb : s.pc.op ≠ opWriteback := fun hop => absurd (hop ▸ hout) (by decide)
  exact ⟨exec_operation_outsidePlanes hgl hout hi he, (exec_operation_mem hi hwb he).trans hmem⟩

/-- Settles O45: a call begins outside the planes and stays there (`exec_operation_planesIdle`), so no operation is a `WRITEBACK`, and no other stores
to memory. -/
theorem globalLevelZeroIsNoop : Obligations.GlobalLevelZeroIsNoop := by
  intro s h _ hop hin hgl n
  have hstart : PlanesIdle s.mem s := ⟨outsidePlanes_of opPlaneact hop, rfl⟩
  obtain ⟨t, hrun, -, -, hmem⟩ := run_keeps n h hin hstart fun hside _ _ hi he hidle =>
    exec_operation_planesIdle (hside.cfg ▸ hgl) hidle hi he
  exact ⟨t, hrun, hmem⟩

end Sys2Proof.Machine
end

section
/-! SUPPORT. The operations of the superblock loop and of its plane loop (44_superblock_loop.md): the extent, the threshold, what `KERNEL` is given and stores,
what `WRITEBACK` stores, where the loops go on, the end of the call, and the tiling. -/

namespace Sys2Proof.Machine

/-! The superblock: its extent and its threshold. -/

/-- The register of an extent holds it (44_superblock_loop.md R141). -/
theorem ofNat_extent_toNat (n : Nat) : (BitVec.ofNat 4 (min maxMibSize n)).toNat = min 8 n := by
  rw [BitVec.toNat_ofNat, maxMibSize]
  omega

/-- Settles O20: the superblock begins in the frame, so `SBSETUP` completes, and the registers hold the clipped extent. -/
theorem sbsetupClipsExtent : Obligations.SbsetupClipsExtent := fun _ hc hr =>
  ⟨_, exec_sbsetup_inside ⟨hc, hr⟩, rfl, ofNat_extent_toNat _, ofNat_extent_toNat _⟩

theorem thresholdOf_eq (p : Plane) (level shift : Nat) :
    thresholdOf p level shift = (if p = 0 then level else (level * 5 + 4) / 8) * 2 ^ shift := by
  simp only [thresholdOf, Nat.shiftLeft_eq, Nat.shiftRight_eq_div_pow]
  exact (ite_mul ..).symm

/-- `THRESH`'s register holds every threshold (00_scope.md R6). -/
theorem ofNat_thresholdOf_toNat (p : Plane) (level : BitVec 8) (shift : BitVec 3) :
    (BitVec.ofNat 16 (thresholdOf p level.toNat shift.toNat)).toNat = thresholdOf p level.toNat shift.toNat := by
  rw [BitVec.toNat_ofNat, Nat.mod_eq_of_lt (thresholdOf_lt p level.isLt shift.isLt)]

/-- Settles O25: the register holds the threshold (`ofNat_thresholdOf_toNat`), which is 0 iff the register is. -/
theorem threshScalesLevel : Obligations.ThreshScalesLevel := by
  intro s
  obtain ⟨v, hv⟩ : ∃ v, thresholdOf s.pc.pli s.work.level.toNat s.work.coeffShift.toNat = v := ⟨_, rfl⟩
  have hval : (BitVec.ofNat 16 v).toNat = v := hv ▸ ofNat_thresholdOf_toNat ..
  refine ⟨_, exec_thresh hv, rfl, fun h0 => ?_, fun hne => ?_, hval.trans (hv.symm.trans (thresholdOf_eq ..)), fun hlevel => ?_⟩
  · have hzero : v = 0 := hval.symm.trans (congrArg BitVec.toNat h0)
    rw [if_pos hzero]; rfl
  · have hpos : v ≠ 0 := fun hzero => hne (congrArg (BitVec.ofNat 16) hzero)
    rw [if_neg hpos]; rfl
  · exact (hv ▸ thresholdOf_pos s.pc.pli hlevel).trans_eq hval.symm

/-! `KERNEL`. -/

theorem kernelArgs_src {s : State} {p : Plane} {r c : Nat} {v : Sample} (hr : r < planeH s p) (hc : c < planeW s p)
    (hv : (s.wbuf.get p).get (wbufIndex s r c) = some v) : (kernelArgs s p).src r c = v :=
  (if_pos ⟨hr, hc⟩).trans (congrArg (Option.getD · 0#16) hv)

theorem kernelArgs_skip {s : State} {p : Plane} {r c : Nat} {v : BitVec 1} (hr : r < s.work.nvb.toNat) (hc : c < s.work.nhb.toNat)
    (hv : s.bskip.get (bskipIndex s (sbRow s + r) (sbCol s + c)) = some v) : (kernelArgs s p).skip r c = true ↔ v = 1#1 := by
  have hskip : (kernelArgs s p).skip r c = decide (s.bskip.get (bskipIndex s (sbRow s + r) (sbCol s + c)) = some 1#1) := if_pos ⟨hr, hc⟩
  rw [hskip, hv, decide_eq_true_iff, Option.some_inj]

theorem kernelArgs_dir (s : State) (p : Plane) (r c : Fin 8) (h : 8 * r.val + c.val < 64) :
    (kernelArgs s p).dir r c = s.dir[8 * r.val + c.val] := dif_pos ⟨r.isLt, c.isLt⟩

/-- Settles O56: the scalars stand in the record as they are; the samples, the skip flags and the directions by the three lemmas above. -/
theorem kernelArgumentRecord : Obligations.KernelArgumentRecord := by
  rintro s p _ rfl
  exact ⟨rfl, rfl, rfl, rfl, rfl, rfl, rfl, rfl, rfl, rfl, rfl, rfl, rfl, rfl, rfl, rfl, rfl, fun _ _ _ hr hc hv => kernelArgs_src hr hc hv,
    fun _ _ _ hr hc hv => kernelArgs_skip hr hc hv, kernelArgs_dir s p⟩

theorem storeDir_get (prm : Params) (d : Nat → Nat → Nat) (r c : Fin 8) (h : 8 * r.val + c.val < 64) :
    (storeDir prm d)[8 * r.val + c.val] = d r c % 2 ^ prm.dirBits := by
  have hrow : (8 * r.val + c.val) / 8 = r.val := by omega
  have hcol : (8 * r.val + c.val) % 8 = c.val := by omega
  simp only [storeDir, Vector.getElem_ofFn, hrow, hcol]

/-- Settles O26: the scratch it reads is held, so `KERNEL` completes; `DST` is `storeOut`'s and `DIR` is `storeDir`'s. -/
theorem kernelStoresOutput : Obligations.KernelStoresOutput := fun _ hstaged hskip hh hw =>
  ⟨_, exec_kernel_ready ⟨hh, hw⟩ (stagedReady_iff.mpr hstaged) (skipReady_iff.mpr hskip), rfl, fun _ _ => storeOut_get hw,
    fun _ => storeOut_get_other, storeDir_get _ _⟩

/-! `WRITEBACK`. -/

/-- Where rows do not overlap, every sample of accepted positions of the rectangle holds its entry of `DST` at the end: its own write puts it there, and no
other position's write touches its bytes. -/
theorem writeBack_holdsSample {s : State} {l : List (Nat × Nat)} (hnd : l.Nodup) (hrect : ∀ q ∈ l, q ∈ rectPositions s)
    (hstride : rectCol s s.pc.pli + rectW s s.pc.pli ≤ (s.cfg.planes.get s.pc.pli).stride.toNat) (hok : (writeBack s l).2 = true)
    {q : Nat × Nat} (hq : q ∈ l) {v : Sample} (hv : s.dst.get (dstIndex q.1 q.2) = some v) :
    HoldsSample s.cfg (writeBack s l).1 s.pc.pli (rectRow s s.pc.pli + q.1) (rectCol s s.pc.pli + q.2) v := by
  have hcol : ∀ q ∈ l, rectCol s s.pc.pli + q.2 < (s.cfg.planes.get s.pc.pli).stride.toNat := fun q hq =>
    (Nat.add_lt_add_left (mem_rowMajor.mp (hrect q hq)).2 _).trans_le hstride
  have hheld := scatter_establishes
    (P := fun q m => HoldsSample s.cfg m s.pc.pli (rectRow s s.pc.pli + q.1) (rectCol s s.pc.pli + q.2) ((s.dst.get (dstIndex q.1 q.2)).getD 0#16))
    l s.mem hok hnd (fun _ _ _ _ _ hw => (writeSample_spec hw).1) (fun m m' r c q hm hq hne hP hw => ?_) hq
  · rwa [hv] at hheld
  · refine hP.congr fun a ha => (writeSample_spec hw).2.1 a fun ha' => hne ?_
    obtain ⟨hr, hc⟩ := sampleByte_injective (hcol q hq) (hcol _ hm) ha ha'
    exact Prod.ext (Nat.add_left_cancel hr) (Nat.add_left_cancel hc)

/-- Settles O29: every sample is acceptable, so `WRITEBACK` comes to its end, and `writeBack_holdsSample` and `writeBack_read_other` say what it leaves. -/
theorem writebackStoresRectangle : Obligations.WritebackStoresRectangle := by
  intro s hrect hstride
  have hready : dstReady s s.pc.pli = true := dstReady_iff.mpr fun r c hr hc => (hrect r c hr hc).1
  have hok : (writeBack s (rectPositions s)).2 = true := (writeBack_ok_iff _ _).mpr fun q hq =>
    (hrect q.1 q.2 (mem_rowMajor.mp hq).1 (mem_rowMajor.mp hq).2).2
  refine ⟨_, exec_writeback_done hready hok, rfl, fun r c v hr hc hv => ?_, fun a ha => ?_⟩
  · exact writeBack_holdsSample (rowMajor_nodup _ _) (fun _ hq => hq) hstride hok (q := (r, c)) (mem_rowMajor.mpr ⟨hr, hc⟩) hv
  · exact writeBack_read_other _ _ fun q hq => ha q.1 q.2 (mem_rowMajor.mp hq).1 (mem_rowMajor.mp hq).2

/-- Settles O30: both outcomes of `WRITEBACK` change what the statement names, and memory as `writeBack_read_other` says. -/
theorem writebackFrame : Obligations.WritebackFrame := by
  intro s t he
  have hread : ∀ a, (∀ r c, r < rectH s s.pc.pli → c < rectW s s.pc.pli →
      ¬ IsSampleByte s.cfg s.pc.pli (rectRow s s.pc.pli + r) (rectCol s s.pc.pli + c) a) →
      (writeBack s (rectPositions s)).1.read a = s.mem.read a := fun a ha =>
    writeBack_read_other _ _ fun q hq => ha q.1 q.2 (mem_rowMajor.mp hq).1 (mem_rowMajor.mp hq).2
  obtain ⟨-, ⟨-, rfl⟩ | ⟨-, rfl⟩⟩ := execWriteback_next he
  · exact ⟨rfl, hread⟩
  · exact ⟨rfl, hread⟩

/-- A `WRITEBACK` whose rectangle has an unacceptable sample stops there, with what it wrote before. -/
theorem writeBack_stops {s : State} {before after : List (Nat × Nat)} {q : Nat × Nat} (hok : (writeBack s before).2 = true)
    (hq : ¬ SampleAcceptable s.params s.cfg s.pc.pli (rectRow s s.pc.pli + q.1) (rectCol s s.pc.pli + q.2)) :
    writeBack s (before ++ q :: after) = ((writeBack s before).1, false) :=
  scatter_stops before after q s.mem hok fun _ => Option.eq_none_iff_forall_ne_some.mpr fun m' hm => hq (writeSample_some_iff.mp ⟨m', hm⟩)

/-- Settles O35: `WRITEBACK` stops at the sample (`writeBack_stops`), and what it wrote before is a `WRITEBACK` through the positions before. -/
theorem writebackFaultIsPrecise : Obligations.WritebackFaultIsPrecise := by
  intro s before after q hsplit hready hbefore hq
  have hok : (writeBack s before).2 = true := (writeBack_ok_iff _ _).mpr hbefore
  have hstop : writeBack s (rectPositions s) = ((writeBack s before).1, false) := hsplit ▸ writeBack_stops hok hq
  have hnd : (before ++ q :: after).Nodup := hsplit ▸ rowMajor_nodup _ _
  refine ⟨_, exec_writeback_fault hready (by rw [hstop]), rfl, ?_, ?_⟩
  · intro hstride x hx v hv
    rw [raiseFault_mem, hstop]
    exact writeBack_holdsSample hnd.of_append_left (fun _ hy => hsplit ▸ List.mem_append_left _ hy) hstride hok hx hv
  · intro a ha
    rw [raiseFault_mem, hstop]
    exact writeBack_read_other _ _ ha

/-! Where the loops go on, and the end of the call. -/

/-- Settles O31: the two outcomes of `NEXTPL`. -/
theorem nextplAdvancesPlane : Obligations.NextplAdvancesPlane := by
  intro s
  obtain ⟨q, hq, hlt, hn⟩ | ⟨hlast, hn⟩ := execNextpl_cases s
  · refine ⟨_, hn, rfl, rfl, rfl, ?_⟩
    rw [if_pos (hq ▸ hlt)]
    exact ⟨rfl, hq⟩
  · refine ⟨_, hn, rfl, rfl, rfl, ?_⟩
    rw [if_neg hlast]
    exact ⟨rfl, rfl⟩

/-- Settles O32: the three outcomes of `NEXTSB`; an index below a count of at most 8192 has its successor in 13 bits. -/
theorem nextsbAdvancesRowMajor : Obligations.NextsbAdvancesRowMajor := by
  intro s hcols hrows
  by_cases hc : s.pc.sbc.toNat + 1 < s.work.nhsb.toNat
  · have hfit := hc.trans_le hcols
    refine ⟨_, exec_nextsb_column hc hfit, rfl, ?_⟩
    rw [if_pos hc]
    exact ⟨rfl, rfl, toNat_succ_of_lt hfit, rfl⟩
  · by_cases hr : s.pc.sbr.toNat + 1 < s.work.nvsb.toNat
    · have hfit := hr.trans_le hrows
      refine ⟨_, exec_nextsb_row hc hr hfit, rfl, ?_⟩
      rw [if_neg hc, if_pos hr]
      exact ⟨rfl, toNat_succ_of_lt hfit, rfl, rfl⟩
    · refine ⟨_, exec_nextsb_last hc hr, rfl, ?_⟩
      rw [if_neg hc, if_neg hr]
      rfl

/-- Settles O33: `TEARDOWN` completes in every state, with `DONE` or `FAIL` by the error code. -/
theorem teardownReports : Obligations.TeardownReports := fun _ =>
  ⟨_, rfl, rfl, PerPlane.get_const false, fun hp => if_pos hp, fun hp => if_neg hp⟩

/-! The tiling. -/

/-- Of the groups of eight that cover `n` units, the last one clipped, unit `r` lies in group `r / 8` and in no other. -/
theorem in_group_iff {n r : Nat} (hr : r < n) (i : Nat) : (i < (n + 7) / 8 ∧ 8 * i ≤ r ∧ r < 8 * i + min 8 (n - 8 * i)) ↔ i = r / 8 := by
  omega

/-- Settles O52: in each direction the superblock is the unit's group of eight (`in_group_iff`). -/
theorem tilingIsPartition : Obligations.TilingIsPartition := by
  intro rows cols r c hr hc
  simp only [superblocks_toNat]
  obtain ⟨hcount, hlo, hhi⟩ := (in_group_iff hr (r / 8)).mpr rfl
  obtain ⟨hcount', hlo', hhi'⟩ := (in_group_iff hc (c / 8)).mpr rfl
  refine ⟨(r / 8, c / 8), ⟨hcount, hcount', hlo, hhi, hlo', hhi'⟩, ?_⟩
  rintro q ⟨hq, hq', hqlo, hqhi, hqlo', hqhi'⟩
  exact Prod.ext ((in_group_iff hr q.1).mp ⟨hq, hqlo, hqhi⟩) ((in_group_iff hc q.2).mp ⟨hq', hqlo', hqhi'⟩)

end Sys2Proof.Machine
end

section
/-! SUPPORT. The FilterKernel's interface (45_kernel_interface.md): what its argument record depends on, and what comes back of skip-coded units. -/

namespace Sys2Proof.Machine

/-! What the argument record depends on. -/

section arguments
variable {s t : State} {p : Plane}

/-- The record's samples depend on the plane's staged extent only (45_kernel_interface.md R172). -/
theorem kernelArgs_src_congr (hheight : planeH s p = planeH t p) (hwidth : planeW s p = planeW t p) (hstride : s.work.wstride = t.work.wstride)
    (hstaged : ∀ r c, r < planeH s p → c < planeW s p → (s.wbuf.get p).get (wbufIndex s r c) = (t.wbuf.get p).get (wbufIndex s r c)) :
    (kernelArgs s p).src = (kernelArgs t p).src := by
  funext r c
  refine ite_congr (by rw [hheight, hwidth]) (fun hrc => congrArg (Option.getD · 0#16) ?_) fun _ => rfl
  rw [← hheight, ← hwidth] at hrc
  have hindex : wbufIndex s r c = wbufIndex t r c := by rw [wbufIndex, wbufIndex, hstride]
  rw [← hindex]
  exact hstaged r c hrc.1 hrc.2

/-- The record's skip flags depend on those of the superblock only (45_kernel_interface.md R172). -/
theorem kernelArgs_skip_congr (hnhb : s.work.nhb = t.work.nhb) (hnvb : s.work.nvb = t.work.nvb) (hcols : s.cfg.miCols = t.cfg.miCols)
    (hsbr : s.pc.sbr = t.pc.sbr) (hsbc : s.pc.sbc = t.pc.sbc)
    (hflags : ∀ r c, r < s.work.nvb.toNat → c < s.work.nhb.toNat →
      s.bskip.get (bskipIndex s (sbRow s + r) (sbCol s + c)) = t.bskip.get (bskipIndex s (sbRow s + r) (sbCol s + c))) :
    (kernelArgs s p).skip = (kernelArgs t p).skip := by
  funext r c
  refine ite_congr (by rw [hnhb, hnvb]) (fun hrc => congrArg (fun v => decide (v = some 1#1)) ?_) fun _ => rfl
  rw [← hnhb, ← hnvb] at hrc
  have hindex : bskipIndex s (sbRow s + r) (sbCol s + c) = bskipIndex t (sbRow t + r) (sbCol t + c) := by
    simp only [bskipIndex, sbRow, sbCol, hcols, hsbr, hsbc]
  rw [← hindex]
  exact hflags r c hrc.1 hrc.2

theorem kernelArgs_dir_congr (hdir : s.dir = t.dir) : (kernelArgs s p).dir = (kernelArgs t p).dir := by
  simp only [kernelArgs, hdir]

end arguments

/-- Settles O27: the samples, the skip flags and the directions of the record agree by the three lemmas above, the scalars by the agreement of the registers
they are read from. -/
theorem kernelSeesOnlyItsArguments : Obligations.KernelSeesOnlyItsArguments := by
  intro s t p hrows hcols hssX hssY hbw hbh hstride hnhb hnvb hnhsb hnvsb hthreshold hshift hsbr hsbc hdir hstaged hflags
  have hunitH : unitH s p = unitH t p := congrArg BitVec.toNat hbh
  have hunitW : unitW s p = unitW t p := congrArg BitVec.toNat hbw
  have hheight : planeH s p = planeH t p := by rw [planeH, planeH, hunitH, hrows]
  have hwidth : planeW s p = planeW t p := by rw [planeW, planeW, hunitW, hcols]
  have hrow : rectRow s p = rectRow t p := by rw [rectRow, rectRow, hunitH, hsbr]
  have hcol : rectCol s p = rectCol t p := by rw [rectCol, rectCol, hunitW, hsbc]
  have num {w : Nat} {a b : BitVec w} : a = b → a.toNat = b.toNat := congrArg BitVec.toNat
  exact (KArgs.mk.injEq ..).mpr ⟨kernelArgs_src_congr hheight hwidth hstride hstaged, num hstride, hrow, hcol, hheight, hwidth, num hnhb, num hnvb,
    num hsbc, num hsbr, num hnhsb, num hnvsb, num hssX, num hssY, kernelArgs_dir_congr (p := p) hdir, rfl,
    kernelArgs_skip_congr (p := p) hnhb hnvb hcols hsbr hsbc hflags, num hcols, num hthreshold, num hshift⟩

/-! What comes back of skip-coded units. -/

/-- A position of unit `i` of `n`, each `u` wide, lies in their row. -/
theorem unit_position_lt {u n i r : Nat} (hi : i < n) (hr : r < u * i + u) : r < u * n :=
  hr.trans_le (Nat.mul_le_mul_left u hi)

/-- The unit size the FilterKernel derives from the record is the plane's (45_kernel_interface.md R171, 43_frame_setup.md R121). -/
theorem Latched.kernelArgs_unit {s : State} (h : Latched s) (p : Plane) :
    8 >>> (kernelArgs s p).ssY = unitH s p ∧ 8 >>> (kernelArgs s p).ssX = unitW s p := by
  rw [unitH, unitW, h.bh, h.bw]
  exact ⟨(unitSpan_toNat_shift _).symm, (unitSpan_toNat_shift _).symm⟩

/-- With KSkipIdentity, the kernel's output over a skip-coded unit is the record's samples there (45_kernel_interface.md R175). -/
theorem KSkipIdentity.out_eq_src {k : KArgs → KResult} (hk : KSkipIdentity k) {s : State} (hl : Latched s) {p : Plane} {uy ux r c : Nat}
    (huy : uy < s.work.nvb.toNat) (hux : ux < s.work.nhb.toNat)
    (hskip : s.bskip.get (bskipIndex s (sbRow s + uy) (sbCol s + ux)) = some 1#1)
    (hr : unitH s p * uy ≤ r ∧ r < unitH s p * uy + unitH s p) (hc : unitW s p * ux ≤ c ∧ c < unitW s p * ux + unitW s p) :
    (k (kernelArgs s p)).out r c = (kernelArgs s p).src (rectRow s p + r) (rectCol s p + c) := by
  obtain ⟨hunitH, hunitW⟩ := hl.kernelArgs_unit p
  rw [← hunitH] at hr
  rw [← hunitW] at hc
  exact hk _ uy ux huy hux ((kernelArgs_skip huy hux hskip).mpr rfl) r c hr.1 hr.2 hc.1 hc.2

/-- Settles O28: the unit's entry of `DST` is the kernel's output, which KSkipIdentity makes the record's sample, which is the one staged. -/
theorem skipUnitsComeBackStaged : Obligations.SkipUnitsComeBackStaged := by
  intro k s t hk ht hl hrows hcols uy ux huy hux hskip r c hrlo hrhi hclo hchi
  obtain ⟨-, hw, hready, -, rfl⟩ := kernelWith_next ht
  have hr : r < rectH s s.pc.pli := unit_position_lt huy hrhi
  have hc : c < rectW s s.pc.pli := unit_position_lt hux hchi
  have hrow := (Nat.add_lt_add_left hr _).trans_le hrows
  have hcol := (Nat.add_lt_add_left hc _).trans_le hcols
  obtain ⟨v, hv⟩ := (Scratch.holds_iff _ _).mp (stagedReady_iff.mp hready _ _ hrow hcol)
  calc (storeOut s s.pc.pli (k (kernelArgs s s.pc.pli)).out).get (dstIndex r c)
    _ = some ((k (kernelArgs s s.pc.pli)).out r c) := storeOut_get hw hr hc
    _ = some ((kernelArgs s s.pc.pli).src (rectRow s s.pc.pli + r) (rectCol s s.pc.pli + c)) :=
      congrArg some (hk.out_eq_src hl huy hux hskip ⟨hrlo, hrhi⟩ ⟨hclo, hchi⟩)
    _ = some v := congrArg some (kernelArgs_src hrow hcol hv)
    _ = (s.wbuf.get s.pc.pli).get (wbufIndex s (rectRow s s.pc.pli + r) (rectCol s s.pc.pli + c)) := hv.symm

end Sys2Proof.Machine
end

section
/-! SUPPORT. Faults (60_exceptions.md R195, R196): when each operation raises one, that the reading operations raise `Fault(BUS)` at an unacceptable address,
that a call ends `DONE` if its regions are acceptable and its request fits, and in `FAIL` with `ERR = ALLOC` if the request does not fit. -/

namespace Sys2Proof.Machine

/-! When the operations that touch memory come to their end. -/

theorem stagePlane_ok_iff {s : State} {p : Plane} :
    (stagePlane s p).2 = true ↔ ∀ r c, r < planeH s p → c < planeW s p → SampleAcceptable s.params s.cfg p r c := by
  refine ⟨fun hok r c hr hc => ?_, stagePlane_ok⟩
  obtain ⟨v, hv⟩ := (gather_ok_iff _ _).mp hok (r, c) (mem_rowMajor.mpr ⟨hr, hc⟩)
  exact readSample_some_iff.mp ⟨v, hv⟩

theorem flattenGrid_ok_iff {s : State} : (flattenGrid s).2 = true ↔ ∀ a, GridByte s.cfg a → acceptable s.params a = true := by
  refine ⟨?_, flattenGrid_ok⟩
  rintro hok a ⟨r, k, hr, hk, rfl⟩
  obtain ⟨v, hv⟩ := (gather_ok_iff _ _).mp hok (r, k) (mem_rowMajor.mpr ⟨hr, hk⟩)
  by_contra hacc
  exact absurd (hv.symm.trans (miSkip_eq_none (Bool.eq_false_iff.mpr hacc))) (Option.some_ne_none v)

/-- Settles O34: in each clause the unacceptable address keeps the operation from coming to its end (`stagePlane_ok_iff`, `flattenGrid_ok_iff`,
`skipDetector_ne_none_iff`), and the rule of its fault says the rest. The region of `SKIPDET` is not empty, since it has that address. -/
theorem busFaultOfReaders : Obligations.BusFaultOfReaders := by
  intro s
  refine ⟨?_, ?_, exec_level_fault, ?_⟩
  · rintro hcap ⟨r, c, hr, hc, hbad⟩
    have hfault : (stagePlane s s.pc.pli).2 = false := Bool.eq_false_iff.mpr fun hok => hbad (stagePlane_ok_iff.mp hok r c hr hc)
    exact ⟨_, exec_stage_fault (fitsScratch_iff.mpr hcap) hfault, rfl, fun p hp => PerPlane.get_set_other _ _ hp⟩
  · rintro hcap ⟨a, ha, hbad⟩
    have hfits := fitsScratch_iff.mpr fun r c (hr : r < s.cfg.miRows.toNat) hc => (rowIndex_lt hr hc).trans_le hcap
    have hfault : (flattenGrid s).2 = false := Bool.eq_false_iff.mpr fun hok => Bool.eq_false_iff.mp hbad (flattenGrid_ok_iff.mp hok a ha)
    exact ⟨_, exec_flatten_fault hfits hfault, rfl⟩
  · rintro ⟨r, c, hr, hr', hc, hc', hbad⟩
    have hin : sbRow s < s.cfg.miRows.toNat ∧ sbCol s < s.cfg.miCols.toNat :=
      ⟨hr.trans_lt (hr'.trans_le (min_le_right ..)), hc.trans_lt (hc'.trans_le (min_le_right ..))⟩
    refine exec_skipdet_fault hin (by_contra fun hsome => ?_)
    exact Bool.eq_false_iff.mp hbad (skipDetector_ne_none_iff.mp hsome r c hr hr' hc hc')

/-! What raises a fault. -/

/-- Operation `i` meets what it raises a fault for: a request over a capacity, or an unacceptable address (60_exceptions.md R191). -/
def MeetsFault (s : State) : Instr → Prop
  | .alloc => overCapacity s.params s.cfg = true
  | .stage => (stagePlane s s.pc.pli).2 = false
  | .flatten => (flattenGrid s).2 = false
  | .level => acceptable s.params (miAddr s.cfg (sbRow s) (sbCol s)) = false
  | .skipdet => skipDetector s.params s.cfg s.mem (sbRow s) (sbCol s) = none
  | .writeback => (writeBack s (rectPositions s)).2 = false
  | _ => False

theorem afterStage_errPend (s : State) : (afterStage s).work.errPend = s.work.errPend := by
  obtain ⟨_, ha, -⟩ := afterStage_position s
  rw [ha]

theorem afterFlatten_errPend (s : State) : (afterFlatten s).work.errPend = s.work.errPend := by rw [afterFlatten_eq]

/-- An operation that meets nothing of that leaves the pending error as it was. -/
theorem exec_operation_errPend {w : BitVec 4} {i : Instr} {s t : State} (hi : decodeSeq w = .ok i) (hfree : ¬ MeetsFault s i)
    (he : exec i s = .next t) : t.work.errPend = s.work.errPend := by
  have henc := decodeSeq_ok hi
  cases i with
  | rd | wr | cmdNop | cmdStart | cmdAck => cases henc
  | planeact | thresh | teardown => cases he; rfl
  | alloc =>
    obtain ⟨hover, -⟩ | ⟨-, hn⟩ := execAlloc_cases s
    · exact absurd hover hfree
    · cases hn.symm.trans he; rfl
  | stage =>
    obtain ⟨-, ⟨-, rfl⟩ | ⟨hbad, -⟩⟩ := execStage_next he
    · exact afterStage_errPend _
    · exact absurd hbad hfree
  | flatten =>
    obtain ⟨-, ⟨-, rfl⟩ | ⟨hbad, -⟩⟩ := execFlatten_next he
    · exact afterFlatten_errPend _
    · exact absurd hbad hfree
  | sbsetup =>
    obtain ⟨-, -, rfl⟩ := execSbsetup_next he
    rfl
  | level =>
    obtain ⟨hbad, -⟩ | ⟨-, _, -, hn⟩ := execLevel_cases s
    · exact absurd hbad hfree
    · cases hn.symm.trans he; rfl
  | skipdet =>
    obtain ⟨-, -, ⟨hbad, -⟩ | ⟨-, rfl⟩ | ⟨-, rfl⟩⟩ := execSkipdet_next he
    · exact absurd hbad hfree
    · rfl
    · rfl
  | kernel =>
    obtain ⟨-, -, -, -, rfl⟩ := kernelWith_next he
    rfl
  | writeback =>
    obtain ⟨-, ⟨-, rfl⟩ | ⟨hbad, -⟩⟩ := execWriteback_next he
    · rfl
    · exact absurd hbad hfree
  | nextpl =>
    obtain ⟨_, -, -, hn⟩ | ⟨-, hn⟩ := execNextpl_cases s
    · cases hn.symm.trans he; rfl
    · cases hn.symm.trans he; rfl
  | nextsb =>
    obtain ⟨-, -, rfl⟩ | ⟨-, -, -, rfl⟩ | ⟨-, -, rfl⟩ := execNextsb_next he
    · rfl
    · rfl
    · rfl

/-! A sound call meets no fault. -/

/-- A sample of an active plane is acceptable. -/
theorem RegionsAcceptable.sample {prm : Params} {c : Cfg} (h : RegionsAcceptable prm c) {p : Plane} (hp : PlaneActive c p) {r k : Nat}
    (hbytes : ∀ a, IsSampleByte c p r k a → PlaneByte c p a) : SampleAcceptable prm c p r k := fun b hb =>
  h.2 p _ hp (hbytes _ ⟨b, hb, rfl⟩)

/-- A sample of the staged extent is one of the plane (10_state.md R17, 20_memory.md R51). -/
theorem Latched.sample_planeByte {s : State} (h : Latched s) {p : Plane} {r k a : Nat} (hr : r < planeH s p) (hk : k < planeW s p)
    (ha : IsSampleByte s.cfg p r k a) : PlaneByte s.cfg p a := by
  rw [planeH, unitH, h.bh] at hr
  rw [planeW, unitW, h.bw] at hk
  exact ⟨r, k, hr, hk, ha⟩

/-- In a call whose regions are acceptable and whose request fits, no operation meets what it raises a fault for. -/
theorem CallInv.not_meetsFault {s : State} {i : Instr} (h : CallInv s) (hbusy : s.callState = .busy) (hi : decodeSeq s.pc.op = .ok i)
    (hregions : RegionsAcceptable s.params s.cfg) (hcap : overCapacity s.params s.cfg = false) : ¬ MeetsFault s i := by
  have henc := decodeSeq_ok hi
  have hat : ∀ op : BitVec 4, encode i = .seq op → AtOps s op.toNat op.toNat := fun op ho =>
    atOps_of hbusy (CodeWord.seq.inj (henc.symm.trans ho)) (Nat.le_refl _) (Nat.le_refl _)
  cases i with
  | alloc => exact Bool.eq_false_iff.mp hcap
  | stage =>
    have hown : AtOps s 3 12 := (hat opStage rfl).mono
    exact ne_false_of_eq_true <| stagePlane_ok fun r c hr hc =>
      hregions.sample (h.plane_lt hown) fun _ => (h.owning hown).latched.sample_planeByte hr hc
  | flatten => exact ne_false_of_eq_true <| flattenGrid_ok hregions.1
  | level =>
    obtain ⟨hr, hc⟩ := (h.loop (hat opLevel rfl).mono).origin_lt
    exact ne_false_of_eq_true <| hregions.1 _ ⟨_, _, hr, hc, rfl⟩
  | skipdet =>
    exact skipDetector_ne_none_iff.mpr fun r k _ hr _ hk =>
      hregions.1 _ ⟨r, k, hr.trans_le (min_le_right ..), hk.trans_le (min_le_right ..), rfl⟩
  | writeback =>
    have hrect : AtOps s 10 10 := hat opWriteback rfl
    refine ne_false_of_eq_true <| (writeBack_ok_iff _ _).mpr fun q hq => ?_
    obtain ⟨hr, hc⟩ := mem_rowMajor.mp hq
    exact hregions.sample (h.plane_lt hrect.mono) fun _ ha =>
      (rect_superblockByte (h.latched hrect.mono) (h.extent hrect.mono) hr hc ha).planeByte
  | _ => exact not_false

/-! How a call ends. -/

/-- No fault is pending and none was reported: the call, if it has ended, ended `DONE`. -/
structure FaultFree (s : State) : Prop where
  errPend   : s.work.errPend = .noError
  err       : s.err = .noError
  callState : s.callState ≠ .fail

/-- An operation that meets no fault keeps that; `TEARDOWN` reports the pending error, which is none. -/
theorem exec_operation_faultFree {s t : State} {i : Instr} (h : FaultFree s) (hi : decodeSeq s.pc.op = .ok i) (hfree : ¬ MeetsFault s i)
    (he : exec i s = .next t) : FaultFree t where
  errPend := (exec_operation_errPend hi hfree he).trans h.errPend
  err := (exec_operation_frame hi he).err.elim (·.trans h.err) (·.2.trans h.errPend)
  callState := by
    obtain hcall | ⟨hop, -⟩ := (exec_operation_frame hi he).callState
    · exact hcall ▸ h.callState
    · have hi' : Except.ok i = .ok Instr.teardown := hi.symm.trans (hop ▸ rfl)
      cases hi'
      obtain ⟨-, rfl⟩ | ⟨hp, -⟩ := execTeardown_cases he
      · exact nofun
      · exact absurd h.errPend hp

/-- A call that meets no fault ends in `DONE`: it ends (`call_ends`), and every operation keeps `FaultFree`. -/
theorem soundCall_ends_done {s : State} (h : CallInv s) (hbusy : s.callState = .busy) (hop : s.pc.op = opPlaneact) (hin : s.inbox = [])
    (hregions : RegionsAcceptable s.params s.cfg) (hcap : overCapacity s.params s.cfg = false) :
    ∃ n t, core.run n s = .next t ∧ t.callState = .done ∧ t.err = .noError := by
  obtain ⟨n, t, -, hrun, hend⟩ := call_ends h hbusy (hin ▸ fun _ he => nomatch he)
  have hstart : FaultFree s := ⟨h.pending (atOps_of hbusy hop), (h.running hbusy).2, by rw [hbusy]; exact nofun⟩
  obtain ⟨u, hrun', -, hfree⟩ := run_keeps n h hin hstart fun hside ht hbusy hi he hfree =>
    exec_operation_faultFree hfree hi (ht.not_meetsFault hbusy hi (hside.params ▸ hside.cfg ▸ hregions) (hside.params ▸ hside.cfg ▸ hcap)) he
  obtain rfl : t = u := Host.Outcome.next.inj (hrun.symm.trans hrun')
  exact ⟨n, t, hrun, hend.resolve_right hfree.callState, hfree.err⟩

/-- With no event pending, the first of the steps of a running machine is the operation at its position. -/
theorem run_operation {s t : State} {i : Instr} (n : Nat) (hin : s.inbox = []) (hbusy : s.callState = .busy) (hi : decodeSeq s.pc.op = .ok i)
    (he : exec i s = .next t) : core.run (n + 1) s = core.run n t :=
  run_succ n ((step_of_operation hin hbusy hi).trans he)

/-- At `ALLOC` a request that does not fit ends the call: `ALLOC` raises `Fault(ALLOC)`, and `TEARDOWN` reports it (43_frame_setup.md R123). -/
theorem alloc_overCapacity_ends {s : State} (hbusy : s.callState = .busy) (hop : s.pc.op = opAlloc) (hin : s.inbox = [])
    (hcap : overCapacity s.params s.cfg = true) : ∃ t, core.run 2 s = .next t ∧ t.callState = .fail ∧ t.err = .alloc ∧ t.mem = s.mem :=
  have halloc := run_operation 1 (i := .alloc) hin hbusy (hop ▸ rfl) (exec_alloc_fault hcap)
  have hteardown := run_operation 0 (s := raiseFault .alloc opAlloc s) (i := .teardown) hin hbusy rfl rfl
  ⟨_, halloc.trans hteardown, rfl, rfl, rfl⟩

/-- A call whose request does not fit ends so: `PLANEACT`, which is before `ALLOC`, changes neither the request nor memory. -/
theorem overCapacity_ends_fail {s : State} (hbusy : s.callState = .busy) (hop : s.pc.op = opPlaneact) (hin : s.inbox = [])
    (hcap : overCapacity s.params s.cfg = true) :
    ∃ n t, core.run n s = .next t ∧ t.callState = .fail ∧ t.err = .alloc ∧ t.mem = s.mem := by
  refine ⟨3, ?_⟩
  rw [run_operation 2 (i := .planeact) hin hbusy (hop ▸ rfl) rfl]
  exact alloc_overCapacity_ends hbusy rfl hin hcap

/-- Settles O46: a request that fits meets no fault (`soundCall_ends_done`), one that does not fit meets its fault at `ALLOC`
(`overCapacity_ends_fail`). -/
theorem soundCallEndsDone : Obligations.SoundCallEndsDone := fun _ h hbusy hop hin =>
  ⟨soundCall_ends_done h hbusy hop hin, overCapacity_ends_fail hbusy hop hin⟩

end Sys2Proof.Machine
end
